-- ==== Sys2Proof/Word.lean ====
section
/-! DEFINITION. The bit-vector types of HRC: register words, bytes, bus addresses (spec/00_scope.md R9, 20_memory.md R80). -/

namespace Sys2Proof

/-- A register, a command word or a bus data word: every register is 32 bits wide (R31, R110). -/
abbrev Word := BitVec 32

/-- One byte of a buffer, and one symbol of the 256-symbol alphabet (R8). -/
abbrev Byte := BitVec 8

/-- A byte address of the host bus, an offset from HRC_BASE (R80, R81). -/
abbrev Addr := BitVec 27

end Sys2Proof
end

