-- ==== Sys2Proof/Syntax.lean ====
section
/-! DEFINITION. The commands of HRC, one constructor per row of the opcode table (spec/30_encoding.md R116). -/

namespace Sys2Proof

/-- A 4-bit index field of the command word, RD or RS (R110, R113). Values 4 to 15 are kept: such a word still
decodes to its row, and the command is refused with ERR_OPERAND (R116, last sentence). -/
abbrev OpIdx := BitVec 4

/-- A command. `rd` and `rs` are the fields RD and RS; a field that the row does not use is not an argument. -/
inductive Instr
  /-- NOP (R265) -/
  | nop
  /-- BS_CLEAR Sd (R140) -/
  | bsClear (rd : OpIdx)
  /-- BS_APPEND Sd, bit (R141) -/
  | bsAppend (rd : OpIdx) (imm : Bool)
  /-- BS_CAT Sd, Ss (R142) -/
  | bsCat (rd rs : OpIdx)
  /-- BS_POP Sd (R143) -/
  | bsPop (rd : OpIdx)
  /-- BS_POPS Sd (R144) -/
  | bsPops (rd : OpIdx)
  /-- BS_REV Sd, Ss (R145) -/
  | bsRev (rd rs : OpIdx)
  /-- BS_GET Ss (R146) -/
  | bsGet (rs : OpIdx)
  /-- BS_WRITE Bd, Ss (R148) -/
  | bsWrite (rd rs : OpIdx)
  /-- BS_READ Sd, Bs (R149) -/
  | bsRead (rd rs : OpIdx)
  /-- BWT_FWD Bd, Bs (R172) -/
  | bwtFwd (rd rs : OpIdx)
  /-- BWT_INV Bd, Bs (R175) -/
  | bwtInv (rd rs : OpIdx)
  /-- MTF_ENC Bd, Bs (R191) -/
  | mtfEnc (rd rs : OpIdx)
  /-- MTF_DEC Bd, Bs (R192) -/
  | mtfDec (rd rs : OpIdx)
  /-- RLE_ENC Bd, Bs (R202) -/
  | rleEnc (rd rs : OpIdx)
  /-- RLE_DEC Bd, Bs (R203) -/
  | rleDec (rd rs : OpIdx)
  /-- HUF_COUNT Bs (R216) -/
  | hufCount (rs : OpIdx)
  /-- HUF_BUILD (R218) -/
  | hufBuild
  /-- HUF_ENC Sd, Bs (R222) -/
  | hufEnc (rd rs : OpIdx)
  /-- HUF_DEC Bd, Ss (R223) -/
  | hufDec (rd rs : OpIdx)
  /-- REC_WRITE Bd, Ss (R247) -/
  | recWrite (rd rs : OpIdx)
  /-- REC_READ Sd, Bs (R248) -/
  | recRead (rd rs : OpIdx)
  deriving DecidableEq, Repr

end Sys2Proof
end

