-- ==== Sys2Proof/WellFormed.lean ====
section
/-! DEFINITION. Which commands name existing operands: every used index field holds 0 to 3 (spec/30_encoding.md R113). -/

namespace Sys2Proof

/-- The field names one of B0..B3 or S0..S3 (R113). -/
def OpIdx.legal (x : OpIdx) : Bool := x.toNat < 4

/-- Every index field the command uses is legal (R111, last two checks; R113). A command that is not well-formed
still runs: it completes with ERR_OPERAND. -/
def Instr.wellFormed : Instr → Bool
  | .nop | .hufBuild => true
  | .bsClear rd | .bsAppend rd _ | .bsPop rd | .bsPops rd => OpIdx.legal rd
  | .bsGet rs | .hufCount rs => OpIdx.legal rs
  | .bsCat rd rs | .bsRev rd rs | .bsWrite rd rs | .bsRead rd rs | .bwtFwd rd rs | .bwtInv rd rs
  | .mtfEnc rd rs | .mtfDec rd rs | .rleEnc rd rs | .rleDec rd rs | .hufEnc rd rs | .hufDec rd rs
  | .recWrite rd rs | .recRead rd rs => OpIdx.legal rd && OpIdx.legal rs

end Sys2Proof
end

