-- ==== Sys2Proof/Decode.lean ====
section
/-! DEFINITION. Decoding and encoding of the 32-bit command word (spec/30_encoding.md R110, R111, R116). -/

namespace Sys2Proof

/-! ### The opcode values (R116) -/

def Opcode.nop : Byte := 0x00
def Opcode.bsClear : Byte := 0x10
def Opcode.bsAppend : Byte := 0x11
def Opcode.bsCat : Byte := 0x12
def Opcode.bsPop : Byte := 0x13
def Opcode.bsPops : Byte := 0x14
def Opcode.bsRev : Byte := 0x15
def Opcode.bsGet : Byte := 0x16
def Opcode.bsWrite : Byte := 0x17
def Opcode.bsRead : Byte := 0x18
def Opcode.bwtFwd : Byte := 0x20
def Opcode.bwtInv : Byte := 0x21
def Opcode.mtfEnc : Byte := 0x22
def Opcode.mtfDec : Byte := 0x23
def Opcode.rleEnc : Byte := 0x24
def Opcode.rleDec : Byte := 0x25
def Opcode.hufCount : Byte := 0x30
def Opcode.hufBuild : Byte := 0x31
def Opcode.hufEnc : Byte := 0x32
def Opcode.hufDec : Byte := 0x33
def Opcode.recWrite : Byte := 0x40
def Opcode.recRead : Byte := 0x41

/-- The kind of an operand field (R112): it names a buffer, names a bitstream, or must be 0. -/
inductive OperandKind
  | buffer
  | stream
  | unused
  deriving DecidableEq, Repr

/-- One row of the opcode table (R116): the opcode, the kinds of RD and RS, whether the row uses IMM, and the
command the row's fields make. -/
structure OpRow where
  opcode : Byte
  rd     : OperandKind
  rs     : OperandKind
  imm    : Bool
  make   : OpIdx → OpIdx → Bool → Instr

/-- The complete opcode table (R116), in the table's order. -/
def opTable : List OpRow :=
  [ ⟨Opcode.nop, .unused, .unused, false, fun _ _ _ => .nop⟩,
    ⟨Opcode.bsClear, .stream, .unused, false, fun rd _ _ => .bsClear rd⟩,
    ⟨Opcode.bsAppend, .stream, .unused, true, fun rd _ imm => .bsAppend rd imm⟩,
    ⟨Opcode.bsCat, .stream, .stream, false, fun rd rs _ => .bsCat rd rs⟩,
    ⟨Opcode.bsPop, .stream, .unused, false, fun rd _ _ => .bsPop rd⟩,
    ⟨Opcode.bsPops, .stream, .unused, false, fun rd _ _ => .bsPops rd⟩,
    ⟨Opcode.bsRev, .stream, .stream, false, fun rd rs _ => .bsRev rd rs⟩,
    ⟨Opcode.bsGet, .unused, .stream, false, fun _ rs _ => .bsGet rs⟩,
    ⟨Opcode.bsWrite, .buffer, .stream, false, fun rd rs _ => .bsWrite rd rs⟩,
    ⟨Opcode.bsRead, .stream, .buffer, false, fun rd rs _ => .bsRead rd rs⟩ ] ++
  [ ⟨Opcode.bwtFwd, .buffer, .buffer, false, fun rd rs _ => .bwtFwd rd rs⟩,
    ⟨Opcode.bwtInv, .buffer, .buffer, false, fun rd rs _ => .bwtInv rd rs⟩,
    ⟨Opcode.mtfEnc, .buffer, .buffer, false, fun rd rs _ => .mtfEnc rd rs⟩,
    ⟨Opcode.mtfDec, .buffer, .buffer, false, fun rd rs _ => .mtfDec rd rs⟩,
    ⟨Opcode.rleEnc, .buffer, .buffer, false, fun rd rs _ => .rleEnc rd rs⟩,
    ⟨Opcode.rleDec, .buffer, .buffer, false, fun rd rs _ => .rleDec rd rs⟩ ] ++
  [ ⟨Opcode.hufCount, .unused, .buffer, false, fun _ rs _ => .hufCount rs⟩,
    ⟨Opcode.hufBuild, .unused, .unused, false, fun _ _ _ => .hufBuild⟩,
    ⟨Opcode.hufEnc, .stream, .buffer, false, fun rd rs _ => .hufEnc rd rs⟩,
    ⟨Opcode.hufDec, .buffer, .stream, false, fun rd rs _ => .hufDec rd rs⟩,
    ⟨Opcode.recWrite, .buffer, .stream, false, fun rd rs _ => .recWrite rd rs⟩,
    ⟨Opcode.recRead, .stream, .buffer, false, fun rd rs _ => .recRead rd rs⟩ ]

/-! ### The fields of a command word (R110) -/

def opField (w : Word) : Byte := w.extractLsb' 0 8
def rdField (w : Word) : OpIdx := w.extractLsb' 8 4
def rsField (w : Word) : OpIdx := w.extractLsb' 12 4
def immField (w : Word) : Bool := w.getLsbD 16
def rsvField (w : Word) : BitVec 15 := w.extractLsb' 17 15

/-- Why a word is no command. Each is ERR_ILLEGAL (R111, R117). -/
inductive DecodeError
  /-- OP is not in the opcode table -/
  | undefinedOp
  /-- RSV is not 0 -/
  | reservedBits
  /-- the row does not use RD and RD is not 0 -/
  | unusedRd
  /-- the row does not use RS and RS is not 0 -/
  | unusedRs
  /-- the row is not BS_APPEND and IMM is not 0 -/
  | unusedImm
  deriving DecidableEq, Repr

/-- The row of an opcode, if the opcode is defined (R116). -/
def rowOf (op : Byte) : Option OpRow := opTable.find? (fun r => r.opcode == op)

/-- The ERR_ILLEGAL checks of R111 in their order, then the command of the row. The last two checks of R111, an
index above 3, stand in the meanings (`Machine/Operands.lean`), since such a word still decodes to its row (R116). -/
def decode (w : Word) : Except DecodeError Instr :=
  match rowOf (opField w) with
  | none => .error .undefinedOp
  | some r =>
    if rsvField w ≠ 0 then .error .reservedBits
    else if r.rd = .unused ∧ rdField w ≠ 0 then .error .unusedRd
    else if r.rs = .unused ∧ rsField w ≠ 0 then .error .unusedRs
    else if r.imm = false ∧ immField w = true then .error .unusedImm
    else .ok (r.make (rdField w) (rsField w) (immField w))

/-- R110: enc(op, rd, rs, imm) = op | (rd << 8) | (rs << 12) | (imm << 16). -/
def enc (op : Byte) (rd rs : OpIdx) (imm : Bool) : Word :=
  op.setWidth 32 ||| (rd.setWidth 32 <<< 8) ||| (rs.setWidth 32 <<< 12) |||
    ((BitVec.ofBool imm).setWidth 32 <<< 16)

/-- The opcode of a command (R116). -/
def Instr.opcode : Instr → Byte
  | .nop => Opcode.nop
  | .bsClear _ => Opcode.bsClear
  | .bsAppend _ _ => Opcode.bsAppend
  | .bsCat _ _ => Opcode.bsCat
  | .bsPop _ => Opcode.bsPop
  | .bsPops _ => Opcode.bsPops
  | .bsRev _ _ => Opcode.bsRev
  | .bsGet _ => Opcode.bsGet
  | .bsWrite _ _ => Opcode.bsWrite
  | .bsRead _ _ => Opcode.bsRead
  | .bwtFwd _ _ => Opcode.bwtFwd
  | .bwtInv _ _ => Opcode.bwtInv
  | .mtfEnc _ _ => Opcode.mtfEnc
  | .mtfDec _ _ => Opcode.mtfDec
  | .rleEnc _ _ => Opcode.rleEnc
  | .rleDec _ _ => Opcode.rleDec
  | .hufCount _ => Opcode.hufCount
  | .hufBuild => Opcode.hufBuild
  | .hufEnc _ _ => Opcode.hufEnc
  | .hufDec _ _ => Opcode.hufDec
  | .recWrite _ _ => Opcode.recWrite
  | .recRead _ _ => Opcode.recRead

/-- The RD field of a command's word, 0 when unused (R110). -/
def Instr.rd : Instr → OpIdx
  | .nop | .bsGet _ | .hufCount _ | .hufBuild => 0
  | .bsClear rd | .bsAppend rd _ | .bsPop rd | .bsPops rd => rd
  | .bsCat rd _ | .bsRev rd _ | .bsWrite rd _ | .bsRead rd _ | .bwtFwd rd _ | .bwtInv rd _
  | .mtfEnc rd _ | .mtfDec rd _ | .rleEnc rd _ | .rleDec rd _ | .hufEnc rd _ | .hufDec rd _
  | .recWrite rd _ | .recRead rd _ => rd

/-- The RS field of a command's word, 0 when unused (R110). -/
def Instr.rs : Instr → OpIdx
  | .nop | .bsClear _ | .bsAppend _ _ | .bsPop _ | .bsPops _ | .hufBuild => 0
  | .bsGet rs | .hufCount rs => rs
  | .bsCat _ rs | .bsRev _ rs | .bsWrite _ rs | .bsRead _ rs | .bwtFwd _ rs | .bwtInv _ rs
  | .mtfEnc _ rs | .mtfDec _ rs | .rleEnc _ rs | .rleDec _ rs | .hufEnc _ rs | .hufDec _ rs
  | .recWrite _ rs | .recRead _ rs => rs

/-- The IMM field of a command's word: BS_APPEND's bit, 0 elsewhere (R114). -/
def Instr.imm : Instr → Bool
  | .bsAppend _ imm => imm
  | .nop | .bsGet _ | .hufCount _ | .hufBuild | .bsClear _ | .bsPop _ | .bsPops _
  | .bsCat _ _ | .bsRev _ _ | .bsWrite _ _ | .bsRead _ _ | .bwtFwd _ _ | .bwtInv _ _
  | .mtfEnc _ _ | .mtfDec _ _ | .rleEnc _ _ | .rleDec _ _ | .hufEnc _ _ | .hufDec _ _
  | .recWrite _ _ | .recRead _ _ => false

/-- The word of a command (R110, R116). -/
def encode (i : Instr) : Word := enc i.opcode i.rd i.rs i.imm

/-- The OP, match and mask columns of the opcode table, as the spec writes them (R116): a word selects the row when
`w & mask = match`. The decoder does not use them; the statements hold it against them. -/
def tableRows : List (Byte × Word × Word) :=
  [ (0x00, 0x00000000, 0xFFFFFFFF),
    (0x10, 0x00000010, 0xFFFFF0FF),
    (0x11, 0x00000011, 0xFFFEF0FF),
    (0x12, 0x00000012, 0xFFFF00FF),
    (0x13, 0x00000013, 0xFFFFF0FF),
    (0x14, 0x00000014, 0xFFFFF0FF),
    (0x15, 0x00000015, 0xFFFF00FF),
    (0x16, 0x00000016, 0xFFFF0FFF),
    (0x17, 0x00000017, 0xFFFF00FF),
    (0x18, 0x00000018, 0xFFFF00FF) ] ++
  [ (0x20, 0x00000020, 0xFFFF00FF),
    (0x21, 0x00000021, 0xFFFF00FF),
    (0x22, 0x00000022, 0xFFFF00FF),
    (0x23, 0x00000023, 0xFFFF00FF),
    (0x24, 0x00000024, 0xFFFF00FF),
    (0x25, 0x00000025, 0xFFFF00FF),
    (0x30, 0x00000030, 0xFFFF0FFF),
    (0x31, 0x00000031, 0xFFFFFFFF),
    (0x32, 0x00000032, 0xFFFF00FF),
    (0x33, 0x00000033, 0xFFFF00FF),
    (0x40, 0x00000040, 0xFFFF00FF),
    (0x41, 0x00000041, 0xFFFF00FF) ]

/-- The command the decoder reads from a word numbered as spec/opcode_table.json numbers it. HRC's rows are one
32-bit word (R118), so the table's number is the word itself; bits at and above `nbits` are 0. -/
def decodeTableWord (nbits w : Nat) : Option Instr :=
  if nbits ≤ 32 then (decode (BitVec.ofNat 32 (w % 2 ^ nbits))).toOption else none

end Sys2Proof
end

