-- ==== Sys2Proof/Config.lean ====
section
/-! DEFINITION. What an implementation of HRC fixes: the identity constants, the parameters' assumed values and legal ranges, and the free values (spec/00_scope.md R2, R6; 10_state.md R33; 93_implementation_defined.md). -/

namespace Sys2Proof.Config

/-- ID, the ASCII bytes of BWTC (R33). -/
def idValue : Word := 0x42575443

/-- VERSION: major 0, minor 1 (R33). -/
def versionValue : Word := 0x00000001

/-- BUF_BYTES when none is given (R6). -/
def defaultBufBytes : Word := 0x00200000

/-- BS_CAP_BITS when none is given (R6). -/
def defaultBsCapBits : Word := 0x08000000

/-- NONE, "no value" in RESULT (R14, R37). -/
def noneValue : Word := 0xFFFFFFFF

/-- The legal values of the two parameters (R6); 0xFFFF_FFF8 is the largest 32-bit multiple of 8. -/
def legalParams (bufBytes bsCapBits : Word) : Bool :=
  1 ≤ bufBytes.toNat && bufBytes.toNat ≤ 0x01000000 &&
  8 ≤ bsCapBits.toNat && bsCapBits.toNat % 8 == 0

/-- FREE VALUE (log 2). The byte an UNSPECIFIED cell holds: the cell at `index` of buffer `buffer`, since the
event numbered `draw` made it UNSPECIFIED (R13, R56, R89, R279; U1, U2, U3). It has no body: nothing is known
of it, and it depends on nothing but its arguments. -/
opaque freeByte (draw buffer index : Nat) : Byte

end Sys2Proof.Config
end

