-- ==== Sys2Proof/Machine/State.lean ====
section
/-! DEFINITION. The state of HRC as plain data, and the state right after reset (spec/10_state.md). -/

namespace Sys2Proof.Machine

/-- The errors a command completes with (R275). `ERRCODE.CODE = 0`, OK, is the absence of one. -/
inductive CmdError
  /-- ERR_ILLEGAL, 1 -/
  | illegal
  /-- ERR_OPERAND, 2 -/
  | operand
  /-- ERR_PRECOND, 3 -/
  | precond
  /-- ERR_NOT_READY, 4 -/
  | notReady
  /-- ERR_NO_CODE, 5 -/
  | noCode
  /-- ERR_BUF_FULL, 6 -/
  | bufFull
  /-- ERR_BS_FULL, 7 -/
  | bsFull
  /-- ERR_MALFORMED, 8 -/
  | malformed
  /-- ERR_TRUNCATED, 9 -/
  | truncated
  /-- ERR_BAD_CODE, 10 -/
  | badCode
  deriving DecidableEq, Repr

/-- A Huffman tree (R49): a leaf holds a symbol, a node its two children; each carries its exact weight (R217). -/
inductive HuffTree
  | leaf (sym : Byte) (weight : Nat)
  | node (left right : HuffTree) (weight : Nat)
  deriving DecidableEq, Repr

/-- Byte buffer Bi (R40). `cells` lists the bytes of BUFMEM_i that are specified, by index, strictly rising; a byte
not listed is UNSPECIFIED since the event numbered `draw` (log 2). `len` is LEN[i] (R41). -/
structure Buffer where
  len   : Word
  cells : List Host.Cell
  draw  : Nat
  deriving DecidableEq, Repr

/-- Bitstream Sk (R45): START[k] and the value Seq(k). END[k] is START[k] plus the number of bits; bits outside
[START, END) are not observable (U4, log 6). -/
structure Bitstream where
  start : Word
  bits  : List Bool
  deriving DecidableEq, Repr

/-- The response of a host access (R85). -/
inductive BusResp
  /-- OK(data), the answer of a read -/
  | data (v : Word)
  /-- OK, the answer of a write -/
  | done
  /-- BUSERR (R86) -/
  | busErr
  deriving DecidableEq, Repr

/-- What happens next (R30, R301, R312; log 7): a host access of `n` bytes, the engine's turn, or a pulse of `rst`. -/
inductive Input
  | read (addr : Addr) (n : Nat)
  | write (addr : Addr) (n : Nat) (v : Word)
  | engine
  | reset
  deriving DecidableEq, Repr

/-- Reasons for HRC to stop with a fault: there are none. A failing command completes with an error code (R277, R281)
and an illegal host access is answered BUSERR (R86); both are next states. Safe. -/
inductive Fault
  deriving DecidableEq, Repr

/-- Reasons for the model to give no meaning. -/
inductive Refusal
  /-- A command that has no meaning yet, by its table mnemonic: raised by an arm of `exec` alone, and by none now. Safe. -/
  | notModelled (mnemonic : String)
  deriving DecidableEq, Repr

/-- The whole state of HRC. BUSY is `latch.isSome`; NSYM, CODE_LEN, CODE_BITS, END and `irq` are views
(`Machine/Flags.lean`, `Machine/Huffman.lean`, `Machine/Ops.lean`). The last three fields are the model's own. -/
structure State where
  /-- PARAM_BUF, the parameter BUF_BYTES (R6, R33) -/
  bufBytes  : Word
  /-- PARAM_BS, the parameter BS_CAP_BITS (R6, R33) -/
  bsCapBits : Word
  /-- CMDLATCH while STATUS.BUSY = 1 (R34, R52) -/
  latch     : Option Word
  /-- STATUS.ERR (R35) -/
  err       : Bool
  /-- STATUS.EOF (R35) -/
  eof       : Bool
  /-- STATUS.HUF_VALID (R35) -/
  hufValid  : Bool
  /-- STATUS.OVERRUN (R35) -/
  overrun   : Bool
  /-- ERRCODE.OP (R36) -/
  errOp     : Byte
  /-- ERRCODE.CODE (R36, R275) -/
  errCode   : Option CmdError
  /-- RESULT (R37) -/
  result    : Word
  /-- ARG (R38) -/
  arg       : Word
  /-- PRIMARY (R39) -/
  primary   : Word
  /-- RPOS (R42) -/
  rpos      : Word
  /-- CTRL.IRQ_EN (R44) -/
  irqEn     : Bool
  /-- IRQ.IRQ_PEND (R47) -/
  irqPend   : Bool
  /-- B0..B3 (R40) -/
  bufs      : Vector Buffer 4
  /-- S0..S3 (R45) -/
  streams   : Vector Bitstream 4
  /-- FREQ (R48): the nonzero counts by symbol, strictly rising -/
  freqs     : List (Nat × Word)
  /-- TREE (R49), none after reset -/
  tree      : Option HuffTree
  /-- what the host, the reset pin and the engine's schedule do next (log 7) -/
  inputs    : List Input
  /-- the response of the last host access (log 16) -/
  busResp   : Option BusResp
  /-- the number of the next free draw (log 2) -/
  draws     : Nat
  deriving DecidableEq, Repr

/-- The state that a reset leaves (R56, R301) for the given parameters; every buffer byte is UNSPECIFIED, by free
draw number `draw`. -/
def State.resetWith (bufBytes bsCapBits : Word) (draw : Nat) : State where
  bufBytes := bufBytes
  bsCapBits := bsCapBits
  latch := none
  err := false
  eof := false
  hufValid := false
  overrun := false
  errOp := 0
  errCode := none
  result := 0
  arg := 0
  primary := 0
  rpos := 0
  irqEn := false
  irqPend := false
  bufs := Vector.replicate 4 ⟨0, [], draw⟩
  streams := Vector.replicate 4 ⟨0, []⟩
  freqs := []
  tree := none
  inputs := []
  busResp := none
  draws := draw + 1

/-- The machine right after reset (R56, R301), with the parameter values the spec assumes when none is given (R6). -/
def State.reset : State := State.resetWith Config.defaultBufBytes Config.defaultBsCapBits 0

end Sys2Proof.Machine
end

