-- ==== Sys2Proof/Machine/Flags.lean ====
section
/-! DEFINITION. The status registers as words, their write effects and the interrupt output (spec/10_state.md R32, R35, R36, R44, R47; 60_exceptions.md R275, R285). -/

namespace Sys2Proof.Machine

/-- The number of an error code (R275). -/
def CmdError.code : CmdError → Byte
  | .illegal => 1
  | .operand => 2
  | .precond => 3
  | .notReady => 4
  | .noCode => 5
  | .bufFull => 6
  | .bsFull => 7
  | .malformed => 8
  | .truncated => 9
  | .badCode => 10

/-- ERRCODE.CODE: 0 is OK (R36, R275). -/
def codeByte : Option CmdError → Byte
  | none => 0
  | some c => c.code

/-- STATUS.BUSY: a command is in flight (R35, R52). -/
def State.busy (s : State) : Bool := s.latch.isSome

/-- STATUS (R35): BUSY, ERR, EOF, HUF_VALID, OVERRUN in bits 0 to 4, the rest 0. -/
def State.statusWord (s : State) : Word :=
  BitVec.ofNat 32 (s.busy.toNat + 2 * s.err.toNat + 4 * s.eof.toNat + 8 * s.hufValid.toNat + 16 * s.overrun.toNat)

/-- ERRCODE (R36): OP in bits 15:8, CODE in bits 7:0, the rest 0. -/
def State.errcodeWord (s : State) : Word :=
  (s.errOp.setWidth 32 <<< 8) ||| (codeByte s.errCode).setWidth 32

/-- CTRL (R44): IRQ_EN in bit 0; SOFT_RESET and the reserved bits read 0. -/
def State.ctrlWord (s : State) : Word := BitVec.ofNat 32 s.irqEn.toNat

/-- IRQ (R47): IRQ_PEND in bit 0. -/
def State.irqWord (s : State) : Word := BitVec.ofNat 32 s.irqPend.toNat

/-- The interrupt output (R285). -/
def State.irqOut (s : State) : Bool := s.irqEn && s.irqPend

/-- A write to STATUS: a 1 in bit 4 clears OVERRUN, the other bits ignore writes (R35, R32). -/
def State.writeStatus (v : Word) (s : State) : State := { s with overrun := s.overrun && !v.getLsbD 4 }

/-- A write to IRQ: a 1 in bit 0 clears IRQ_PEND (R47, R32). -/
def State.writeIrq (v : Word) (s : State) : State := { s with irqPend := s.irqPend && !v.getLsbD 0 }

end Sys2Proof.Machine
end

