-- ==== Sys2Proof/Machine/Serial.lean ====
section
/-! DEFINITION. Byte order and bit order of the serialized formats and of the host bus (spec/20_memory.md R84, R87, R88; 40_bitstream.md R147). -/

namespace Sys2Proof.Machine

/-- be16(v): big-endian (R10, R87). -/
def be16 (v : BitVec 16) : List Byte := [v.extractLsb' 8 8, v.extractLsb' 0 8]

/-- be32(v): big-endian (R10, R87). -/
def be32 (v : Word) : List Byte :=
  [v.extractLsb' 24 8, v.extractLsb' 16 8, v.extractLsb' 8 8, v.extractLsb' 0 8]

/-- from_be(b): the unsigned value of a big-endian byte sequence (R10). -/
def fromBe (b : List Byte) : Nat := b.foldl (fun a c => a * 256 + c.toNat) 0

/-- ceil(n / 8) (R147). -/
def ceil8 (n : Nat) : Nat := (n + 7) / 8

/-- The byte whose bit b is `f b`, for b = 0 to 7. -/
def byteOfBits (f : Nat → Bool) : Byte :=
  BitVec.ofNat 8 ((f 0).toNat + 2 * (f 1).toNat + 4 * (f 2).toNat + 8 * (f 3).toNat +
    16 * (f 4).toNat + 32 * (f 5).toNat + 64 * (f 6).toNat + 128 * (f 7).toNat)

/-- pack(x): bit b of byte m is x[8m + b], and 0 beyond the end (R147, R88). -/
def pack (x : List Bool) : List Byte :=
  (List.range (ceil8 x.length)).map fun m => byteOfBits fun b => x.getD (8 * m + b) false

/-- unpack(p, n): bit j is bit (j mod 8) of p[j div 8] (R147). -/
def unpack (p : List Byte) (n : Nat) : List Bool :=
  (List.range n).map fun j => (p.getD (j / 8) 0).getLsbD (j % 8)

/-- ser(x): the 32-bit length header, then the packed bits (R147). -/
def ser (x : List Bool) : List Byte := be32 (BitVec.ofNat 32 x.length) ++ pack x

/-- take(k) of R249: the next k bytes and the rest, or ERR_TRUNCATED when fewer remain. -/
def takeBytes (k : Nat) (m : List Byte) : Except CmdError (List Byte × List Byte) :=
  if m.length < k then .error .truncated else .ok (m.take k, m.drop k)

/-- The n low bytes of a bus data word, lowest address first (R84). -/
def leBytes (v : Word) (n : Nat) : List Byte := (List.range n).map fun k => v.extractLsb' (8 * k) 8

/-- The bus data word of a byte sequence, lowest address in bits 7:0 (R84). -/
def leWord (b : List Byte) : Word := BitVec.ofNat 32 (b.foldr (fun c a => c.toNat + 256 * a) 0)

end Sys2Proof.Machine
end

