-- ==== Sys2Proof/Machine/Ops.lean ====
section
/-! DEFINITION. The named operations over memory and registers: sparse memory, buffers, bitstreams, FREQ, the completion of a command, and the two resets (spec/00_scope.md R11; 10_state.md R40 to R48; 20_memory.md R89; 60_exceptions.md R277 to R279; 70_reset_and_hazards.md R301, R302). -/

namespace Sys2Proof.Machine

/-! ### Sparse memory in canonical form -/

/-- The canonical form: keys strictly rising. A key that is not listed has no specified value. -/
abbrev Memory.wf {α : Type} (m : List (Nat × α)) : Prop := m.Pairwise fun a b => a.1 < b.1

/-- What is listed at a key; `none` for an unlisted one. -/
def Memory.lookup {α : Type} : List (Nat × α) → Nat → Option α
  | [], _ => none
  | (a, v) :: m, k => if a = k then some v else Memory.lookup m k

/-- Write one entry, keeping the keys rising. -/
def Memory.put {α : Type} (k : Nat) (v : α) : List (Nat × α) → List (Nat × α)
  | [] => [(k, v)]
  | (a, w) :: m =>
    if k < a then (k, v) :: (a, w) :: m
    else if k = a then (k, v) :: m
    else (a, w) :: Memory.put k v m

/-- Remove the entry of a key. -/
def Memory.erase {α : Type} (k : Nat) : List (Nat × α) → List (Nat × α)
  | [] => []
  | (a, w) :: m => if a = k then Memory.erase k m else (a, w) :: Memory.erase k m

/-- The entries of a sequence at the indices `k`, `k + 1`, ... -/
def Memory.ofSeq {α : Type} (k : Nat) : List α → List (Nat × α)
  | [] => []
  | v :: x => (k, v) :: Memory.ofSeq (k + 1) x

/-- Write a sequence at the indices `k`, `k + 1`, ... -/
def Memory.putSeq {α : Type} (k : Nat) : List α → List (Nat × α) → List (Nat × α)
  | [], m => m
  | v :: x, m => Memory.putSeq (k + 1) x (Memory.put k v m)

/-! ### Byte buffers (R40, R11, R89) -/

def State.bufAt (s : State) (i : Fin 4) : Buffer := s.bufs.get i

def State.setBufAt (s : State) (i : Fin 4) (b : Buffer) : State := { s with bufs := s.bufs.set i b }

/-- LEN[i] (R41). -/
def State.len (s : State) (i : Fin 4) : Word := (s.bufAt i).len

/-- BUFMEM_i[j], for any j. An unlisted byte is UNSPECIFIED: it reads as a free value (log 2). -/
def State.byteAt (s : State) (i : Fin 4) (j : Nat) : Byte :=
  (Memory.lookup (s.bufAt i).cells j).getD (Config.freeByte (s.bufAt i).draw i j)

/-- The bytes BUFMEM_i[j .. j+n). -/
def State.bytesAt (s : State) (i : Fin 4) (j n : Nat) : List Byte :=
  (List.range n).map fun k => s.byteAt i (j + k)

/-- Buf(i) = BUFMEM_i[0 .. LEN[i]) (R11, R40). -/
def State.buf (s : State) (i : Fin 4) : List Byte := s.bytesAt i 0 (s.len i).toNat

/-- SetBuf(i, x) (R11): the bytes below |x| are x, those above become UNSPECIFIED, a fresh draw. -/
def State.setBuf (s : State) (i : Fin 4) (x : List Byte) : State :=
  { s.setBufAt i ⟨BitVec.ofNat 32 x.length, Memory.ofSeq 0 x, s.draws⟩ with draws := s.draws + 1 }

/-- The append of BS_WRITE and REC_WRITE (R89): the bytes below the old LEN are kept, y follows them, and the bytes
above the new LEN become UNSPECIFIED. -/
def State.appendBuf (s : State) (i : Fin 4) (y : List Byte) : State := s.setBuf i (s.buf i ++ y)

/-- What a failed command may leave in its destination buffer (R279, U1): LEN and the bytes below it are kept, the
bytes at LEN and above become UNSPECIFIED (log 4). -/
def State.scratch (s : State) (i : Fin 4) : State :=
  { s.setBufAt i ⟨s.len i, Memory.ofSeq 0 (s.buf i), s.draws⟩ with draws := s.draws + 1 }

/-- A host write of bytes to the window (R82, R84): BUFMEM_i changes, LEN[i] does not. -/
def State.pokeBytes (s : State) (i : Fin 4) (j : Nat) (x : List Byte) : State :=
  s.setBufAt i { s.bufAt i with cells := Memory.putSeq j x (s.bufAt i).cells }

/-- A host write to LEN[i] (R41): ignored above BUF_BYTES. -/
def State.writeLen (s : State) (i : Fin 4) (v : Word) : State :=
  if v.toNat ≤ s.bufBytes.toNat then s.setBufAt i { s.bufAt i with len := v } else s

/-! ### Bitstreams (R45, R11) -/

def State.streamAt (s : State) (k : Fin 4) : Bitstream := s.streams.get k

/-- Seq(k) (R11, R45). -/
def State.seq (s : State) (k : Fin 4) : List Bool := (s.streamAt k).bits

/-- START[k] as a number. -/
def State.startPos (s : State) (k : Fin 4) : Nat := (s.streamAt k).start.toNat

/-- END[k] as a number: END − START is the number of bits (R45, log 6). -/
def State.endPos (s : State) (k : Fin 4) : Nat := s.startPos k + (s.seq k).length

/-- Sk becomes the bits `x` from position `start` on. -/
def State.putSeq (s : State) (k : Fin 4) (start : Word) (x : List Bool) : State :=
  { s with streams := s.streams.set k ⟨start, x⟩ }

/-- SetSeq(k, x) (R11): START <- 0, END <- |x|. -/
def State.setSeq (s : State) (k : Fin 4) (x : List Bool) : State := s.putSeq k 0 x

/-- The append of BS_APPEND and BS_CAT: START stays, the bits follow at END (R141, R142). -/
def State.appendSeq (s : State) (k : Fin 4) (y : List Bool) : State :=
  s.putSeq k (s.streamAt k).start (s.seq k ++ y)

/-! ### The frequency table (R48) -/

/-- The byte values 0 to 255 in ascending order. -/
def allBytes : List Byte := (List.range 256).map (BitVec.ofNat 8)

/-- FREQ[v]; an unlisted count is 0. -/
def State.freq (s : State) (v : Byte) : Word := (Memory.lookup s.freqs v.toNat).getD 0

/-- The canonical list of a table of counts: the nonzero ones, by symbol. -/
def freqTable (F : Byte → Word) : List (Nat × Word) :=
  (allBytes.filter fun v => F v != 0).map fun v => (v.toNat, F v)

/-- FREQ[v] <- F(v) for every v; HUF_VALID <- 0 (R48). -/
def State.setFreqs (s : State) (F : Byte → Word) : State :=
  { s with freqs := freqTable F, hufValid := false }

/-- A host write to FREQ[v]; HUF_VALID <- 0 even when the value is the old one (R48). -/
def State.writeFreq (s : State) (v : Byte) (f : Word) : State :=
  { s with
    freqs := if f = 0 then Memory.erase v.toNat s.freqs else Memory.put v.toNat f s.freqs
    hufValid := false }

/-! ### Completion (R277, R278, R279) -/

/-- The completion of a command whose word has the low byte `op`: the one operation by which a command ends, with
code OK (`none`) or an error. -/
def State.complete (s : State) (op : Byte) (code : Option CmdError) (eof : Bool) (res : Word) : State :=
  { s with
    latch := none
    err := code.isSome
    eof := code.isNone && eof
    errOp := op
    errCode := code
    result := if code.isNone then res else 0
    irqPend := true }

/-- What a command that raises nothing does: its writes made, the values for RESULT and STATUS.EOF. -/
structure Effect where
  state  : State
  result : Word
  eof    : Bool

/-- `if bad : raise CmdError(c)` (R278). -/
def refuseIf (bad : Bool) (c : CmdError) : Except CmdError Unit := if bad then .error c else .ok ()

/-- The end of a command's rule that raised nothing and did not find a clean end of input. -/
def ok (t : State) (res : Nat) : Except CmdError Effect := .ok ⟨t, BitVec.ofNat 32 res, false⟩

/-- The two phases of R12 and the completion of R277: on success the writes are made; on an error none is, and
`failed` is the state before the command, with the destination's bytes above LEN possibly used as scratch. -/
def finish (op : Byte) (failed : State) : Except CmdError Effect → State
  | .ok e => e.state.complete op none e.eof e.result
  | .error c => failed.complete op (some c) false 0

/-! ### Reset (R301, R302) -/

/-- Hardware reset: every piece of state takes its reset value; the buffer bytes are a fresh free draw. The
parameters are no state, and the host's plans are outside HRC. -/
def State.hardReset (s : State) : State :=
  { State.resetWith s.bufBytes s.bsCapBits s.draws with inputs := s.inputs }

/-- Soft reset: as hardware reset. An implementation keeps the buffer bytes, but the spec does not promise it, so
they are a fresh free draw here too (R302, U3). -/
def State.softReset (s : State) : State :=
  { State.resetWith s.bufBytes s.bsCapBits s.draws with inputs := s.inputs }

end Sys2Proof.Machine
end

