-- ==== Sys2Proof/Machine/Operands.lean ====
section
/-! DEFINITION. The operand forms of the commands: an index field names a buffer or a bitstream, or the command is refused with ERR_OPERAND (spec/30_encoding.md R111 to R113). -/

namespace Sys2Proof.Machine

/-- The buffer or bitstream a field names, if it is 0 to 3 (R113). -/
def index? (x : OpIdx) : Option (Fin 4) := if h : x.toNat < 4 then some ⟨x.toNat, h⟩ else none

/-- The field that names a buffer or a bitstream (R113). -/
def idx (k : Fin 4) : OpIdx := BitVec.ofNat 4 k.val

/-- The refusal of an index above 3 in a command that names no destination buffer: ERR_OPERAND, and nothing else
changes (R111, R113, R279). -/
def badOperand (op : Byte) (s : State) : State := s.complete op (some .operand) false 0

/-- A command with no operand. -/
def runNone (op : Byte) (s : State) (body : Except CmdError Effect) : State := finish op s body

/-- A command with one operand, which is no destination buffer. -/
def runOne (op : Byte) (x : OpIdx) (s : State) (body : Fin 4 → Except CmdError Effect) : State :=
  match index? x with
  | some k => finish op s (body k)
  | none => badOperand op s

/-- A command with two operands whose destination is a bitstream. -/
def runTwo (op : Byte) (rd rs : OpIdx) (s : State) (body : Fin 4 → Fin 4 → Except CmdError Effect) : State :=
  match index? rd, index? rs with
  | some d, some r => finish op s (body d r)
  | _, _ => badOperand op s

/-- A command with two operands whose destination is a buffer. On every error once RD names a buffer, ERR_OPERAND for
RS among them, that buffer's bytes at LEN and above may have been used as scratch (R279, U1, log 4). -/
def runToBuf (op : Byte) (rd rs : OpIdx) (s : State) (body : Fin 4 → Fin 4 → Except CmdError Effect) : State :=
  match index? rd with
  | some d =>
    finish op (s.scratch d) (match index? rs with
      | some r => body d r
      | none => .error .operand)
  | none => badOperand op s

end Sys2Proof.Machine
end

