-- ==== Sys2Proof/Machine/Huffman.lean ====
section
/-! DEFINITION. The Huffman tree, its codes, and the Huffman commands (spec/44_huffman.md R215 to R224; 10_state.md R43, R49 to R51). -/

namespace Sys2Proof.Machine

def HuffTree.weight : HuffTree → Nat
  | .leaf _ w => w
  | .node _ _ w => w

/-- The number of leaves (R43). -/
def HuffTree.leaves : HuffTree → Nat
  | .leaf _ _ => 1
  | .node l r _ => l.leaves + r.leaves

/-- A new internal node over a (left) and b (right), its weight their sum (R219). -/
def HuffTree.join (a b : HuffTree) : HuffTree := .node a b (a.weight + b.weight)

/-- The leaves of the symbols with a nonzero count, by symbol (R219). -/
def freqLeaves (F : Byte → Word) : List HuffTree :=
  (allBytes.filter fun v => F v != 0).map fun v => .leaf v (F v).toNat

/-- The initial list: stably sorted by weight, equal weights by symbol (R219). -/
def sortedLeaves (F : Byte → Word) : List HuffTree :=
  (freqLeaves F).insertionSort fun a b => a.weight ≤ b.weight

/-- Insert a new node after every node of equal weight (R219). -/
def insertNode (m : HuffTree) : List HuffTree → List HuffTree
  | [] => [m]
  | t :: L => if t.weight > m.weight then m :: t :: L else t :: insertNode m L

/-- The loop of R219. Each round takes one tree off the list, so `fuel` = |L| is enough. -/
def mergeTrees : Nat → List HuffTree → Option HuffTree
  | _, [] => none
  | _, [t] => some t
  | 0, _ :: _ :: _ => none
  | fuel + 1, a :: b :: L => mergeTrees fuel (insertNode (a.join b) L)

/-- Build(F) (R219); no tree when every count is 0. -/
def buildTree (F : Byte → Word) : Option HuffTree := mergeTrees (sortedLeaves F).length (sortedLeaves F)

/-- The edges from the root to the leaf of a symbol, 0 left and 1 right (R220). -/
def HuffTree.path (v : Byte) : HuffTree → Option (List Bool)
  | .leaf u _ => if u = v then some [] else none
  | .node l r _ =>
    match l.path v with
    | some p => some (false :: p)
    | none => (r.path v).map (true :: ·)

/-- code(v) (R220): the path, and [0] for the leaf of a single-leaf tree. -/
def HuffTree.code (t : HuffTree) (v : Byte) : Option (List Bool) :=
  match t with
  | .leaf u _ => if u = v then some [false] else none
  | .node _ _ _ => t.path v

/-- TREE where it has meaning: while HUF_VALID = 1 (R49). -/
def State.validTree (s : State) : Option HuffTree := if s.hufValid then s.tree else none

/-- code(v) of the code table CODE, `none` where there is no tree or no code (R221). -/
def State.codeOf (s : State) (v : Byte) : Option (List Bool) := s.validTree.bind fun t => t.code v

/-- NSYM (R43). -/
def State.nsymWord (s : State) : Word := BitVec.ofNat 32 ((s.validTree.map HuffTree.leaves).getD 0)

/-- CODE_LEN[v] (R50). -/
def State.codeLenWord (s : State) (v : Byte) : Word := BitVec.ofNat 32 (((s.codeOf v).map List.length).getD 0)

/-- The word whose bit b is `f b`. -/
def wordOfBits (f : Nat → Bool) : Word :=
  BitVec.ofNat 32 ((List.range 32).foldr (fun b a => (f b).toNat + 2 * a) 0)

/-- CODE_BITS[v][w] (R51): bit j of the code word is bit (j mod 32) of word (j div 32); every other bit is 0. -/
def State.codeBitsWord (s : State) (v : Byte) (w : Nat) : Word :=
  wordOfBits fun b => ((s.codeOf v).getD []).getD (32 * w + b) false

/-- The codes of a byte sequence in order, one after the other; `none` if a byte has no code (R222). -/
def encodeBytes (t : HuffTree) : List Byte → Option (List Bool)
  | [] => some []
  | c :: x =>
    match t.code c, encodeBytes t x with
    | some p, some y => some (p ++ y)
    | _, _ => none

/-- The walk of R224 in a single-leaf tree: a 1 bit is ERR_BAD_CODE. -/
def walkLeaf (v : Byte) : List Bool → Except CmdError (List Byte)
  | [] => .ok []
  | true :: _ => .error .badCode
  | false :: y => do
    let x ← walkLeaf v y
    return v :: x

/-- The walk of R224 from the node n, in a tree with root `root`: a leaf is output and the walk restarts at the
root; the bits must not end inside a path. -/
def walkNode (root : HuffTree) : HuffTree → List Bool → Except CmdError (List Byte)
  | n, [] => if n = root then .ok [] else .error .badCode
  | .leaf _ _, _ :: _ => .error .badCode
  | .node l r _, b :: y =>
    match (if b then r else l) with
    | .leaf v _ => do
      let x ← walkNode root root y
      return v :: x
    | .node l' r' w' => walkNode root (.node l' r' w') y

/-- walk(T, y) (R224). -/
def walk (t : HuffTree) (y : List Bool) : Except CmdError (List Byte) :=
  match t with
  | .leaf v _ => walkLeaf v y
  | .node l r w => walkNode (.node l r w) (.node l r w) y

/-- TREE, or ERR_NOT_READY (R222, R223). -/
def State.needTree (s : State) : Except CmdError HuffTree :=
  match s.validTree with
  | some t => .ok t
  | none => .error .notReady

/-- HUF_COUNT Bs (R216). -/
def execHufCount (rs : OpIdx) (s : State) : Host.Outcome State Fault Refusal :=
  .next (runOne Opcode.hufCount rs s fun r =>
    let x := s.buf r
    ok (s.setFreqs fun v => BitVec.ofNat 32 (x.countP fun c => c == v)) x.length)

/-- HUF_BUILD (R218). -/
def execHufBuild (s : State) : Host.Outcome State Fault Refusal :=
  .next (runNone Opcode.hufBuild s
    (match buildTree s.freq with
    | none => .error .precond
    | some t => ok { s with tree := some t, hufValid := true } t.leaves))

/-- HUF_ENC Sd, Bs (R222). -/
def execHufEnc (rd rs : OpIdx) (s : State) : Host.Outcome State Fault Refusal :=
  .next (runTwo Opcode.hufEnc rd rs s fun d r => do
    let t ← s.needTree
    match encodeBytes t (s.buf r) with
    | none => .error .noCode
    | some y => do
      refuseIf (y.length > s.bsCapBits.toNat) .bsFull
      ok (s.setSeq d y) y.length)

/-- HUF_DEC Bd, Ss (R223). -/
def execHufDec (rd rs : OpIdx) (s : State) : Host.Outcome State Fault Refusal :=
  .next (runToBuf Opcode.hufDec rd rs s fun d r => do
    let t ← s.needTree
    let x ← walk t (s.seq r)
    refuseIf (x.length > s.bufBytes.toNat) .bufFull
    ok (s.setBuf d x) x.length)

end Sys2Proof.Machine
end

