-- ==== Sys2Proof/Machine/Bus.lean ====
section
/-! DEFINITION. The host bus: the address map, the registers, and the two access primitives (spec/10_state.md R31 to R51; 20_memory.md R80 to R90, R96). -/

namespace Sys2Proof.Machine

/-- The registers of R31. -/
inductive Reg
  | id | version | paramBuf | paramBs | cmd | status | errcode | result | arg | primary | rpos | nsym | ctrl | irq
  | len (i : Fin 4)
  | bsStart (k : Fin 4)
  | bsEnd (k : Fin 4)
  | freq (v : Byte)
  | codeLen (v : Byte)
  | codeBits (v : Byte) (w : Nat)
  | reserved
  deriving DecidableEq, Repr

/-- The banked registers of R31, and the reserved offsets: LEN at 0x040 + 4i, BS_START at 0x060 + 8k, BS_END at
0x064 + 8k, FREQ at 0x400 + 4v, CODE_LEN at 0x800 + 4v, CODE_BITS at 0x2000 + 32v + 4w. -/
def bankAt (a : Nat) : Reg :=
  if 0x040 ≤ a ∧ a < 0x050 then .len (Fin.ofNat 4 ((a - 0x040) / 4))
  else if 0x060 ≤ a ∧ a < 0x080 then
    if a % 8 = 0 then .bsStart (Fin.ofNat 4 ((a - 0x060) / 8)) else .bsEnd (Fin.ofNat 4 ((a - 0x060) / 8))
  else if 0x400 ≤ a ∧ a < 0x800 then .freq (BitVec.ofNat 8 ((a - 0x400) / 4))
  else if 0x800 ≤ a ∧ a < 0xC00 then .codeLen (BitVec.ofNat 8 ((a - 0x800) / 4))
  else if 0x2000 ≤ a ∧ a < 0x4000 then .codeBits (BitVec.ofNat 8 ((a - 0x2000) / 32)) ((a - 0x2000) / 4 % 8)
  else .reserved

/-- The register at an offset that is a multiple of 4 below 0x4000 (R31). -/
def regAt (a : Nat) : Reg :=
  if a = 0x000 then .id
  else if a = 0x004 then .version
  else if a = 0x008 then .paramBuf
  else if a = 0x00C then .paramBs
  else if a = 0x010 then .cmd
  else if a = 0x014 then .status
  else if a = 0x018 then .errcode
  else if a = 0x01C then .result
  else if a = 0x020 then .arg
  else if a = 0x024 then .primary
  else if a = 0x028 then .rpos
  else if a = 0x02C then .nsym
  else if a = 0x030 then .ctrl
  else if a = 0x034 then .irq
  else bankAt a

/-- The ALWAYS set: the registers accessible while BUSY = 1 (R90). -/
def Reg.always : Reg → Bool
  | .id | .version | .paramBuf | .paramBs | .status | .errcode | .ctrl | .irq => true
  | .cmd | .result | .arg | .primary | .rpos | .nsym | .len _ | .bsStart _ | .bsEnd _ | .freq _ | .codeLen _
  | .codeBits _ _ | .reserved => false

/-- What a legal access reaches: a register, or the byte at index j of buffer window i (R81, R82). -/
inductive Target
  | reg (r : Reg)
  | window (i : Fin 4) (j : Nat)
  deriving DecidableEq, Repr

def Target.always : Target → Bool
  | .reg r => r.always
  | .window _ _ => false

/-- legal(addr, n) of R85 and what it reaches: the address map of R81, the widths and the alignment of R83. Every
byte of a window access must lie below BUF_BYTES (log 10). `none` is a bus error. -/
def State.target? (s : State) (addr : Addr) (n : Nat) : Option Target :=
  let a := addr.toNat
  if a < 0x4000 then
    if n = 4 ∧ a % 4 = 0 then some (.reg (regAt a)) else none
  else if 0x01000000 ≤ a ∧ a < 0x05000000 then
    if (n = 1 ∨ n = 2 ∨ n = 4) ∧ a % n = 0 ∧ a % 0x01000000 + n ≤ s.bufBytes.toNat then
      some (.window (Fin.ofNat 4 (a / 0x01000000 - 1)) (a % 0x01000000))
    else none
  else none

/-- The value a register reads as while it is accessible (R31 to R51). -/
def State.readReg (s : State) : Reg → Word
  | .id => Config.idValue
  | .version => Config.versionValue
  | .paramBuf => s.bufBytes
  | .paramBs => s.bsCapBits
  | .cmd => 0
  | .status => s.statusWord
  | .errcode => s.errcodeWord
  | .result => s.result
  | .arg => s.arg
  | .primary => s.primary
  | .rpos => s.rpos
  | .nsym => s.nsymWord
  | .ctrl => s.ctrlWord
  | .irq => s.irqWord
  | .len i => s.len i
  | .bsStart k => (s.streamAt k).start
  | .bsEnd k => BitVec.ofNat 32 (s.endPos k)
  | .freq v => s.freq v
  | .codeLen v => s.codeLenWord v
  | .codeBits v w => s.codeBitsWord v w
  | .reserved => 0

/-- A write to CMD while BUSY = 0: the word is latched, BUSY set, ERR and EOF cleared (R34). -/
def State.issue (s : State) (w : Word) : State := { s with latch := some w, err := false, eof := false }

/-- A write to CTRL: SOFT_RESET wins over the rest of the word, else IRQ_EN takes bit 0 (R44, R302). -/
def State.writeCtrl (s : State) (v : Word) : State :=
  if v.getLsbD 1 then s.softReset else { s with irqEn := v.getLsbD 0 }

/-- The write effect of a register while it is accessible (R31 to R51, R96). -/
def State.writeReg (s : State) (r : Reg) (v : Word) : State :=
  match r with
  | .cmd => s.issue v
  | .status => s.writeStatus v
  | .arg => { s with arg := v }
  | .primary => { s with primary := v }
  | .rpos => { s with rpos := v }
  | .ctrl => s.writeCtrl v
  | .irq => s.writeIrq v
  | .len i => s.writeLen i v
  | .freq u => s.writeFreq u v
  | .id | .version | .paramBuf | .paramBs | .errcode | .result | .nsym | .bsStart _ | .bsEnd _ | .codeLen _
  | .codeBits _ _ | .reserved => s

/-- The data of an accessible read (R84). -/
def State.readTarget (s : State) (n : Nat) : Target → Word
  | .reg r => s.readReg r
  | .window i j => leWord (s.bytesAt i j n)

/-- The effect of an accessible write (R84). -/
def State.writeTarget (s : State) (n : Nat) (v : Word) : Target → State
  | .reg r => s.writeReg r v
  | .window i j => s.pokeBytes i j (leBytes v n)

/-- Blocked while busy: BUSY = 1 and the access is outside the ALWAYS set (R90). -/
def State.blocks (s : State) (t : Target) : Bool := s.busy && !t.always

/-- MemRead(addr, n) (R85): the new state and the response. -/
def State.memRead (s : State) (addr : Addr) (n : Nat) : State × BusResp :=
  match s.target? addr n with
  | none => (s, .busErr)
  | some t => if s.blocks t then ({ s with overrun := true }, .data 0) else (s, .data (s.readTarget n t))

/-- MemWrite(addr, n, v) (R85): the new state and the response. -/
def State.memWrite (s : State) (addr : Addr) (n : Nat) (v : Word) : State × BusResp :=
  match s.target? addr n with
  | none => (s, .busErr)
  | some t => if s.blocks t then ({ s with overrun := true }, .done) else (s.writeTarget n v t, .done)

/-- The state after a host access, with its response recorded (log 16). -/
def respond (r : State × BusResp) : State := { r.1 with busResp := some r.2 }

end Sys2Proof.Machine
end

