-- ==== Sys2Proof/Machine/Bitstream.lean ====
section
/-! DEFINITION. The Bitstream commands (spec/40_bitstream.md R140 to R149). -/

namespace Sys2Proof.Machine

/-- BS_CLEAR Sd (R140). -/
def execBsClear (rd : OpIdx) (s : State) : Host.Outcome State Fault Refusal :=
  .next (runOne Opcode.bsClear rd s fun d => ok (s.setSeq d []) 0)

/-- BS_APPEND Sd, bit (R141). -/
def execBsAppend (rd : OpIdx) (imm : Bool) (s : State) : Host.Outcome State Fault Refusal :=
  .next (runOne Opcode.bsAppend rd s fun d => do
    refuseIf (s.endPos d == s.bsCapBits.toNat) .bsFull
    ok (s.appendSeq d [imm]) ((s.seq d).length + 1))

/-- BS_CAT Sd, Ss (R142). -/
def execBsCat (rd rs : OpIdx) (s : State) : Host.Outcome State Fault Refusal :=
  .next (runTwo Opcode.bsCat rd rs s fun d r => do
    let v := s.seq r
    refuseIf (s.endPos d + v.length > s.bsCapBits.toNat) .bsFull
    ok (s.appendSeq d v) ((s.seq d).length + v.length))

/-- The RESULT of an operation that returns a bit or "no value" (R143, R37). -/
def bitResult : Option Bool → Word
  | some b => BitVec.ofNat 32 b.toNat
  | none => Config.noneValue

/-- BS_POP Sd (R143): the last bit leaves, START stays. -/
def execBsPop (rd : OpIdx) (s : State) : Host.Outcome State Fault Refusal :=
  .next (runOne Opcode.bsPop rd s fun d =>
    .ok ⟨s.putSeq d (s.streamAt d).start (s.seq d).dropLast, bitResult (s.seq d).getLast?, false⟩)

/-- BS_POPS Sd (R144): the first bit leaves, START moves up by one; an empty stream is unchanged. -/
def execBsPops (rd : OpIdx) (s : State) : Host.Outcome State Fault Refusal :=
  .next (runOne Opcode.bsPops rd s fun d =>
    match s.seq d with
    | [] => .ok ⟨s, bitResult none, false⟩
    | b :: x => .ok ⟨s.putSeq d ((s.streamAt d).start + 1) x, bitResult (some b), false⟩)

/-- BS_REV Sd, Ss (R145). -/
def execBsRev (rd rs : OpIdx) (s : State) : Host.Outcome State Fault Refusal :=
  .next (runTwo Opcode.bsRev rd rs s fun d r => ok (s.setSeq d (s.seq r).reverse) (s.seq r).length)

/-- BS_GET Ss (R146): the index is ARG. -/
def execBsGet (rs : OpIdx) (s : State) : Host.Outcome State Fault Refusal :=
  .next (runOne Opcode.bsGet rs s fun r => .ok ⟨s, bitResult (s.seq r)[s.arg.toNat]?, false⟩)

/-- BS_WRITE Bd, Ss (R148). -/
def execBsWrite (rd rs : OpIdx) (s : State) : Host.Outcome State Fault Refusal :=
  .next (runToBuf Opcode.bsWrite rd rs s fun d r => do
    let y := ser (s.seq r)
    refuseIf ((s.len d).toNat + y.length > s.bufBytes.toNat) .bufFull
    ok (s.appendBuf d y) y.length)

/-- read(source) of R149: the bit sequence and the number of bytes consumed, from the bytes `m` that remain. -/
def readStream (cap : Nat) (m : List Byte) : Except CmdError (List Bool × Nat) := do
  let (h, m) ← takeBytes 4 m
  let n := fromBe h
  refuseIf (n > cap) .malformed
  let (p, _) ← takeBytes (ceil8 n) m
  return (unpack p n, 4 + ceil8 n)

/-- BS_READ Sd, Bs (R149). -/
def execBsRead (rd rs : OpIdx) (s : State) : Host.Outcome State Fault Refusal :=
  .next (runTwo Opcode.bsRead rd rs s fun d r => do
    let p := s.rpos.toNat
    refuseIf (p > (s.len r).toNat) .operand
    if p = (s.len r).toNat then .ok ⟨s, 0, true⟩
    else do
      let (x, used) ← readStream s.bsCapBits.toNat ((s.buf r).drop p)
      ok { s.setSeq d x with rpos := BitVec.ofNat 32 (p + used) } used)

end Sys2Proof.Machine
end

