-- ==== Sys2Proof/Machine/Bwt.lean ====
section
/-! DEFINITION. The Burrows-Wheeler commands (spec/41_bwt.md R170 to R175). -/

namespace Sys2Proof.Machine

/-- Rotation i of a block (R170). -/
def rot (x : List Byte) (i : Nat) : List Byte := x.drop i ++ x.take i

/-- The order of two rotations (R170): lexicographic on unsigned bytes, equal rotations by start offset. -/
def rotLe (x : List Byte) (i j : Nat) : Bool :=
  decide (rot x i < rot x j) || (rot x i == rot x j && decide (i ≤ j))

/-- σ of R170: the offsets 0 to n−1 sorted by the key (rot(x, i), i). -/
def rotOrder (x : List Byte) : List Nat :=
  (List.range x.length).insertionSort fun i j => rotLe x i j = true

/-- The primary index: the position q with σ[q] = 0 (R171). -/
def bwtPrimary (x : List Byte) : Nat := (rotOrder x).idxOf 0

/-- The transformed bytes: t[j] = x[(σ[j] + n − 1) mod n] (R171). -/
def bwtBytes (x : List Byte) : List Byte :=
  (rotOrder x).map fun i => x.getD ((i + x.length - 1) % x.length) 0

/-- rank[i] of R174: how often the symbol t[i] occurs below position i. -/
def bwtRank (t : List Byte) (i : Nat) : Nat := (t.take i).countP fun c => c == t.getD i 0

/-- nlt[v] of R174: how many positions hold a symbol less than v. -/
def bwtNlt (t : List Byte) (v : Byte) : Nat := t.countP fun c => decide (c < v)

/-- The next index of the reconstruction (R174). -/
def bwtNext (t : List Byte) (idx : Nat) : Nat := bwtRank t idx + bwtNlt t (t.getD idx 0)

/-- The reconstruction of R174, right to left: k symbols still to place in front of `out`. -/
def bwtUnwind (t : List Byte) : Nat → Nat → List Byte → List Byte
  | 0, _, out => out
  | k + 1, idx, out => bwtUnwind t k (bwtNext t idx) (t.getD idx 0 :: out)

/-- The inverse transform of (p, t) (R174). -/
def bwtInverse (t : List Byte) (p : Nat) : List Byte := bwtUnwind t t.length p []

/-- BWT_FWD Bd, Bs (R172). -/
def execBwtFwd (rd rs : OpIdx) (s : State) : Host.Outcome State Fault Refusal :=
  .next (runToBuf Opcode.bwtFwd rd rs s fun d r => do
    let x := s.buf r
    refuseIf x.isEmpty .precond
    let q := bwtPrimary x
    ok { s.setBuf d (bwtBytes x) with primary := BitVec.ofNat 32 q } q)

/-- BWT_INV Bd, Bs (R175). -/
def execBwtInv (rd rs : OpIdx) (s : State) : Host.Outcome State Fault Refusal :=
  .next (runToBuf Opcode.bwtInv rd rs s fun d r => do
    let t := s.buf r
    refuseIf t.isEmpty .precond
    refuseIf (s.primary.toNat ≥ t.length) .malformed
    ok (s.setBuf d (bwtInverse t s.primary.toNat)) t.length)

end Sys2Proof.Machine
end

