-- ==== Sys2Proof/Machine/Control.lean ====
section
/-! DEFINITION. The control command (spec/46_control.md R265). -/

namespace Sys2Proof.Machine

/-- NOP (R265): it does nothing but complete. -/
def execNop (s : State) : Host.Outcome State Fault Refusal :=
  .next (runNone Opcode.nop s (ok s 0))

end Sys2Proof.Machine
end

