-- ==== Sys2Proof/Machine/Mtf.lean ====
section
/-! DEFINITION. The move-to-front commands (spec/42_mtf.md R190 to R192). -/

namespace Sys2Proof.Machine

/-- move_to_front(M, c): c leaves its position and stands first, the others keep their order (R190). -/
def moveToFront (M : List Byte) (c : Byte) : List Byte := c :: M.erase c

/-- encode of R191 from the list M. -/
def mtfEncodeFrom : List Byte → List Byte → List Byte
  | _, [] => []
  | M, c :: x => BitVec.ofNat 8 (M.idxOf c) :: mtfEncodeFrom (moveToFront M c) x

/-- decode of R192 from the list M. -/
def mtfDecodeFrom : List Byte → List Byte → List Byte
  | _, [] => []
  | M, r :: y => M.getD r.toNat 0 :: mtfDecodeFrom (moveToFront M (M.getD r.toNat 0)) y

/-- MTF encode, from M = [0, 1, ..., 255] (R190, R191). -/
def mtfEncode (x : List Byte) : List Byte := mtfEncodeFrom allBytes x

/-- MTF decode, from M = [0, 1, ..., 255] (R190, R192). -/
def mtfDecode (y : List Byte) : List Byte := mtfDecodeFrom allBytes y

/-- MTF_ENC Bd, Bs (R191). -/
def execMtfEnc (rd rs : OpIdx) (s : State) : Host.Outcome State Fault Refusal :=
  .next (runToBuf Opcode.mtfEnc rd rs s fun d r => ok (s.setBuf d (mtfEncode (s.buf r))) (s.buf r).length)

/-- MTF_DEC Bd, Bs (R192). -/
def execMtfDec (rd rs : OpIdx) (s : State) : Host.Outcome State Fault Refusal :=
  .next (runToBuf Opcode.mtfDec rd rs s fun d r => ok (s.setBuf d (mtfDecode (s.buf r))) (s.buf r).length)

end Sys2Proof.Machine
end

