-- ==== Sys2Proof/Machine/Record.lean ====
section
/-! DEFINITION. The record commands (spec/45_record.md R245 to R249). -/

namespace Sys2Proof.Machine

/-- The symbols with a nonzero frequency, ascending (R247). -/
def State.symbols (s : State) : List Byte := allBytes.filter fun v => s.freq v != 0

/-- One table entry: the symbol, then its frequency (R245). -/
def entryBytes (v : Byte) (f : Word) : List Byte := v :: be32 f

/-- The record of the current PRIMARY and FREQ with the payload x (R245, R247). -/
def State.record (s : State) (x : List Bool) : List Byte :=
  be32 s.primary ++ be16 (BitVec.ofNat 16 s.symbols.length) ++
    s.symbols.flatMap (fun v => entryBytes v (s.freq v)) ++ ser x

/-- REC_WRITE Bd, Ss (R247). -/
def execRecWrite (rd rs : OpIdx) (s : State) : Host.Outcome State Fault Refusal :=
  .next (runToBuf Opcode.recWrite rd rs s fun d r => do
    let y := s.record (s.seq r)
    refuseIf ((s.len d).toNat + y.length > s.bufBytes.toNat) .bufFull
    ok (s.appendBuf d y) y.length)

/-- The K table entries of R249: symbols strictly above `last`, frequencies not 0. The entries in order and the
bytes that follow them. -/
def parseTable : Nat → Int → List Byte → Except CmdError (List (Byte × Word) × List Byte)
  | 0, _, m => .ok ([], m)
  | k + 1, last, m => do
    let (e, m) ← takeBytes 5 m
    let v := e.getD 0 0
    let f := fromBe (e.drop 1)
    refuseIf ((v.toNat : Int) ≤ last || f == 0) .malformed
    let (es, m) ← parseTable k v.toNat m
    return ((v, BitVec.ofNat 32 f) :: es, m)

/-- F of R249: F[v] of a listed symbol, 0 of the others. -/
def entryFreq (es : List (Byte × Word)) (v : Byte) : Word := (es.lookup v).getD 0

/-- The fields of a record (R245), and how many bytes they take. -/
structure ParsedRecord where
  prim    : Word
  entries : List (Byte × Word)
  payload : List Bool
  used    : Nat

/-- parse of R249 on the bytes `m` that remain, at least one. -/
def parseRecord (cap : Nat) (m : List Byte) : Except CmdError ParsedRecord := do
  let (hp, m₁) ← takeBytes 4 m
  let (hk, m₂) ← takeBytes 2 m₁
  let K := fromBe hk
  refuseIf (K > 256) .malformed
  let (es, m₃) ← parseTable K (-1) m₂
  let (hn, m₄) ← takeBytes 4 m₃
  let n := fromBe hn
  refuseIf (n > cap) .malformed
  refuseIf (K == 0 && n != 0) .malformed
  let (data, m₅) ← takeBytes (ceil8 n) m₄
  return ⟨BitVec.ofNat 32 (fromBe hp), es, unpack data n, m.length - m₅.length⟩

/-- REC_READ Sd, Bs (R248). -/
def execRecRead (rd rs : OpIdx) (s : State) : Host.Outcome State Fault Refusal :=
  .next (runTwo Opcode.recRead rd rs s fun d r => do
    let p := s.rpos.toNat
    refuseIf (p > (s.len r).toNat) .operand
    if p = (s.len r).toNat then .ok ⟨s, 0, true⟩
    else do
      let rec' ← parseRecord s.bsCapBits.toNat ((s.buf r).drop p)
      ok { (s.setFreqs (entryFreq rec'.entries)).setSeq d rec'.payload with
          primary := rec'.prim
          rpos := BitVec.ofNat 32 (p + rec'.used) } rec'.used)

end Sys2Proof.Machine
end

