-- ==== Sys2Proof/Machine/Rle.lean ====
section
/-! DEFINITION. The run-length commands (spec/43_rle.md R200 to R204). -/

namespace Sys2Proof.Machine

/-- The maximal runs of equal bytes, in order, each with its length (R201). -/
def runs : List Byte → List (Byte × Nat)
  | [] => []
  | c :: x =>
    match runs x with
    | (d, L) :: rest => if c = d then (c, L + 1) :: rest else (c, 1) :: (d, L) :: rest
    | [] => [(c, 1)]

/-- The encoding of a run of L copies of c (R201). Each round takes at least one copy, so `fuel` = L is enough. -/
def rleRun (c : Byte) : Nat → Nat → List Byte
  | 0, _ => []
  | fuel + 1, L =>
    if L ≥ 4 then
      let k := min (L - 4) 255
      List.replicate 4 c ++ [BitVec.ofNat 8 k] ++ rleRun c fuel (L - 4 - k)
    else List.replicate L c

/-- rle(x) (R201). -/
def rle (x : List Byte) : List Byte := (runs x).flatMap fun (c, L) => rleRun c L L

/-- unrle of R204 on the bytes still to read: `prev` is the last literal and `run` how many equal ones stand before
(0 right after a count byte, and at the start). -/
def unrleFrom (prev : Byte) (run : Nat) : List Byte → Except CmdError (List Byte)
  | [] => .ok []
  | c :: y =>
    let run := if run > 0 ∧ c = prev then run + 1 else 1
    if run = 4 then
      match y with
      | [] => .error .malformed
      | k :: y => do
        let x ← unrleFrom c 0 y
        return c :: (List.replicate k.toNat c ++ x)
    else do
      let x ← unrleFrom c run y
      return c :: x

/-- unrle(y) (R204). -/
def unrle (y : List Byte) : Except CmdError (List Byte) := unrleFrom 0 0 y

/-- RLE_ENC Bd, Bs (R202). -/
def execRleEnc (rd rs : OpIdx) (s : State) : Host.Outcome State Fault Refusal :=
  .next (runToBuf Opcode.rleEnc rd rs s fun d r => do
    let y := rle (s.buf r)
    refuseIf (y.length > s.bufBytes.toNat) .bufFull
    ok (s.setBuf d y) y.length)

/-- RLE_DEC Bd, Bs (R203). -/
def execRleDec (rd rs : OpIdx) (s : State) : Host.Outcome State Fault Refusal :=
  .next (runToBuf Opcode.rleDec rd rs s fun d r => do
    let x ← unrle (s.buf r)
    refuseIf (x.length > s.bufBytes.toNat) .bufFull
    ok (s.setBuf d x) x.length)

end Sys2Proof.Machine
end

