-- ==== Sys2Proof/Machine/Dispatch.lean ====
section
/-! DEFINITION. The meaning of every command: one arm per row of the opcode table (spec/30_encoding.md R116). -/

namespace Sys2Proof.Machine

/-- The command's rule on its operands, and its completion (R277). -/
def exec (i : Instr) (s : State) : Host.Outcome State Fault Refusal :=
  match i with
  | .nop => Sys2Proof.Machine.execNop s
  | .bsClear rd => Sys2Proof.Machine.execBsClear rd s
  | .bsAppend rd imm => Sys2Proof.Machine.execBsAppend rd imm s
  | .bsCat rd rs => Sys2Proof.Machine.execBsCat rd rs s
  | .bsPop rd => Sys2Proof.Machine.execBsPop rd s
  | .bsPops rd => Sys2Proof.Machine.execBsPops rd s
  | .bsRev rd rs => Sys2Proof.Machine.execBsRev rd rs s
  | .bsGet rs => Sys2Proof.Machine.execBsGet rs s
  | .bsWrite rd rs => Sys2Proof.Machine.execBsWrite rd rs s
  | .bsRead rd rs => Sys2Proof.Machine.execBsRead rd rs s
  | .bwtFwd rd rs => Sys2Proof.Machine.execBwtFwd rd rs s
  | .bwtInv rd rs => Sys2Proof.Machine.execBwtInv rd rs s
  | .mtfEnc rd rs => Sys2Proof.Machine.execMtfEnc rd rs s
  | .mtfDec rd rs => Sys2Proof.Machine.execMtfDec rd rs s
  | .rleEnc rd rs => Sys2Proof.Machine.execRleEnc rd rs s
  | .rleDec rd rs => Sys2Proof.Machine.execRleDec rd rs s
  | .hufCount rs => Sys2Proof.Machine.execHufCount rs s
  | .hufBuild => Sys2Proof.Machine.execHufBuild s
  | .hufEnc rd rs => Sys2Proof.Machine.execHufEnc rd rs s
  | .hufDec rd rs => Sys2Proof.Machine.execHufDec rd rs s
  | .recWrite rd rs => Sys2Proof.Machine.execRecWrite rd rs s
  | .recRead rd rs => Sys2Proof.Machine.execRecRead rd rs s

end Sys2Proof.Machine
end

