-- ==== Sys2Proof/Machine/Engine.lean ====
section
/-! DEFINITION. The engine's step and the turns of the two agents (spec/10_state.md R30; 60_exceptions.md R277; 70_reset_and_hazards.md R301, R312). -/

namespace Sys2Proof.Machine

/-- The completion of a word that is no command: ERR_ILLEGAL, with OP the word's low byte (R111, R117, R277). -/
def illegalCommand (w : Word) (s : State) : State := s.complete (opField w) (some .illegal) false 0

/-- EngineStep() of R277: decode the latched word and run its rule. With no command in flight the engine is idle and
holds its state (R292). -/
def engineStep (s : State) : Host.Outcome State Fault Refusal :=
  match s.latch with
  | none => .next s
  | some w =>
    match decode w with
    | .ok i => exec i s
    | .error _ => .next (illegalCommand w s)

/-- One turn of HRC: the first of `inputs`, or the engine's turn when there is none (log 7). -/
def takeTurn (s : State) : Host.Outcome State Fault Refusal :=
  match s.inputs with
  | [] => engineStep s
  | .engine :: rest => engineStep { s with inputs := rest }
  | .read addr n :: rest => .next (respond (State.memRead { s with inputs := rest } addr n))
  | .write addr n v :: rest => .next (respond (State.memWrite { s with inputs := rest } addr n v))
  | .reset :: rest => .next (State.hardReset { s with inputs := rest })

/-- A command word placed where the engine takes its next command, as an accepted CMD write leaves it (R34), with
nothing of the host's before the engine's turn. -/
def placeCommand (s : State) (w : Word) : State := { s.issue w with inputs := [] }

end Sys2Proof.Machine
end

