-- ==== Sys2Proof/Machine/Step.lean ====
section
/-! DEFINITION. One step of HRC, and how a command word is placed for the next step (spec/10_state.md R30, R34). -/

namespace Sys2Proof.Machine

/-- One step: a host access, a reset or the engine's step, each atomic (R30, R91). -/
def step (s : State) : Host.Outcome State Fault Refusal := Sys2Proof.Machine.takeTurn s

/-- `s` with the table's word in CMDLATCH, so that the very next step is the engine's step for it. HRC fetches
nothing (R94); its commands come by CMD writes (log 8). The table numbers a row's bits as the command word does. -/
def State.withFetchWord (s : State) (nbits w : Nat) : State :=
  Sys2Proof.Machine.placeCommand s (BitVec.ofNat 32 (w % 2 ^ nbits))

end Sys2Proof.Machine
end

