-- ==== Sys2Proof/Safety.lean ====
section
/-! DEFINITION. What a legal state of HRC is, what a completion leaves, and what a command keeps, in the terms the statements use (spec/10_state.md R40, R45, R48, R53; 00_scope.md R6; 60_exceptions.md R277, R279). -/

namespace Sys2Proof.Machine

/-- Buffer Bi is within its capacity (R40) and its memory is in canonical form: the listed bytes are in rising order
and inside BUFMEM_i, and its unspecified bytes belong to a draw already made. -/
structure BufferOk (s : State) (i : Fin 4) : Prop where
  len_le   : (s.len i).toNat ≤ s.bufBytes.toNat
  cells_wf : Memory.wf (s.bufAt i).cells
  cells_in : ∀ c ∈ (s.bufAt i).cells, c.1 < s.bufBytes.toNat
  draw_lt  : (s.bufAt i).draw < s.draws

/-- The legal states: the invariant that every step keeps. -/
structure State.Inv (s : State) : Prop where
  /-- the parameters are legal (R6) -/
  params   : Config.legalParams s.bufBytes s.bsCapBits = true
  /-- 0 <= LEN[i] <= BUF_BYTES (R40), and the buffers' memories are canonical -/
  buffers  : ∀ i, BufferOk s i
  /-- START[k] <= END[k] <= BS_CAP_BITS (R45); the first half holds by construction -/
  streams  : ∀ k, s.endPos k ≤ s.bsCapBits.toNat
  /-- FREQ lists symbols only, in rising order, with nonzero counts (R48) -/
  freqs_wf : Memory.wf s.freqs
  freqs_in : ∀ e ∈ s.freqs, e.1 < 256 ∧ e.2 ≠ 0
  /-- whenever HUF_VALID = 1, TREE = Build(FREQ) (R53) -/
  tree     : s.hufValid = true → s.tree.isSome = true ∧ s.tree = buildTree s.freq

/-- A run of k steps that neither faults nor is refused. -/
def SafeFor (k : Nat) (s : State) : Prop := ∃ t, Sys2Proof.core.run k s = .next t

/-! ### Completions (R277) -/

/-- The completion of a command that succeeded: BUSY 0, ERR 0, EOF and RESULT as given, ERRCODE the opcode and code
OK, IRQ_PEND 1. -/
structure Completes (op : Byte) (res : Word) (eof : Bool) (t : State) : Prop where
  busy    : t.busy = false
  err     : t.err = false
  eof     : t.eof = eof
  errOp   : t.errOp = op
  errCode : t.errCode = none
  result  : t.result = res
  irqPend : t.irqPend = true

/-- The completion of a command that raised an error: BUSY 0, ERR 1, EOF 0, ERRCODE the opcode and the error, RESULT
0, IRQ_PEND 1. -/
structure FailsWith (op : Byte) (c : CmdError) (t : State) : Prop where
  busy    : t.busy = false
  err     : t.err = true
  eof     : t.eof = false
  errOp   : t.errOp = op
  errCode : t.errCode = some c
  result  : t.result = 0
  irqPend : t.irqPend = true

/-! ### Frames: what a command leaves unchanged -/

/-- Registers that no command changes: the parameters, OVERRUN, ARG, IRQ_EN, and what lies outside the engine. -/
structure KeepsHostSide (s t : State) : Prop where
  bufBytes  : t.bufBytes = s.bufBytes
  bsCapBits : t.bsCapBits = s.bsCapBits
  overrun   : t.overrun = s.overrun
  arg       : t.arg = s.arg
  irqEn     : t.irqEn = s.irqEn
  inputs    : t.inputs = s.inputs
  busResp   : t.busResp = s.busResp

/-- FREQ, TREE (and so CODE) and HUF_VALID. -/
structure KeepsHuffman (s t : State) : Prop where
  freqs    : t.freqs = s.freqs
  tree     : t.tree = s.tree
  hufValid : t.hufValid = s.hufValid

/-- LEN[i] and every byte of BUFMEM_i. -/
structure KeepsBuffer (i : Fin 4) (s t : State) : Prop where
  len  : t.len i = s.len i
  byte : ∀ j, t.byteAt i j = s.byteAt i j

/-- LEN[i] and the bytes of BUFMEM_i below it (R279). -/
structure KeepsBelowLen (i : Fin 4) (s t : State) : Prop where
  len  : t.len i = s.len i
  byte : ∀ j, j < (s.len i).toNat → t.byteAt i j = s.byteAt i j

/-- START[k], END[k] and Seq(k). -/
structure KeepsStream (k : Fin 4) (s t : State) : Prop where
  startPos : t.startPos k = s.startPos k
  endPos   : t.endPos k = s.endPos k
  seq      : t.seq k = s.seq k

/-- Every register but PRIMARY, RPOS, FREQ, TREE and HUF_VALID, and every buffer and bitstream but the named ones.
STATUS, ERRCODE, RESULT and IRQ_PEND are the completion's. -/
structure KeepsRest (bufs streams : List (Fin 4)) (s t : State) : Prop where
  host    : KeepsHostSide s t
  buffers : ∀ i, i ∉ bufs → KeepsBuffer i s t
  streams : ∀ k, k ∉ streams → KeepsStream k s t

/-- As `KeepsRest`, and PRIMARY, RPOS, FREQ, TREE and HUF_VALID. -/
structure KeepsBut (bufs streams : List (Fin 4)) (s t : State) : Prop where
  rest    : KeepsRest bufs streams s t
  primary : t.primary = s.primary
  rpos    : t.rpos = s.rpos
  huffman : KeepsHuffman s t

/-- Everything but the completion's registers. -/
abbrev KeepsAll (s t : State) : Prop := KeepsBut [] [] s t

/-- What a failed command with destination buffer Bd keeps (R279): everything but the completion's registers and the
bytes of Bd at LEN[d] and above. -/
structure KeepsOnFailure (d : Fin 4) (s t : State) : Prop where
  but   : KeepsBut [d] [] s t
  below : KeepsBelowLen d s t

/-- The destination buffer of a command (R89, R116), if it has one. -/
def bufDest : Instr → Option (Fin 4)
  | .bsWrite rd _ | .bwtFwd rd _ | .bwtInv rd _ | .mtfEnc rd _ | .mtfDec rd _ | .rleEnc rd _ | .rleDec rd _
  | .hufDec rd _ | .recWrite rd _ => index? rd
  | .nop | .bsClear _ | .bsAppend _ _ | .bsCat _ _ | .bsPop _ | .bsPops _ | .bsRev _ _ | .bsGet _ | .bsRead _ _
  | .hufCount _ | .hufBuild | .hufEnc _ _ | .recRead _ _ => none

/-- The destination bitstream of a command (R46, R116), if it has one. -/
def streamDest : Instr → Option (Fin 4)
  | .bsClear rd | .bsAppend rd _ | .bsCat rd _ | .bsPop rd | .bsPops rd | .bsRev rd _ | .bsRead rd _ | .hufEnc rd _
  | .recRead rd _ => index? rd
  | .nop | .bsGet _ | .bsWrite _ _ | .bwtFwd _ _ | .bwtInv _ _ | .mtfEnc _ _ | .mtfDec _ _ | .rleEnc _ _
  | .rleDec _ _ | .hufCount _ | .hufBuild | .hufDec _ _ | .recWrite _ _ => none

end Sys2Proof.Machine
end

