-- ==== Sys2Proof/Certificates/Slice0/Obligations.lean ====
section
/-! DEFINITION. The statements about HRC that are to be proved, from the numbered rules of the spec. Every command's statement names its word, its result, its errors and its frame; `exec i s = .next t` is its conclusion. -/

open Sys2Proof Sys2Proof.Machine

/-! ### Encoding, decoding and the step -/

/-- 95_test_vectors.md §2.1 and §3: words written out from R110 decode to the commands they stand for, one of every
family. -/
def Obligations.SpecWordsDecode : Prop :=
  decode 0x00000000 = .ok .nop ∧ decode 0x00010311 = .ok (.bsAppend 3 true) ∧
  decode 0x00000411 = .ok (.bsAppend 4 false) ∧ decode 0x00003016 = .ok (.bsGet 3) ∧
  decode 0x00002318 = .ok (.bsRead 3 2) ∧ decode 0x00001221 = .ok (.bwtInv 2 1) ∧
  decode 0x00001023 = .ok (.mtfDec 0 1) ∧ decode 0x00002124 = .ok (.rleEnc 1 2) ∧
  decode 0x0000F030 = .ok (.hufCount 15) ∧ decode 0x00000031 = .ok .hufBuild ∧
  decode 0x00001032 = .ok (.hufEnc 0 1) ∧ decode 0x00003041 = .ok (.recRead 0 3) ∧
  decode 0xFFFFFFFF = .error .undefinedOp ∧ decode 0x00020000 = .error .reservedBits ∧
  decode 0x00000F31 = .error .unusedRd ∧ decode 0x00001011 = .error .unusedRs ∧
  decode 0x00010010 = .error .unusedImm

/-- R110, R111, R116, R117: decoding the word of any command, with every operand at every value of its field, gives the
command back; and a word that decodes is the word of its command, so no two words mean one command and no bit of a
word is ignored. -/
def Obligations.DecodeEncodeInverse : Prop :=
  (∀ i : Instr, decode (encode i) = .ok i) ∧ (∀ (w : Word) (i : Instr), decode w = .ok i → encode i = w)

/-- R116: a word selects a row exactly when `w & mask = match`; every command stands in a row; and a word of a row
with an index field above 3 still decodes to that row's opcode and is refused with ERR_OPERAND. -/
def Obligations.TableRowsSelectCommands : Prop :=
  (∀ row ∈ tableRows, ∀ w : Word,
    w &&& row.2.2 = row.2.1 ↔ ∃ i, decode w = .ok i ∧ i.opcode = row.1) ∧
  (∀ i : Instr, ∃ row ∈ tableRows, row.1 = i.opcode) ∧
  (∀ (s : State) (w : Word) (i : Instr), s.latch = some w → s.inputs = [] → decode w = .ok i →
    (i.rd.toNat > 3 ∨ i.rs.toNat > 3) → ∃ t, step s = .next t ∧ FailsWith i.opcode .operand t)

/-- R117: an OP value outside the table (234 of them), RSV ≠ 0 and a nonzero unused field are no command; the word
completes with ERR_ILLEGAL, ERRCODE.OP is its low byte, and nothing else changes. -/
def Obligations.IllegalWordRefused : Prop :=
  (((List.range 256).filter fun op => !tableRows.any fun row => row.1.toNat == op).length = 234) ∧
  (∀ w : Word, (∀ row ∈ tableRows, opField w ≠ row.1) → ∃ e, decode w = .error e) ∧
  (∀ row ∈ tableRows, ∀ w : Word, opField w = row.1 → w &&& row.2.2 ≠ row.2.1 → ∃ e, decode w = .error e) ∧
  (∀ (s : State) (w : Word) (e : DecodeError), s.latch = some w → s.inputs = [] → decode w = .error e →
    ∃ t, step s = .next t ∧ FailsWith (opField w) .illegal t ∧ KeepsAll s t)

/-- R113, R279: an index field of 4 to 15 is refused with ERR_OPERAND. Nothing else changes, but for the bytes at LEN
and above of a destination buffer that RD does name. -/
def Obligations.IndexAboveThreeRefused : Prop :=
  ∀ (i : Instr) (s : State), i.wellFormed = false →
    ∃ t, exec i s = .next t ∧ FailsWith i.opcode .operand t ∧ (bufDest i = none → KeepsAll s t) ∧
      (∀ d, bufDest i = some d → KeepsOnFailure d s t)

/-- R277, R94: when the latched word decodes, the engine's turn is that command's meaning; `withFetchWord` places
exactly such a word. What `step` adds is the model's own schedule (log 7): a turn listed in `inputs` is used up, and a
listed host access or pulse of `rst` is that access or reset. -/
def Obligations.StepRunsLatchedCommand : Prop :=
  (∀ (s : State) (w : Word) (i : Instr), decode w = .ok i →
    (s.latch = some w → s.inputs = [] → step s = exec i s) ∧
    (∀ rest, s.latch = some w → s.inputs = .engine :: rest → step s = exec i { s with inputs := rest }) ∧
    (s.withFetchWord 32 w.toNat).latch = some w ∧
    step (s.withFetchWord 32 w.toNat) = exec i (s.withFetchWord 32 w.toNat)) ∧
  (∀ s : State, s.latch = none → s.inputs = [] → step s = .next s) ∧
  (∀ (s : State) (rest : List Input) (addr : Addr) (n : Nat) (v : Word),
    (s.inputs = .read addr n :: rest → ∃ t r, State.memRead { s with inputs := rest } addr n = (t, r) ∧
      step s = .next { t with busResp := some r }) ∧
    (s.inputs = .write addr n v :: rest → ∃ t r, State.memWrite { s with inputs := rest } addr n v = (t, r) ∧
      step s = .next { t with busResp := some r }) ∧
    (s.inputs = .reset :: rest → step s = .next (State.hardReset { s with inputs := rest })))

/-! ### Control -/

/-- R265: NOP does nothing but complete; its word is 0 and any nonzero bit outside OP is illegal. -/
def Obligations.NopCompletes : Prop :=
  encode .nop = 0 ∧ (∀ w : Word, opField w = 0 → w ≠ 0 → ∃ e, decode w = .error e) ∧
  ∀ s : State, ∃ t, exec .nop s = .next t ∧ Completes 0x00 0 false t ∧ KeepsAll s t

/-! ### Bitstream -/

/-- R140: BS_CLEAR makes Sd empty, from START = 0. -/
def Obligations.BsClearEmpties : Prop :=
  ∀ (s : State) (d : Fin 4), encode (.bsClear (idx d)) = enc 0x10 (idx d) 0 false ∧
    ∃ t, exec (.bsClear (idx d)) s = .next t ∧ Completes 0x10 0 false t ∧
      t.startPos d = 0 ∧ t.endPos d = 0 ∧ t.seq d = [] ∧ KeepsBut [] [d] s t

/-- R141: BS_APPEND puts one bit at END; ERR_BS_FULL when END = BS_CAP_BITS, whatever START is. -/
def Obligations.BsAppendPushesBit : Prop :=
  ∀ (s : State) (d : Fin 4) (b : Bool), s.Inv →
    encode (.bsAppend (idx d) b) = enc 0x11 (idx d) 0 b ∧
    (s.endPos d = s.bsCapBits.toNat → ∃ t, exec (.bsAppend (idx d) b) s = .next t ∧
      FailsWith 0x11 .bsFull t ∧ KeepsAll s t) ∧
    (s.endPos d ≠ s.bsCapBits.toNat → ∃ t, exec (.bsAppend (idx d) b) s = .next t ∧
      Completes 0x11 (BitVec.ofNat 32 (t.endPos d - t.startPos d)) false t ∧
      t.result.toNat = (s.seq d).length + 1 ∧ t.seq d = s.seq d ++ [b] ∧
      t.startPos d = s.startPos d ∧ t.endPos d = s.endPos d + 1 ∧ KeepsBut [] [d] s t)

/-- R142: BS_CAT appends every bit of Ss in order, read before any write (so d = s doubles the stream); ERR_BS_FULL
when the bits do not fit. -/
def Obligations.BsCatAppendsStream : Prop :=
  ∀ (s : State) (d r : Fin 4), s.Inv →
    encode (.bsCat (idx d) (idx r)) = enc 0x12 (idx d) (idx r) false ∧
    (s.endPos d + (s.seq r).length > s.bsCapBits.toNat → ∃ t, exec (.bsCat (idx d) (idx r)) s = .next t ∧
      FailsWith 0x12 .bsFull t ∧ KeepsAll s t) ∧
    (s.endPos d + (s.seq r).length ≤ s.bsCapBits.toNat → ∃ t, exec (.bsCat (idx d) (idx r)) s = .next t ∧
      Completes 0x12 (BitVec.ofNat 32 (t.endPos d - t.startPos d)) false t ∧
      t.result.toNat = (s.seq d).length + (s.seq r).length ∧ t.seq d = s.seq d ++ s.seq r ∧
      t.startPos d = s.startPos d ∧ t.endPos d = s.endPos d + (s.seq r).length ∧ KeepsBut [] [d] s t)

/-- R143: BS_POP removes and returns the last bit; on an empty stream it returns NONE and changes nothing. -/
def Obligations.BsPopReturnsLastBit : Prop :=
  ∀ (s : State) (d : Fin 4), encode (.bsPop (idx d)) = enc 0x13 (idx d) 0 false ∧
    (s.seq d = [] → ∃ t, exec (.bsPop (idx d)) s = .next t ∧ Completes 0x13 0xFFFFFFFF false t ∧ KeepsAll s t) ∧
    (∀ x b, s.seq d = x ++ [b] → ∃ t, exec (.bsPop (idx d)) s = .next t ∧
      Completes 0x13 (BitVec.ofNat 32 b.toNat) false t ∧ t.seq d = x ∧ t.startPos d = s.startPos d ∧
      t.endPos d = s.endPos d - 1 ∧ KeepsBut [] [d] s t)

/-- R144: BS_POPS removes and returns the first bit, moving START up by one; on an empty stream it returns NONE and
changes nothing. -/
def Obligations.BsPopsReturnsFirstBit : Prop :=
  ∀ (s : State) (d : Fin 4), s.Inv → encode (.bsPops (idx d)) = enc 0x14 (idx d) 0 false ∧
    (s.seq d = [] → ∃ t, exec (.bsPops (idx d)) s = .next t ∧ Completes 0x14 0xFFFFFFFF false t ∧ KeepsAll s t) ∧
    (∀ b x, s.seq d = b :: x → ∃ t, exec (.bsPops (idx d)) s = .next t ∧
      Completes 0x14 (BitVec.ofNat 32 b.toNat) false t ∧ t.seq d = x ∧ t.startPos d = s.startPos d + 1 ∧
      t.endPos d = s.endPos d ∧ KeepsBut [] [d] s t)

/-- R145: BS_REV writes the reversed bits of Ss to Sd, from START = 0; no capacity error is possible. -/
def Obligations.BsRevReverses : Prop :=
  ∀ (s : State) (d r : Fin 4), encode (.bsRev (idx d) (idx r)) = enc 0x15 (idx d) (idx r) false ∧
    ∃ t, exec (.bsRev (idx d) (idx r)) s = .next t ∧
      Completes 0x15 (BitVec.ofNat 32 (s.seq r).length) false t ∧ t.startPos d = 0 ∧
      t.endPos d = (s.seq r).length ∧
      (∀ j, j < (s.seq r).length → (t.seq d)[j]? = (s.seq r)[(s.seq r).length - 1 - j]?) ∧
      KeepsBut [] [d] s t

/-- R146: BS_GET returns the bit at logical index ARG, NONE beyond the range, and changes nothing. -/
def Obligations.BsGetReadsBit : Prop :=
  ∀ (s : State) (r : Fin 4), encode (.bsGet (idx r)) = enc 0x16 0 (idx r) false ∧
    (∀ h : s.arg.toNat < (s.seq r).length, ∃ t, exec (.bsGet (idx r)) s = .next t ∧
      Completes 0x16 (BitVec.ofNat 32 ((s.seq r)[s.arg.toNat]).toNat) false t ∧ KeepsAll s t) ∧
    (s.arg.toNat ≥ (s.seq r).length → ∃ t, exec (.bsGet (idx r)) s = .next t ∧
      Completes 0x16 0xFFFFFFFF false t ∧ KeepsAll s t)

/-- R147, with R87 and R10: be32 and be16 put the most significant byte first; the serialized form is a 32-bit big-endian bit length and ceil(|x|/8) bytes; bit b of data byte m
is x[8m+b] where there is one, else 0; unpack takes the bits back, whatever the padding is. -/
def Obligations.SerializedForm : Prop :=
  (∀ v : Word, be32 v = [v.extractLsb' 24 8, v.extractLsb' 16 8, v.extractLsb' 8 8, v.extractLsb' 0 8] ∧
    fromBe (be32 v) = v.toNat) ∧
  (∀ v : BitVec 16, be16 v = [v.extractLsb' 8 8, v.extractLsb' 0 8] ∧ fromBe (be16 v) = v.toNat) ∧
  ∀ x : List Bool,
    (ser x).length = 4 + (x.length + 7) / 8 ∧ (ser x).take 4 = be32 (BitVec.ofNat 32 x.length) ∧
    (∀ m b, m < (x.length + 7) / 8 → b < 8 →
      (((ser x).drop 4).getD m 0).getLsbD b = x.getD (8 * m + b) false) ∧
    (∀ (p : List Byte) (n : Nat), (unpack p n).length = n ∧
      ∀ j, j < n → (unpack p n)[j]? = some ((p.getD (j / 8) 0).getLsbD (j % 8))) ∧
    unpack (pack x) x.length = x

/-- R148: BS_WRITE appends the serialized bits of Ss to Bd; ERR_BUF_FULL, with Bd unchanged below LEN, when they do
not fit. -/
def Obligations.BsWriteAppendsSerialized : Prop :=
  ∀ (s : State) (d r : Fin 4), encode (.bsWrite (idx d) (idx r)) = enc 0x17 (idx d) (idx r) false ∧
    ((s.len d).toNat + (ser (s.seq r)).length > s.bufBytes.toNat →
      ∃ t, exec (.bsWrite (idx d) (idx r)) s = .next t ∧ FailsWith 0x17 .bufFull t ∧ KeepsOnFailure d s t) ∧
    ((s.len d).toNat + (ser (s.seq r)).length ≤ s.bufBytes.toNat →
      ∃ t, exec (.bsWrite (idx d) (idx r)) s = .next t ∧
        Completes 0x17 (BitVec.ofNat 32 (ser (s.seq r)).length) false t ∧
        (t.len d).toNat = (s.len d).toNat + (ser (s.seq r)).length ∧ t.buf d = s.buf d ++ ser (s.seq r) ∧
        (∀ j, j < (s.len d).toNat → t.byteAt d j = s.byteAt d j) ∧ KeepsBut [d] [] s t)

/-- R149: BS_READ parses a bitstream at RPOS. RPOS above LEN is ERR_OPERAND, RPOS = LEN a clean end of input, a short
header or short data ERR_TRUNCATED, a length above BS_CAP_BITS ERR_MALFORMED; else Sd, RPOS and RESULT are written. -/
def Obligations.BsReadParsesStream : Prop :=
  ∀ (s : State) (d r : Fin 4), encode (.bsRead (idx d) (idx r)) = enc 0x18 (idx d) (idx r) false ∧
    (s.rpos.toNat > (s.len r).toNat → ∃ t, exec (.bsRead (idx d) (idx r)) s = .next t ∧
      FailsWith 0x18 .operand t ∧ KeepsAll s t) ∧
    (s.rpos.toNat = (s.len r).toNat → ∃ t, exec (.bsRead (idx d) (idx r)) s = .next t ∧
      Completes 0x18 0 true t ∧ KeepsAll s t) ∧
    (∀ p m n, p = s.rpos.toNat → p < (s.len r).toNat → m = (s.buf r).drop p → n = fromBe (m.take 4) →
      (m.length < 4 → ∃ t, exec (.bsRead (idx d) (idx r)) s = .next t ∧ FailsWith 0x18 .truncated t ∧ KeepsAll s t) ∧
      (4 ≤ m.length → n > s.bsCapBits.toNat → ∃ t, exec (.bsRead (idx d) (idx r)) s = .next t ∧
        FailsWith 0x18 .malformed t ∧ KeepsAll s t) ∧
      (4 ≤ m.length → n ≤ s.bsCapBits.toNat → m.length - 4 < (n + 7) / 8 →
        ∃ t, exec (.bsRead (idx d) (idx r)) s = .next t ∧ FailsWith 0x18 .truncated t ∧ KeepsAll s t) ∧
      (4 ≤ m.length → n ≤ s.bsCapBits.toNat → (n + 7) / 8 ≤ m.length - 4 →
        ∃ t, exec (.bsRead (idx d) (idx r)) s = .next t ∧
          Completes 0x18 (BitVec.ofNat 32 (4 + (n + 7) / 8)) false t ∧
          t.seq d = unpack ((m.drop 4).take ((n + 7) / 8)) n ∧ t.startPos d = 0 ∧ t.endPos d = n ∧
          t.rpos.toNat = p + 4 + (n + 7) / 8 ∧ t.primary = s.primary ∧ KeepsHuffman s t ∧ KeepsRest [] [d] s t))

/-- R150: reversing twice gives the stream back, and BS_GET of the reverse at i is BS_GET at |x| − 1 − i. -/
def Obligations.ReverseLaws : Prop :=
  ∀ (s t : State) (d r : Fin 4), exec (.bsRev (idx d) (idx r)) s = .next t →
    (∀ (e : Fin 4) (u : State), exec (.bsRev (idx e) (idx d)) t = .next u → u.seq e = s.seq r) ∧
    (∀ (i : Nat) (u v : State), i < (s.seq r).length →
      exec (.bsGet (idx d)) { t with arg := BitVec.ofNat 32 i } = .next u →
      exec (.bsGet (idx r)) { s with arg := BitVec.ofNat 32 ((s.seq r).length - 1 - i) } = .next v →
      (s.seq r).length ≤ 2 ^ 32 → u.result = v.result) ∧
    (∀ (a : Word) (u v : State), (s.seq r).length ≤ a.toNat →
      exec (.bsGet (idx d)) { t with arg := a } = .next u → exec (.bsGet (idx r)) { s with arg := a } = .next v →
      u.result = 0xFFFFFFFF ∧ v.result = 0xFFFFFFFF)

/-- R151: BS_WRITE, then BS_READ at the offset where the write began, gives the bits back and consumes exactly the
bytes written. -/
def Obligations.StreamWriteReadRoundTrip : Prop :=
  ∀ (s t : State) (d r e : Fin 4), s.Inv → exec (.bsWrite (idx d) (idx r)) s = .next t → t.err = false →
    ∃ u, exec (.bsRead (idx e) (idx d)) { t with rpos := s.len d } = .next u ∧ u.err = false ∧ u.eof = false ∧
      u.seq e = s.seq r ∧ u.result = t.result ∧ u.rpos = t.len d

/-! ### Burrows-Wheeler -/

/-- R170, R171, R172: rotation i of a block begins at its byte i and wraps around. BWT_FWD sorts the rotations, equal ones by offset; t is their last bytes and PRIMARY = RESULT the
position of offset 0. An empty block is ERR_PRECOND. -/
def Obligations.BwtFwdSortsRotations : Prop :=
  (∀ (x : List Byte) (i : Nat), i < x.length → (rot x i).length = x.length ∧
    ∀ j, j < x.length → (rot x i)[j]? = x[(i + j) % x.length]?) ∧
  ∀ (s : State) (d r : Fin 4), encode (.bwtFwd (idx d) (idx r)) = enc 0x20 (idx d) (idx r) false ∧
    (s.buf r = [] → ∃ t, exec (.bwtFwd (idx d) (idx r)) s = .next t ∧ FailsWith 0x20 .precond t ∧
      KeepsOnFailure d s t) ∧
    (∀ x n, x = s.buf r → n = x.length → x ≠ [] → ∃ (t : State) (σ : List Nat) (q : Nat),
      exec (.bwtFwd (idx d) (idx r)) s = .next t ∧ σ.Perm (List.range n) ∧
      σ.Pairwise (fun i j => rot x i < rot x j ∨ rot x i = rot x j ∧ i < j) ∧
      q < n ∧ σ[q]? = some 0 ∧ t.buf d = σ.map (fun i => x.getD ((i + n - 1) % n) 0) ∧ t.len d = s.len r ∧
      t.primary.toNat = q ∧ Completes 0x20 t.primary false t ∧ t.rpos = s.rpos ∧ KeepsHuffman s t ∧
      KeepsRest [d] [] s t)

/-- R174, R175: BWT_INV follows the recurrence from PRIMARY, right to left; every index stays below n. An empty block
is ERR_PRECOND, PRIMARY >= n ERR_MALFORMED. -/
def Obligations.BwtInvReconstructs : Prop :=
  ∀ (s : State) (d r : Fin 4), encode (.bwtInv (idx d) (idx r)) = enc 0x21 (idx d) (idx r) false ∧
    (s.buf r = [] → ∃ t, exec (.bwtInv (idx d) (idx r)) s = .next t ∧ FailsWith 0x21 .precond t ∧
      KeepsOnFailure d s t) ∧
    (s.buf r ≠ [] → s.primary.toNat ≥ (s.buf r).length → ∃ t, exec (.bwtInv (idx d) (idx r)) s = .next t ∧
      FailsWith 0x21 .malformed t ∧ KeepsOnFailure d s t) ∧
    (∀ x n, x = s.buf r → n = x.length → s.primary.toNat < n → ∃ (t : State) (pos : Nat → Nat),
      exec (.bwtInv (idx d) (idx r)) s = .next t ∧ pos 0 = s.primary.toNat ∧
      (∀ k, pos (k + 1) = (x.take (pos k)).countP (· == x.getD (pos k) 0) + x.countP (· < x.getD (pos k) 0)) ∧
      (∀ k, k < n → pos k < n ∧ (t.buf d)[n - 1 - k]? = some (x.getD (pos k) 0)) ∧
      t.len d = s.len r ∧ Completes 0x21 (BitVec.ofNat 32 n) false t ∧ KeepsBut [d] [] s t)

/-- R176: BWT_FWD Bd, Bs and then BWT_INV Be, Bd give back every block of 1 byte or more. -/
def Obligations.BwtRoundTrip : Prop :=
  ∀ (s t : State) (d r e : Fin 4), s.buf r ≠ [] → exec (.bwtFwd (idx d) (idx r)) s = .next t →
    ∃ u, exec (.bwtInv (idx e) (idx d)) t = .next u ∧ u.err = false ∧ u.buf e = s.buf r

/-- R177: the transformed bytes are those of any order that sorts the rotations, whatever it does with equal ones; and
for every position whose rotation equals rotation 0 the inverse gives the block back. -/
def Obligations.BwtTieBreakIndependence : Prop :=
  ∀ x : List Byte,
    (∀ τ : List Nat, τ.Perm (List.range x.length) →
      τ.Pairwise (fun i j => rot x i < rot x j ∨ rot x i = rot x j) →
      τ.map (fun i => x.getD ((i + x.length - 1) % x.length) 0) = bwtBytes x) ∧
    (∀ q i, (rotOrder x)[q]? = some i → rot x i = x → bwtInverse (bwtBytes x) q = x)

/-! ### Move-to-front -/

/-- R190, R191: moving c to the front of a list without repeats takes it from its place and keeps the order of the
others. MTF_ENC writes, for each byte, its index in the list as the bytes before it left it, from [0, 1, ..., 255]. -/
def Obligations.MtfEncWritesRanks : Prop :=
  (∀ (a b : List Byte) (c : Byte), (a ++ c :: b).Nodup → moveToFront (a ++ c :: b) c = c :: (a ++ b)) ∧
  ∀ (s : State) (d r : Fin 4), encode (.mtfEnc (idx d) (idx r)) = enc 0x22 (idx d) (idx r) false ∧
    ∃ t, exec (.mtfEnc (idx d) (idx r)) s = .next t ∧
      Completes 0x22 (BitVec.ofNat 32 (s.buf r).length) false t ∧ t.len d = s.len r ∧
      (∀ j, j < (s.buf r).length → ∃ k c, (s.buf r)[j]? = some c ∧ (t.buf d)[j]? = some k ∧
        (((s.buf r).take j).foldl moveToFront ((List.range 256).map (BitVec.ofNat 8)))[k.toNat]? = some c) ∧
      KeepsBut [d] [] s t

/-- R190, R192: MTF_DEC writes, for each rank, the byte at that index of the list as the bytes before it left it. -/
def Obligations.MtfDecReadsRanks : Prop :=
  ∀ (s : State) (d r : Fin 4), encode (.mtfDec (idx d) (idx r)) = enc 0x23 (idx d) (idx r) false ∧
    ∃ t, exec (.mtfDec (idx d) (idx r)) s = .next t ∧
      Completes 0x23 (BitVec.ofNat 32 (s.buf r).length) false t ∧ t.len d = s.len r ∧
      (∀ j, j < (s.buf r).length → ∃ k c, (s.buf r)[j]? = some k ∧ (t.buf d)[j]? = some c ∧
        (((t.buf d).take j).foldl moveToFront ((List.range 256).map (BitVec.ofNat 8)))[k.toNat]? = some c) ∧
      KeepsBut [d] [] s t

/-- R193: the list is always a permutation of 0..255, and MTF_ENC followed by MTF_DEC gives every sequence back, the
empty one included. -/
def Obligations.MtfRoundTrip : Prop :=
  allBytes = (List.range 256).map (BitVec.ofNat 8) ∧ (∀ x : List Byte, (x.foldl moveToFront allBytes).Perm allBytes) ∧
  ∀ (s t : State) (d r e : Fin 4), exec (.mtfEnc (idx d) (idx r)) s = .next t →
    ∃ u, exec (.mtfDec (idx e) (idx d)) t = .next u ∧ u.err = false ∧ u.buf e = s.buf r

/-! ### Run-length -/

/-- R200, R201: rle of a sequence that begins with a maximal run: a run of 4 or more gives four copies, the count
byte, and what remains of the run starts anew; a shorter run gives its copies. -/
def Obligations.RleEncodesRuns : Prop :=
  rle [] = [] ∧ ∀ (c : Byte) (L : Nat) (y : List Byte), 0 < L → y.head? ≠ some c →
    rle (List.replicate L c ++ y) =
      if 4 ≤ L then
        List.replicate 4 c ++ [BitVec.ofNat 8 (min (L - 4) 255)] ++
          rle (List.replicate (L - 4 - min (L - 4) 255) c ++ y)
      else List.replicate L c ++ rle y

/-- R202: RLE_ENC writes rle(Buf(s)), at most ceil(5n/4) bytes; ERR_BUF_FULL when it does not fit. -/
def Obligations.RleEncWritesRuns : Prop :=
  ∀ (s : State) (d r : Fin 4), encode (.rleEnc (idx d) (idx r)) = enc 0x24 (idx d) (idx r) false ∧
    (rle (s.buf r)).length ≤ (5 * (s.buf r).length + 3) / 4 ∧
    ((rle (s.buf r)).length > s.bufBytes.toNat → ∃ t, exec (.rleEnc (idx d) (idx r)) s = .next t ∧
      FailsWith 0x24 .bufFull t ∧ KeepsOnFailure d s t) ∧
    ((rle (s.buf r)).length ≤ s.bufBytes.toNat → ∃ t, exec (.rleEnc (idx d) (idx r)) s = .next t ∧
      Completes 0x24 (BitVec.ofNat 32 (rle (s.buf r)).length) false t ∧ t.buf d = rle (s.buf r) ∧
      (t.len d).toNat = (rle (s.buf r)).length ∧ KeepsBut [d] [] s t)

/-- R203, R204: RLE_DEC writes unrle(Buf(s)), which reads a group of one to three equal literals as itself, and four
equal literals and a count byte k as 4 + k copies, after which counting restarts; four literals at the end are
ERR_MALFORMED, and only then is a result that does not fit ERR_BUF_FULL. -/
def Obligations.RleDecExpandsRuns : Prop :=
  unrle [] = .ok [] ∧
  (∀ (c : Byte) (k : Nat) (y : List Byte), 0 < k → k < 4 → y.head? ≠ some c →
    unrle (List.replicate k c ++ y) = (unrle y).map fun x => List.replicate k c ++ x) ∧
  (∀ (c k : Byte) (y : List Byte), unrle (List.replicate 4 c ++ k :: y) =
    (unrle y).map fun x => List.replicate (4 + k.toNat) c ++ x) ∧
  (∀ c : Byte, unrle (List.replicate 4 c) = .error .malformed) ∧
  ∀ (s : State) (d r : Fin 4), encode (.rleDec (idx d) (idx r)) = enc 0x25 (idx d) (idx r) false ∧
    (∀ c, unrle (s.buf r) = .error c → c = .malformed ∧ ∃ t, exec (.rleDec (idx d) (idx r)) s = .next t ∧
      FailsWith 0x25 .malformed t ∧ KeepsOnFailure d s t) ∧
    (∀ x, unrle (s.buf r) = .ok x → x.length > s.bufBytes.toNat →
      ∃ t, exec (.rleDec (idx d) (idx r)) s = .next t ∧ FailsWith 0x25 .bufFull t ∧ KeepsOnFailure d s t) ∧
    (∀ x, unrle (s.buf r) = .ok x → x.length ≤ s.bufBytes.toNat →
      ∃ t, exec (.rleDec (idx d) (idx r)) s = .next t ∧ Completes 0x25 (BitVec.ofNat 32 x.length) false t ∧
        t.buf d = x ∧ (t.len d).toNat = x.length ∧ KeepsBut [d] [] s t)

/-- R205: unrle(rle(x)) = x for every x, by the functions and by RLE_ENC and then RLE_DEC; the converse does not hold:
[7,7,7,7,0,7,7,7,7,0] decodes and is not rle of anything. -/
def Obligations.RleRoundTrip : Prop :=
  (∀ x : List Byte, unrle (rle x) = .ok x) ∧
  (∀ (s t : State) (d r e : Fin 4), exec (.rleEnc (idx d) (idx r)) s = .next t → t.err = false →
    (s.buf r).length ≤ s.bufBytes.toNat →
    ∃ u, exec (.rleDec (idx e) (idx d)) t = .next u ∧ u.err = false ∧ u.buf e = s.buf r) ∧
  (∃ x, unrle [7, 7, 7, 7, 0, 7, 7, 7, 7, 0] = .ok x) ∧ (∀ x, rle x ≠ [7, 7, 7, 7, 0, 7, 7, 7, 7, 0])

/-! ### Huffman -/

/-- R216: HUF_COUNT replaces FREQ by the counts of Buf(s) and clears HUF_VALID. -/
def Obligations.HufCountCounts : Prop :=
  ∀ (s : State) (r : Fin 4), encode (.hufCount (idx r)) = enc 0x30 0 (idx r) false ∧
    ∃ t, exec (.hufCount (idx r)) s = .next t ∧ Completes 0x30 (BitVec.ofNat 32 (s.buf r).length) false t ∧
      (∀ v, (t.freq v).toNat = (s.buf r).count v) ∧ t.hufValid = false ∧ t.tree = s.tree ∧
      t.primary = s.primary ∧ t.rpos = s.rpos ∧ KeepsRest [] [] s t

/-- R218: HUF_BUILD builds the tree of FREQ; RESULT and NSYM are the number of nonzero counts and HUF_VALID is 1. An
all-zero FREQ is ERR_PRECOND, with HUF_VALID unchanged: in a legal state it is already 0. -/
def Obligations.HufBuildBuildsTree : Prop :=
  ∀ s : State, encode .hufBuild = 0x00000031 ∧
    ((∀ v, s.freq v = 0) → ∃ t, exec .hufBuild s = .next t ∧ FailsWith 0x31 .precond t ∧ KeepsAll s t ∧
      (s.Inv → s.hufValid = false ∧ t.hufValid = false)) ∧
    ((∃ v, s.freq v ≠ 0) → ∃ t, exec .hufBuild s = .next t ∧
      Completes 0x31 (BitVec.ofNat 32 (allBytes.filter fun v => s.freq v != 0).length) false t ∧
      t.nsymWord = t.result ∧ t.hufValid = true ∧ t.tree = buildTree s.freq ∧ t.tree.isSome = true ∧
      t.freqs = s.freqs ∧ t.primary = s.primary ∧ t.rpos = s.rpos ∧ KeepsRest [] [] s t)

/-- The lists that R219 starts from: a leaf for every nonzero count, weighted by it, by weight and then by symbol. -/
def initialLeaves (F : Byte → Word) (L : List HuffTree) : Prop :=
  (∀ x, x ∈ L ↔ ∃ v, F v ≠ 0 ∧ x = .leaf v (F v).toNat) ∧
  L.Pairwise fun a b => ∃ u v, a = .leaf u (F u).toNat ∧ b = .leaf v (F v).toNat ∧
    ((F u).toNat < (F v).toNat ∨ F u = F v ∧ u < v)

/-- One round of R219's loop: the first two trees become the children of a new node, which stands after every tree of
at most its weight and before the first heavier one. -/
def mergeRound (L L' : List HuffTree) : Prop :=
  ∃ a b before after, L = a :: b :: (before ++ after) ∧ (∀ x ∈ before, x.weight ≤ a.weight + b.weight) ∧
    (∀ x, after.head? = some x → a.weight + b.weight < x.weight) ∧
    L' = before ++ .node a b (a.weight + b.weight) :: after

/-- R217, R219: Build(F) is what the rounds of R219 end in; its weight is the sum of the counts and below 2^40, and no
leaf is deeper than the number of leaves less one. -/
def Obligations.BuildFollowsRule : Prop :=
  ∀ (F : Byte → Word) (t : HuffTree),
    (buildTree F = some t ↔ ∃ (k : Nat) (L : Nat → List HuffTree), initialLeaves F (L 0) ∧
      (∀ j, j < k → mergeRound (L j) (L (j + 1))) ∧ L k = [t]) ∧
    (buildTree F = some t → t.weight = (allBytes.map fun v => (F v).toNat).sum ∧ t.weight < 2 ^ 40 ∧
      ∀ v p, t.path v = some p → p.length + 1 ≤ t.leaves ∧ p.length ≤ 255)

/-- The node that a bit sequence leads to, 0 to the left and 1 to the right (R220). -/
def followEdges : HuffTree → List Bool → Option HuffTree
  | t, [] => some t
  | .leaf _ _, _ :: _ => none
  | .node l r _, b :: p => followEdges (if b then r else l) p

/-- R220: the codes of a tree with two or more leaves are the paths to its leaves, root edge first; the one code of a
single leaf is [0]; the symbols with a code are those of nonzero count, and each code has 1 to 255 bits. -/
def Obligations.CodesFollowPaths : Prop :=
  ∀ (F : Byte → Word) (t : HuffTree), buildTree F = some t →
    (∀ v, (t.code v).isSome = true ↔ F v ≠ 0) ∧
    t.leaves = (allBytes.filter fun v => F v != 0).length ∧
    (∀ v p, t.code v = some p → 1 ≤ p.length ∧ p.length ≤ 255) ∧
    (t.leaves ≥ 2 → ∀ v p, t.code v = some p ↔ ∃ w, followEdges t p = some (.leaf v w)) ∧
    (∀ u w, t = .leaf u w → ∀ v p, t.code v = some p ↔ v = u ∧ p = [false])

/-- R225: no code word is a prefix of another; the Kraft sum is 1 for two or more symbols and 1/2 for one (in units
of 2^−255). -/
def Obligations.PrefixFreeAndKraft : Prop :=
  ∀ (F : Byte → Word) (t : HuffTree), buildTree F = some t →
    (∀ u v p q, u ≠ v → t.code u = some p → t.code v = some q → ¬ p <+: q) ∧
    (t.leaves ≥ 2 → ((allBytes.filterMap t.code).map fun p => 2 ^ (255 - p.length)).sum = 2 ^ 255) ∧
    (t.leaves = 1 → ((allBytes.filterMap t.code).map fun p => 2 ^ (255 - p.length)).sum = 2 ^ 254)

/-- R222: HUF_ENC writes the code words of the bytes in order, from START = 0; ERR_NOT_READY without a valid tree,
ERR_NO_CODE for a byte without a code, ERR_BS_FULL when the bits do not fit, in this order. -/
def Obligations.HufEncConcatenatesCodes : Prop :=
  ∀ (s : State) (d r : Fin 4), encode (.hufEnc (idx d) (idx r)) = enc 0x32 (idx d) (idx r) false ∧
    (s.hufValid = false → ∃ t, exec (.hufEnc (idx d) (idx r)) s = .next t ∧ FailsWith 0x32 .notReady t ∧
      KeepsAll s t) ∧
    (∀ tr, s.hufValid = true → s.tree = some tr →
      ((∃ c ∈ s.buf r, tr.code c = none) → ∃ t, exec (.hufEnc (idx d) (idx r)) s = .next t ∧
        FailsWith 0x32 .noCode t ∧ KeepsAll s t) ∧
      (∀ y, (∀ c ∈ s.buf r, tr.code c ≠ none) → y = (s.buf r).flatMap (fun c => (tr.code c).getD []) →
        (y.length > s.bsCapBits.toNat → ∃ t, exec (.hufEnc (idx d) (idx r)) s = .next t ∧
          FailsWith 0x32 .bsFull t ∧ KeepsAll s t) ∧
        (y.length ≤ s.bsCapBits.toNat → ∃ t, exec (.hufEnc (idx d) (idx r)) s = .next t ∧
          Completes 0x32 (BitVec.ofNat 32 y.length) false t ∧ t.seq d = y ∧ t.startPos d = 0 ∧
          t.endPos d = y.length ∧ KeepsBut [] [d] s t)))

/-- R223: HUF_DEC writes the walk of Seq(s) in the tree; ERR_NOT_READY without a valid tree, ERR_BAD_CODE when the walk
fails, ERR_BUF_FULL when the output does not fit, in this order. -/
def Obligations.HufDecWalksTree : Prop :=
  ∀ (s : State) (d r : Fin 4), encode (.hufDec (idx d) (idx r)) = enc 0x33 (idx d) (idx r) false ∧
    (s.hufValid = false → ∃ t, exec (.hufDec (idx d) (idx r)) s = .next t ∧ FailsWith 0x33 .notReady t ∧
      KeepsOnFailure d s t) ∧
    (∀ tr, s.hufValid = true → s.tree = some tr →
      (∀ c, walk tr (s.seq r) = .error c → c = .badCode ∧ ∃ t, exec (.hufDec (idx d) (idx r)) s = .next t ∧
        FailsWith 0x33 .badCode t ∧ KeepsOnFailure d s t) ∧
      (∀ x, walk tr (s.seq r) = .ok x → x.length > s.bufBytes.toNat →
        ∃ t, exec (.hufDec (idx d) (idx r)) s = .next t ∧ FailsWith 0x33 .bufFull t ∧ KeepsOnFailure d s t) ∧
      (∀ x, walk tr (s.seq r) = .ok x → x.length ≤ s.bufBytes.toNat →
        ∃ t, exec (.hufDec (idx d) (idx r)) s = .next t ∧ Completes 0x33 (BitVec.ofNat 32 x.length) false t ∧
          t.buf d = x ∧ (t.len d).toNat = x.length ∧ KeepsBut [d] [] s t))

/-- R224: a walk succeeds exactly on the bits that are code words one after the other, and gives their symbols; the
only error of a walk is ERR_BAD_CODE. -/
def Obligations.WalkInvertsCodes : Prop :=
  ∀ (F : Byte → Word) (t : HuffTree), buildTree F = some t → ∀ y : List Bool,
    (∀ x : List Byte, walk t y = .ok x ↔ (∀ c ∈ x, t.code c ≠ none) ∧ y = x.flatMap fun c => (t.code c).getD []) ∧
    (∀ c, walk t y = .error c → c = .badCode)

/-- R226: after HUF_COUNT of a sequence of 1 byte or more and HUF_BUILD, HUF_ENC and then HUF_DEC give it back when
neither capacity is exceeded; the same after HUF_BUILD from any FREQ that is nonzero for every byte of it. -/
def Obligations.HuffmanRoundTrip : Prop :=
  (∀ (s t₁ t₂ t₃ : State) (r k e : Fin 4), s.buf r ≠ [] → exec (.hufCount (idx r)) s = .next t₁ →
    exec .hufBuild t₁ = .next t₂ → exec (.hufEnc (idx k) (idx r)) t₂ = .next t₃ → t₃.errCode ≠ some .bsFull →
    (s.buf r).length ≤ s.bufBytes.toNat →
    t₃.err = false ∧ ∃ t₄, exec (.hufDec (idx e) (idx k)) t₃ = .next t₄ ∧ t₄.err = false ∧ t₄.buf e = s.buf r) ∧
  (∀ (s t₂ t₃ : State) (r k e : Fin 4), s.buf r ≠ [] → (∀ c ∈ s.buf r, s.freq c ≠ 0) →
    exec .hufBuild s = .next t₂ → exec (.hufEnc (idx k) (idx r)) t₂ = .next t₃ → t₃.errCode ≠ some .bsFull →
    (s.buf r).length ≤ s.bufBytes.toNat →
    t₃.err = false ∧ ∃ t₄, exec (.hufDec (idx e) (idx k)) t₃ = .next t₄ ∧ t₄.err = false ∧ t₄.buf e = s.buf r)

/-! ### Records -/

/-- R245, R247: REC_WRITE appends PRIMARY, the number of nonzero counts, the table in ascending order of symbols, and
the serialized payload, all big-endian; ERR_BUF_FULL when the record does not fit. -/
def Obligations.RecWriteAppendsRecord : Prop :=
  ∀ (s : State) (d r : Fin 4), encode (.recWrite (idx d) (idx r)) = enc 0x40 (idx d) (idx r) false ∧
    ∀ (syms : List Byte) (y : List Byte), syms = allBytes.filter (fun v => s.freq v != 0) →
      y = be32 s.primary ++ be16 (BitVec.ofNat 16 syms.length) ++ syms.flatMap (fun v => v :: be32 (s.freq v)) ++
        ser (s.seq r) →
      y.length = 10 + 5 * syms.length + ((s.seq r).length + 7) / 8 ∧
      ((s.len d).toNat + y.length > s.bufBytes.toNat → ∃ t, exec (.recWrite (idx d) (idx r)) s = .next t ∧
        FailsWith 0x40 .bufFull t ∧ KeepsOnFailure d s t) ∧
      ((s.len d).toNat + y.length ≤ s.bufBytes.toNat → ∃ t, exec (.recWrite (idx d) (idx r)) s = .next t ∧
        Completes 0x40 (BitVec.ofNat 32 y.length) false t ∧ t.buf d = s.buf d ++ y ∧
        (t.len d).toNat = (s.len d).toNat + y.length ∧ KeepsBut [d] [] s t)

/-- The bytes of a record (R245): PRIM, K, the table entries, NBITS and DATA, whatever DATA's padding is. -/
def recordOf (prim : Word) (es : List (Byte × Word)) (n : Nat) (data : List Byte) : List Byte :=
  be32 prim ++ be16 (BitVec.ofNat 16 es.length) ++ es.flatMap (fun e => e.1 :: be32 e.2) ++
    be32 (BitVec.ofNat 32 n) ++ data

/-- A record that can be read (R245, R249): symbols strictly ascending, frequencies not 0, and no payload bits without
an entry. -/
def recordFits (es : List (Byte × Word)) (n : Nat) (data : List Byte) (cap : Nat) : Prop :=
  es.Pairwise (fun a b => a.1 < b.1) ∧ (∀ e ∈ es, e.2 ≠ 0) ∧ n ≤ cap ∧ data.length = (n + 7) / 8 ∧
    (es = [] → n = 0)

/-- The first fields of a record (R245, R249): PRIM, K, and table entries whose symbols ascend strictly and whose
frequencies are not 0, at most K of them; `rest` follows. -/
def recordBegins (m : List Byte) (prim : Word) (K : Nat) (es : List (Byte × Word)) (rest : List Byte) : Prop :=
  K ≤ 256 ∧ es.length ≤ K ∧ es.Pairwise (fun a b => a.1 < b.1) ∧ (∀ e ∈ es, e.2 ≠ 0) ∧
    m = be32 prim ++ be16 (BitVec.ofNat 16 K) ++ es.flatMap (fun e => e.1 :: be32 e.2) ++ rest

/-- R248, R249: a record at RPOS is read: PRIMARY, every FREQ[v], the payload, RPOS and RESULT are written and
HUF_VALID is cleared. RPOS above LEN is ERR_OPERAND and RPOS = LEN a clean end of input. Every short take after the
first byte is ERR_TRUNCATED: in PRIM or K, in a table entry, in NBITS and in the data, whatever the bytes present would
have become. More than 256 entries, an entry out of order or of frequency 0, a length above BS_CAP_BITS, and payload
bits without a table are ERR_MALFORMED. Nothing else changes in any of these. -/
def Obligations.RecReadParsesRecord : Prop :=
  ∀ (s : State) (d r : Fin 4), encode (.recRead (idx d) (idx r)) = enc 0x41 (idx d) (idx r) false ∧
    (∀ (prim : Word) (es : List (Byte × Word)) (n : Nat) (data rest : List Byte),
      recordFits es n data s.bsCapBits.toNat → (s.buf r).drop s.rpos.toNat = recordOf prim es n data ++ rest →
      ∃ t, exec (.recRead (idx d) (idx r)) s = .next t ∧
        Completes 0x41 (BitVec.ofNat 32 (recordOf prim es n data).length) false t ∧ t.primary = prim ∧
        (∀ v, t.freq v = (es.lookup v).getD 0) ∧ t.hufValid = false ∧ t.tree = s.tree ∧
        t.seq d = unpack data n ∧ t.startPos d = 0 ∧ t.endPos d = n ∧
        t.rpos.toNat = s.rpos.toNat + (recordOf prim es n data).length ∧ KeepsRest [] [d] s t) ∧
    (s.rpos.toNat > (s.len r).toNat → ∃ t, exec (.recRead (idx d) (idx r)) s = .next t ∧
      FailsWith 0x41 .operand t ∧ KeepsAll s t) ∧
    (s.rpos.toNat = (s.len r).toNat → ∃ t, exec (.recRead (idx d) (idx r)) s = .next t ∧
      Completes 0x41 0 true t ∧ KeepsAll s t) ∧
    (∀ m : List Byte, m = (s.buf r).drop s.rpos.toNat → s.rpos.toNat < (s.len r).toNat →
      (m.length < 6 → ∃ t, exec (.recRead (idx d) (idx r)) s = .next t ∧ FailsWith 0x41 .truncated t ∧ KeepsAll s t) ∧
      (∀ (prim : Word) (K : BitVec 16) (rest : List Byte), m = be32 prim ++ be16 K ++ rest → K.toNat > 256 →
        ∃ t, exec (.recRead (idx d) (idx r)) s = .next t ∧ FailsWith 0x41 .malformed t ∧ KeepsAll s t) ∧
      (∀ (prim : Word) (K : Nat) (es : List (Byte × Word)) (rest : List Byte), recordBegins m prim K es rest →
        (es.length < K → rest.length < 5 →
          ∃ t, exec (.recRead (idx d) (idx r)) s = .next t ∧ FailsWith 0x41 .truncated t ∧ KeepsAll s t) ∧
        (∀ (v : Byte) (f : Word) (rest' : List Byte), es.length < K → rest = v :: be32 f ++ rest' →
          (f = 0 ∨ ∃ e ∈ es, v ≤ e.1) →
          ∃ t, exec (.recRead (idx d) (idx r)) s = .next t ∧ FailsWith 0x41 .malformed t ∧ KeepsAll s t) ∧
        (es.length = K → rest.length < 4 →
          ∃ t, exec (.recRead (idx d) (idx r)) s = .next t ∧ FailsWith 0x41 .truncated t ∧ KeepsAll s t) ∧
        (∀ (nb : Word) (data : List Byte), es.length = K → rest = be32 nb ++ data →
          (nb.toNat > s.bsCapBits.toNat ∨ es = [] ∧ nb ≠ 0 →
            ∃ t, exec (.recRead (idx d) (idx r)) s = .next t ∧ FailsWith 0x41 .malformed t ∧ KeepsAll s t) ∧
          (nb.toNat ≤ s.bsCapBits.toNat → (es = [] → nb = 0) → data.length < (nb.toNat + 7) / 8 →
            ∃ t, exec (.recRead (idx d) (idx r)) s = .next t ∧ FailsWith 0x41 .truncated t ∧ KeepsAll s t))))

/-- R251: REC_WRITE and then REC_READ at the offset where the record began restore PRIMARY, every FREQ[v] and the
payload, and consume exactly the bytes written. R249 refuses payload bits without a table, so the premise asks for a
nonzero count or an empty payload. -/
def Obligations.RecordRoundTrip : Prop :=
  ∀ (s t : State) (d r e : Fin 4) (p₁ : Word), s.Inv → ((∃ v, s.freq v ≠ 0) ∨ s.seq r = []) →
    exec (.recWrite (idx d) (idx r)) s = .next t → t.err = false →
    ∃ u, exec (.recRead (idx e) (idx d)) { t with rpos := s.len d, primary := p₁, freqs := [] } = .next u ∧
      u.err = false ∧ u.eof = false ∧ u.primary = s.primary ∧ (∀ v, u.freq v = s.freq v) ∧ u.seq e = s.seq r ∧
      u.result = t.result ∧ u.rpos = t.len d

/-! ### Rules over all commands -/

/-- R277: every command completes in one step: BUSY is cleared, IRQ_PEND set, ERRCODE.OP is the word's low byte, ERR says
whether the code is OK, and a failed command has RESULT 0 and EOF 0. -/
def Obligations.EveryCommandCompletes : Prop :=
  ∀ (s : State) (w : Word), s.latch = some w → s.inputs = [] →
    ∃ t, step s = .next t ∧ t.busy = false ∧ t.irqPend = true ∧ t.errOp = opField w ∧
      (t.err = true ↔ t.errCode ≠ none) ∧ (t.err = true → t.result = 0 ∧ t.eof = false) ∧
      t.overrun = s.overrun ∧
      (t.eof = true → opField w = 0x18 ∨ opField w = 0x41)

/-- R279: a word that raises, in decoding or in its command's rule, completes with RESULT 0, EOF 0 and IRQ_PEND 1, and
keeps LEN and every byte below it, every bitstream, PRIMARY, FREQ, ARG, RPOS, TREE, CODE and HUF_VALID; only bytes of
its destination buffer at LEN and above may change. That a word which does not decode changes no byte at all is R117's
"changing no state except the status registers", which the model follows where R279 alone would leave room (log 5). -/
def Obligations.FailureIsAtomic : Prop :=
  ∀ (s t : State) (w : Word), s.latch = some w → s.inputs = [] → step s = .next t → t.err = true →
    t.busy = false ∧ t.eof = false ∧ t.errOp = opField w ∧ t.errCode ≠ none ∧ t.result = 0 ∧ t.irqPend = true ∧
      (∀ v, t.codeOf v = s.codeOf v) ∧ (∀ b, t.buf b = s.buf b) ∧ (∀ b, KeepsBelowLen b s t) ∧
      (∀ e, decode w = .error e → KeepsAll s t) ∧
      (∀ i, decode w = .ok i → KeepsBut ((bufDest i).toList) [] s t)

/-- R89, R46: a command changes no buffer but its destination, every byte above LEN included, and no bitstream but its
destination. -/
def Obligations.OnlyDestinationChanges : Prop :=
  ∀ (i : Instr) (s t : State), exec i s = .next t →
    (∀ b, bufDest i ≠ some b → KeepsBuffer b s t) ∧ (∀ k, streamDest i ≠ some k → KeepsStream k s t)

/-- R38, R39, R42, R48, R221: which commands write the shared registers. No command writes ARG; only BWT_FWD and
REC_READ write PRIMARY; only BS_READ and REC_READ write RPOS; only HUF_COUNT and REC_READ write FREQ; only HUF_BUILD
changes TREE. -/
def Obligations.WritersOfSharedRegisters : Prop :=
  ∀ (i : Instr) (s t : State), exec i s = .next t →
    KeepsHostSide s t ∧
    (i.opcode ≠ 0x20 → i.opcode ≠ 0x41 → t.primary = s.primary) ∧
    (i.opcode ≠ 0x18 → i.opcode ≠ 0x41 → t.rpos = s.rpos) ∧
    (i.opcode ≠ 0x30 → i.opcode ≠ 0x41 → ∀ v, t.freq v = s.freq v) ∧
    (i.opcode ≠ 0x31 → t.tree = s.tree) ∧
    (i.opcode ≠ 0x30 → i.opcode ≠ 0x31 → i.opcode ≠ 0x41 → t.hufValid = s.hufValid)

/-- R37: NONE is written to RESULT by BS_POP, BS_POPS and BS_GET only. -/
def Obligations.NoneOnlyFromPopAndGet : Prop :=
  ∀ (i : Instr) (s t : State), s.Inv → exec i s = .next t → t.result = 0xFFFFFFFF →
    i.opcode = 0x13 ∨ i.opcode = 0x14 ∨ i.opcode = 0x16

/-! ### The invariant -/

/-- R6, R40, R45, R53, R56: the reset state is legal; its parameters are the values the spec assumes when none is given
(log 1), its draw numbers the model's (log 2). -/
def Obligations.ResetStateIsLegal : Prop := State.reset.Inv

/-- R40, R41, R45, R53: every step from a legal state, of the engine, of the host or of the reset pin, leads to a
legal state: LEN within BUF_BYTES, END within BS_CAP_BITS, memories and FREQ in canonical form, and TREE = Build(FREQ)
while HUF_VALID = 1. -/
def Obligations.StepKeepsLegal : Prop :=
  ∀ s t : State, s.Inv → step s = .next t → t.Inv

/-! ### The host interface -/

/-- R31, with R32, R33, R37 to R39, R41, R42, R46 and R48: the register at each offset, and what it answers. Read-only
registers and the reserved offsets ignore writes; CMD and the reserved offsets read 0. A read of ID, VERSION, PARAM_BUF
or PARAM_BS always answers its constant; while idle a read of RESULT, ARG, PRIMARY, RPOS, LEN[i], BS_START[k],
BS_END[k] or FREQ[u] answers what it holds, and changes nothing, END[k] being START[k] plus the number of bits. An
aligned 4-byte access below 0x4000 reaches the register at that offset, so that R90 and the registers' own rules give
the answer of every other one. -/
def Obligations.RegisterMap : Prop :=
  ([0x000, 0x004, 0x008, 0x00C, 0x010, 0x014, 0x018, 0x01C, 0x020, 0x024, 0x028, 0x02C, 0x030, 0x034].map regAt =
    [.id, .version, .paramBuf, .paramBs, .cmd, .status, .errcode, .result, .arg, .primary, .rpos, .nsym, .ctrl,
      .irq]) ∧
  (∀ i : Fin 4, regAt (0x040 + 4 * i) = .len i ∧ regAt (0x060 + 8 * i) = .bsStart i ∧
    regAt (0x064 + 8 * i) = .bsEnd i) ∧
  (∀ v : Byte, regAt (0x400 + 4 * v.toNat) = .freq v ∧ regAt (0x800 + 4 * v.toNat) = .codeLen v) ∧
  (∀ (v : Byte) (w : Nat), w < 8 → regAt (0x2000 + 32 * v.toNat + 4 * w) = .codeBits v w) ∧
  (∀ a, a % 4 = 0 → (0x038 ≤ a ∧ a < 0x040 ∨ 0x050 ≤ a ∧ a < 0x060 ∨ 0x080 ≤ a ∧ a < 0x400 ∨
    0xC00 ≤ a ∧ a < 0x2000) → regAt a = .reserved) ∧
  (∀ (s : State) (v : Word) (k : Fin 4) (u : Byte) (w : Nat),
    ∀ r ∈ [Reg.id, .version, .paramBuf, .paramBs, .errcode, .result, .nsym, .bsStart k, .bsEnd k, .codeLen u,
      .codeBits u w, .reserved], s.writeReg r v = s) ∧
  (∀ s : State, s.readReg .cmd = 0 ∧ s.readReg .reserved = 0) ∧
  (∀ (s : State) (addr : Addr), addr.toNat < 0x4000 → addr.toNat % 4 = 0 →
    s.target? addr 4 = some (.reg (regAt addr.toNat)) ∧ s.readTarget 4 (.reg (regAt addr.toNat)) =
      s.readReg (regAt addr.toNat) ∧
    ∀ v, s.writeTarget 4 v (.reg (regAt addr.toNat)) = s.writeReg (regAt addr.toNat) v) ∧
  (∀ s : State, s.memRead 0x000 4 = (s, .data 0x42575443) ∧ s.memRead 0x004 4 = (s, .data 0x00000001) ∧
    s.memRead 0x008 4 = (s, .data s.bufBytes) ∧ s.memRead 0x00C 4 = (s, .data s.bsCapBits)) ∧
  ∀ s : State, s.busy = false →
    s.memRead 0x01C 4 = (s, .data s.result) ∧ s.memRead 0x020 4 = (s, .data s.arg) ∧
    s.memRead 0x024 4 = (s, .data s.primary) ∧ s.memRead 0x028 4 = (s, .data s.rpos) ∧
    (∀ i : Fin 4, s.memRead (BitVec.ofNat 27 (0x040 + 4 * i)) 4 = (s, .data (s.len i)) ∧
      s.memRead (BitVec.ofNat 27 (0x060 + 8 * i)) 4 = (s, .data (BitVec.ofNat 32 (s.startPos i))) ∧
      s.memRead (BitVec.ofNat 27 (0x064 + 8 * i)) 4 = (s, .data (BitVec.ofNat 32 (s.endPos i))) ∧
      s.endPos i = s.startPos i + (s.seq i).length) ∧
    ∀ u : Byte, s.memRead (BitVec.ofNat 27 (0x400 + 4 * u.toNat)) 4 = (s, .data (s.freq u))

/-- R81, R83, R86: an access is a bus error exactly when it is not a 4-byte aligned access of the register region and
not a naturally aligned 1, 2 or 4-byte access inside a buffer; a bus error changes nothing. That every byte of a window
access must be mapped is the model's reading (log 10). -/
def Obligations.BusErrorChangesNothing : Prop :=
  ∀ (s : State) (addr : Addr) (n : Nat) (v : Word),
    ((s.memRead addr n).2 = .busErr ↔
      ¬ ((addr.toNat < 0x4000 ∧ n = 4 ∧ addr.toNat % 4 = 0) ∨
        ∃ (i : Fin 4) (j : Nat), addr.toNat = 0x01000000 * (i + 1) + j ∧ j < 0x01000000 ∧
          j + n ≤ s.bufBytes.toNat ∧ (n = 1 ∨ n = 2 ∨ n = 4) ∧ addr.toNat % n = 0)) ∧
    ((s.memWrite addr n v).2 = .busErr ↔ (s.memRead addr n).2 = .busErr) ∧
    ((s.memRead addr n).2 = .busErr → (s.memRead addr n).1 = s ∧ (s.memWrite addr n v).1 = s)

/-- R90: while BUSY = 1 a legal access outside the ALWAYS set reads 0 or is dropped, and sets OVERRUN and nothing else;
the ALWAYS set is accessed normally. -/
def Obligations.BusyBlocksAccess : Prop :=
  ∀ (s : State) (addr : Addr) (n : Nat) (v : Word) (t : Target), s.target? addr n = some t →
    (s.busy = true → t ∉ [.reg .id, .reg .version, .reg .paramBuf, .reg .paramBs, .reg .status, .reg .errcode,
        .reg .ctrl, .reg .irq] →
      s.memRead addr n = ({ s with overrun := true }, .data 0) ∧
      s.memWrite addr n v = ({ s with overrun := true }, .done)) ∧
    (s.busy = false ∨ t ∈ [.reg .id, .reg .version, .reg .paramBuf, .reg .paramBs, .reg .status, .reg .errcode,
        .reg .ctrl, .reg .irq] →
      s.memRead addr n = (s, .data (s.readTarget n t)) ∧ s.memWrite addr n v = (s.writeTarget n v t, .done))

/-- R40, R82, R84, R85: Buf(i) is the bytes of BUFMEM_i below LEN[i]. Window i maps byte j to BUFMEM_i[j] at
0x0100_0000·(i+1) + j. A read gives the bytes of the buffer,
lowest address in the low bits; a write while idle stores the low bytes of the data in that order, the same access
reads them back, and nothing but those bytes changes, LEN included. -/
def Obligations.WindowWriteThenRead : Prop :=
  (∀ (s : State) (i : Fin 4) (j : Nat),
    (s.buf i)[j]? = if j < (s.len i).toNat then some (s.byteAt i j) else none) ∧
  (∀ (s : State) (addr : Addr) (n : Nat) (i : Fin 4) (j : Nat), addr.toNat = 0x01000000 * (i + 1) + j →
    j < 0x01000000 → j + n ≤ s.bufBytes.toNat → (n = 1 ∨ n = 2 ∨ n = 4) → addr.toNat % n = 0 →
    s.target? addr n = some (.window i j)) ∧
  ∀ (s : State) (addr : Addr) (n : Nat) (v : Word) (i : Fin 4) (j : Nat), s.busy = false →
    s.target? addr n = some (.window i j) →
    addr.toNat = 0x01000000 * (i + 1) + j ∧
    (∃ x : Word, s.memRead addr n = (s, .data x) ∧ x.toNat < 2 ^ (8 * n) ∧
      ∀ k, k < n → x.extractLsb' (8 * k) 8 = s.byteAt i (j + k)) ∧
    ∃ t, s.memWrite addr n v = (t, .done) ∧ t = { s with bufs := t.bufs } ∧
      (∀ k, k < n → t.byteAt i (j + k) = v.extractLsb' (8 * k) 8) ∧
      (∀ k, (k < j ∨ j + n ≤ k) → t.byteAt i k = s.byteAt i k) ∧ t.len i = s.len i ∧
      (∀ i', i' ≠ i → KeepsBuffer i' s t) ∧
      t.memRead addr n = (t, .data (BitVec.ofNat 32 (v.toNat % 2 ^ (8 * n))))

/-- R32, R38, R39, R41, R42, R48: the host's register writes while idle: ARG, PRIMARY and RPOS take any value, LEN takes
a value up to BUF_BYTES and ignores one above, and a FREQ write changes that count and clears HUF_VALID even when the
value is the old one. Nothing else changes. -/
def Obligations.HostRegisterWrites : Prop :=
  ∀ (s : State) (v : Word), s.busy = false →
    (s.memWrite 0x020 4 v = ({ s with arg := v }, .done)) ∧
    (s.memWrite 0x024 4 v = ({ s with primary := v }, .done)) ∧
    (s.memWrite 0x028 4 v = ({ s with rpos := v }, .done)) ∧
    (∀ i : Fin 4, ∃ t, s.memWrite (BitVec.ofNat 27 (0x040 + 4 * i)) 4 v = (t, .done) ∧ t = { s with bufs := t.bufs } ∧
      t.len i = (if v.toNat ≤ s.bufBytes.toNat then v else s.len i) ∧
      (∀ k j, t.byteAt k j = s.byteAt k j) ∧ (∀ k, k ≠ i → t.len k = s.len k)) ∧
    (∀ u : Byte, ∃ t, s.memWrite (BitVec.ofNat 27 (0x400 + 4 * u.toNat)) 4 v = (t, .done) ∧
      t = { s with freqs := t.freqs, hufValid := false } ∧ (∀ u', t.freq u' = if u' = u then v else s.freq u'))

/-- R34, R90: a CMD write while idle latches the word, sets BUSY and clears ERR and EOF, and nothing else; while busy it
is dropped and sets OVERRUN, so the command in flight stays; CMD reads 0. -/
def Obligations.CmdWriteIssues : Prop :=
  ∀ (s : State) (w : Word),
    (s.busy = false → s.memWrite 0x010 4 w = ({ s with latch := some w, err := false, eof := false }, .done) ∧
      (s.memRead 0x010 4).2 = .data 0) ∧
    (∀ w₀, s.latch = some w₀ → s.memWrite 0x010 4 w = ({ s with overrun := true }, .done))

/-- R44, R302, R303: a CTRL write with bit 1 set resets HRC at once, busy or not: the command in flight is gone without
a completion, and STATUS, ERRCODE, RESULT, LEN, START, END, FREQ, PRIMARY, ARG, RPOS, IRQ_EN and IRQ_PEND are 0, there
is no tree, and bit 0 is ignored; without bit 1 the write sets IRQ_EN to bit 0. -/
def Obligations.ResetsClearState : Prop :=
  ∀ (s : State) (v : Word),
    (v.getLsbD 1 = false → s.memWrite 0x030 4 v = ({ s with irqEn := v.getLsbD 0 }, .done)) ∧
    (v.getLsbD 1 = true → ∃ t, s.memWrite 0x030 4 v = (t, .done) ∧
      t.latch = none ∧ engineStep t = .next t ∧ t.statusWord = 0 ∧ t.errcodeWord = 0 ∧ t.result = 0 ∧ t.arg = 0 ∧
      t.primary = 0 ∧ t.rpos = 0 ∧ t.tree = none ∧ t.ctrlWord = 0 ∧ t.irqWord = 0 ∧ t.irqOut = false ∧
      t.nsymWord = 0 ∧ (∀ i, t.len i = 0 ∧ t.startPos i = 0 ∧ t.endPos i = 0) ∧
      (∀ u, t.freq u = 0 ∧ t.codeLenWord u = 0 ∧ ∀ k, t.codeBitsWord u k = 0) ∧
      t.bufBytes = s.bufBytes ∧ t.bsCapBits = s.bsCapBits)

/-- R56, R33: what the host reads after reset, register by register, and the rest of the state: no command in flight,
no tree, the interrupt output deasserted; after State.reset, with the parameters the spec assumes, after a hardware
reset and after a soft reset, which both keep the parameters. -/
def Obligations.ResetRegisterValues : Prop :=
  State.reset.readReg .paramBuf = 0x00200000 ∧ State.reset.readReg .paramBs = 0x08000000 ∧
  (∀ s : State, s.hardReset.readReg .paramBuf = s.bufBytes ∧ s.hardReset.readReg .paramBs = s.bsCapBits ∧
    s.softReset.readReg .paramBuf = s.bufBytes ∧ s.softReset.readReg .paramBs = s.bsCapBits) ∧
  ∀ t : State, (t = State.reset ∨ ∃ s : State, t = s.hardReset ∨ t = s.softReset) →
    t.readReg .id = 0x42575443 ∧ t.readReg .version = 1 ∧ t.readReg .paramBuf = t.bufBytes ∧
    t.readReg .paramBs = t.bsCapBits ∧ t.latch = none ∧ t.tree = none ∧ t.irqOut = false ∧
    ∀ r : Reg, r ∉ [.id, .version, .paramBuf, .paramBs] → t.readReg r = 0

/-- R35, R36, R44, R47, R275, R284, R285: the status registers' layout, the error codes' numbers, what CTRL and IRQ
read, the write effects, and the interrupt output. -/
def Obligations.StatusAndInterrupt : Prop :=
  (codeByte none = 0 ∧ [CmdError.illegal, .operand, .precond, .notReady, .noCode, .bufFull, .bsFull, .malformed,
    .truncated, .badCode].map (fun c => codeByte (some c)) = [1, 2, 3, 4, 5, 6, 7, 8, 9, 10]) ∧
  ∀ (s : State) (v : Word),
    s.busy = s.latch.isSome ∧ s.readReg .ctrl = BitVec.ofNat 32 s.irqEn.toNat ∧
    s.readReg .irq = BitVec.ofNat 32 s.irqPend.toNat ∧ s.irqOut = (s.irqEn && s.irqPend) ∧
    (s.readReg .status).getLsbD 0 = s.busy ∧ (s.readReg .status).getLsbD 1 = s.err ∧
    (s.readReg .status).getLsbD 2 = s.eof ∧ (s.readReg .status).getLsbD 3 = s.hufValid ∧
    (s.readReg .status).getLsbD 4 = s.overrun ∧ (∀ b, 5 ≤ b → (s.readReg .status).getLsbD b = false) ∧
    (s.readReg .errcode).extractLsb' 8 8 = s.errOp ∧ (s.readReg .errcode).extractLsb' 0 8 = codeByte s.errCode ∧
    (s.readReg .errcode).extractLsb' 16 16 = 0 ∧ (codeByte s.errCode).toNat ≤ 10 ∧
    s.memWrite 0x014 4 v = ({ s with overrun := if v.getLsbD 4 then false else s.overrun }, .done) ∧
    s.memWrite 0x034 4 v = ({ s with irqPend := if v.getLsbD 0 then false else s.irqPend }, .done) ∧
    (s.irqOut = true ↔ s.readReg .ctrl = 1 ∧ s.readReg .irq = 1)

/-- R43, R50, R51: while HUF_VALID = 1 the code registers show the code table, bit j of a code word in bit (j mod 32) of
word (j div 32), and 0 elsewhere; while HUF_VALID = 0 they read 0. -/
def Obligations.CodeRegistersShowCodes : Prop :=
  ∀ (s : State) (v : Byte), s.Inv →
    (s.hufValid = false → s.readReg .nsym = 0 ∧ s.readReg (.codeLen v) = 0 ∧ ∀ w, s.readReg (.codeBits v w) = 0) ∧
    (∀ t, s.hufValid = true → s.tree = some t →
      (s.readReg .nsym).toNat = t.leaves ∧
      (t.code v = none → s.readReg (.codeLen v) = 0 ∧ ∀ w, s.readReg (.codeBits v w) = 0) ∧
      (∀ p, t.code v = some p → (s.readReg (.codeLen v)).toNat = p.length ∧ 1 ≤ p.length ∧ p.length ≤ 255 ∧
        ∀ w b, b < 32 → (s.readReg (.codeBits v w)).getLsbD b = p.getD (32 * w + b) false))

/-- R91, R312: a command reads the state as it stood after its CMD write: a host access made while it is in flight
that is blocked changes nothing of its effect but OVERRUN. -/
def Obligations.BlockedAccessDoesNotDisturb : Prop :=
  ∀ (s u : State) (addr : Addr) (n : Nat) (v : Word) (t : Target), s.busy = true →
    s.target? addr n = some t → t.always = false → engineStep s = .next u →
    engineStep (s.memRead addr n).1 = .next { u with overrun := true } ∧
    engineStep (s.memWrite addr n v).1 = .next { u with overrun := true }
end

