-- ==== Sys2Proof/Laws/State.lean ====
section
/-! SUPPORT. One lemma per field per update of State: what each operation writes and what it leaves. -/

namespace Sys2Proof.Machine

variable (s : State)

/-! ### setBufAt -/

@[simp] theorem setBufAt_bufBytes (i : Fin 4) (b : Buffer) : (s.setBufAt i b).bufBytes = s.bufBytes := rfl
@[simp] theorem setBufAt_bsCapBits (i : Fin 4) (b : Buffer) : (s.setBufAt i b).bsCapBits = s.bsCapBits := rfl
@[simp] theorem setBufAt_latch (i : Fin 4) (b : Buffer) : (s.setBufAt i b).latch = s.latch := rfl
@[simp] theorem setBufAt_err (i : Fin 4) (b : Buffer) : (s.setBufAt i b).err = s.err := rfl
@[simp] theorem setBufAt_eof (i : Fin 4) (b : Buffer) : (s.setBufAt i b).eof = s.eof := rfl
@[simp] theorem setBufAt_hufValid (i : Fin 4) (b : Buffer) : (s.setBufAt i b).hufValid = s.hufValid := rfl
@[simp] theorem setBufAt_overrun (i : Fin 4) (b : Buffer) : (s.setBufAt i b).overrun = s.overrun := rfl
@[simp] theorem setBufAt_errOp (i : Fin 4) (b : Buffer) : (s.setBufAt i b).errOp = s.errOp := rfl
@[simp] theorem setBufAt_errCode (i : Fin 4) (b : Buffer) : (s.setBufAt i b).errCode = s.errCode := rfl
@[simp] theorem setBufAt_result (i : Fin 4) (b : Buffer) : (s.setBufAt i b).result = s.result := rfl
@[simp] theorem setBufAt_arg (i : Fin 4) (b : Buffer) : (s.setBufAt i b).arg = s.arg := rfl
@[simp] theorem setBufAt_primary (i : Fin 4) (b : Buffer) : (s.setBufAt i b).primary = s.primary := rfl
@[simp] theorem setBufAt_rpos (i : Fin 4) (b : Buffer) : (s.setBufAt i b).rpos = s.rpos := rfl
@[simp] theorem setBufAt_irqEn (i : Fin 4) (b : Buffer) : (s.setBufAt i b).irqEn = s.irqEn := rfl
@[simp] theorem setBufAt_irqPend (i : Fin 4) (b : Buffer) : (s.setBufAt i b).irqPend = s.irqPend := rfl
@[simp] theorem setBufAt_bufs (i : Fin 4) (b : Buffer) : (s.setBufAt i b).bufs = s.bufs.set i b := rfl
@[simp] theorem setBufAt_streams (i : Fin 4) (b : Buffer) : (s.setBufAt i b).streams = s.streams := rfl
@[simp] theorem setBufAt_freqs (i : Fin 4) (b : Buffer) : (s.setBufAt i b).freqs = s.freqs := rfl
@[simp] theorem setBufAt_tree (i : Fin 4) (b : Buffer) : (s.setBufAt i b).tree = s.tree := rfl
@[simp] theorem setBufAt_inputs (i : Fin 4) (b : Buffer) : (s.setBufAt i b).inputs = s.inputs := rfl
@[simp] theorem setBufAt_busResp (i : Fin 4) (b : Buffer) : (s.setBufAt i b).busResp = s.busResp := rfl
@[simp] theorem setBufAt_draws (i : Fin 4) (b : Buffer) : (s.setBufAt i b).draws = s.draws := rfl

/-! ### setBuf -/

@[simp] theorem setBuf_bufBytes (i : Fin 4) (x : List Byte) : (s.setBuf i x).bufBytes = s.bufBytes := rfl
@[simp] theorem setBuf_bsCapBits (i : Fin 4) (x : List Byte) : (s.setBuf i x).bsCapBits = s.bsCapBits := rfl
@[simp] theorem setBuf_latch (i : Fin 4) (x : List Byte) : (s.setBuf i x).latch = s.latch := rfl
@[simp] theorem setBuf_err (i : Fin 4) (x : List Byte) : (s.setBuf i x).err = s.err := rfl
@[simp] theorem setBuf_eof (i : Fin 4) (x : List Byte) : (s.setBuf i x).eof = s.eof := rfl
@[simp] theorem setBuf_hufValid (i : Fin 4) (x : List Byte) : (s.setBuf i x).hufValid = s.hufValid := rfl
@[simp] theorem setBuf_overrun (i : Fin 4) (x : List Byte) : (s.setBuf i x).overrun = s.overrun := rfl
@[simp] theorem setBuf_errOp (i : Fin 4) (x : List Byte) : (s.setBuf i x).errOp = s.errOp := rfl
@[simp] theorem setBuf_errCode (i : Fin 4) (x : List Byte) : (s.setBuf i x).errCode = s.errCode := rfl
@[simp] theorem setBuf_result (i : Fin 4) (x : List Byte) : (s.setBuf i x).result = s.result := rfl
@[simp] theorem setBuf_arg (i : Fin 4) (x : List Byte) : (s.setBuf i x).arg = s.arg := rfl
@[simp] theorem setBuf_primary (i : Fin 4) (x : List Byte) : (s.setBuf i x).primary = s.primary := rfl
@[simp] theorem setBuf_rpos (i : Fin 4) (x : List Byte) : (s.setBuf i x).rpos = s.rpos := rfl
@[simp] theorem setBuf_irqEn (i : Fin 4) (x : List Byte) : (s.setBuf i x).irqEn = s.irqEn := rfl
@[simp] theorem setBuf_irqPend (i : Fin 4) (x : List Byte) : (s.setBuf i x).irqPend = s.irqPend := rfl
@[simp] theorem setBuf_bufs (i : Fin 4) (x : List Byte) : (s.setBuf i x).bufs = s.bufs.set i ⟨BitVec.ofNat 32 x.length, Memory.ofSeq 0 x, s.draws⟩ := rfl
@[simp] theorem setBuf_streams (i : Fin 4) (x : List Byte) : (s.setBuf i x).streams = s.streams := rfl
@[simp] theorem setBuf_freqs (i : Fin 4) (x : List Byte) : (s.setBuf i x).freqs = s.freqs := rfl
@[simp] theorem setBuf_tree (i : Fin 4) (x : List Byte) : (s.setBuf i x).tree = s.tree := rfl
@[simp] theorem setBuf_inputs (i : Fin 4) (x : List Byte) : (s.setBuf i x).inputs = s.inputs := rfl
@[simp] theorem setBuf_busResp (i : Fin 4) (x : List Byte) : (s.setBuf i x).busResp = s.busResp := rfl
@[simp] theorem setBuf_draws (i : Fin 4) (x : List Byte) : (s.setBuf i x).draws = s.draws + 1 := rfl

/-! ### scratch -/

@[simp] theorem scratch_bufBytes (i : Fin 4) : (s.scratch i).bufBytes = s.bufBytes := rfl
@[simp] theorem scratch_bsCapBits (i : Fin 4) : (s.scratch i).bsCapBits = s.bsCapBits := rfl
@[simp] theorem scratch_latch (i : Fin 4) : (s.scratch i).latch = s.latch := rfl
@[simp] theorem scratch_err (i : Fin 4) : (s.scratch i).err = s.err := rfl
@[simp] theorem scratch_eof (i : Fin 4) : (s.scratch i).eof = s.eof := rfl
@[simp] theorem scratch_hufValid (i : Fin 4) : (s.scratch i).hufValid = s.hufValid := rfl
@[simp] theorem scratch_overrun (i : Fin 4) : (s.scratch i).overrun = s.overrun := rfl
@[simp] theorem scratch_errOp (i : Fin 4) : (s.scratch i).errOp = s.errOp := rfl
@[simp] theorem scratch_errCode (i : Fin 4) : (s.scratch i).errCode = s.errCode := rfl
@[simp] theorem scratch_result (i : Fin 4) : (s.scratch i).result = s.result := rfl
@[simp] theorem scratch_arg (i : Fin 4) : (s.scratch i).arg = s.arg := rfl
@[simp] theorem scratch_primary (i : Fin 4) : (s.scratch i).primary = s.primary := rfl
@[simp] theorem scratch_rpos (i : Fin 4) : (s.scratch i).rpos = s.rpos := rfl
@[simp] theorem scratch_irqEn (i : Fin 4) : (s.scratch i).irqEn = s.irqEn := rfl
@[simp] theorem scratch_irqPend (i : Fin 4) : (s.scratch i).irqPend = s.irqPend := rfl
@[simp] theorem scratch_bufs (i : Fin 4) : (s.scratch i).bufs = s.bufs.set i ⟨s.len i, Memory.ofSeq 0 (s.buf i), s.draws⟩ := rfl
@[simp] theorem scratch_streams (i : Fin 4) : (s.scratch i).streams = s.streams := rfl
@[simp] theorem scratch_freqs (i : Fin 4) : (s.scratch i).freqs = s.freqs := rfl
@[simp] theorem scratch_tree (i : Fin 4) : (s.scratch i).tree = s.tree := rfl
@[simp] theorem scratch_inputs (i : Fin 4) : (s.scratch i).inputs = s.inputs := rfl
@[simp] theorem scratch_busResp (i : Fin 4) : (s.scratch i).busResp = s.busResp := rfl
@[simp] theorem scratch_draws (i : Fin 4) : (s.scratch i).draws = s.draws + 1 := rfl

/-! ### putSeq -/

@[simp] theorem putSeq_bufBytes (k : Fin 4) (p : Word) (x : List Bool) : (s.putSeq k p x).bufBytes = s.bufBytes := rfl
@[simp] theorem putSeq_bsCapBits (k : Fin 4) (p : Word) (x : List Bool) : (s.putSeq k p x).bsCapBits = s.bsCapBits := rfl
@[simp] theorem putSeq_latch (k : Fin 4) (p : Word) (x : List Bool) : (s.putSeq k p x).latch = s.latch := rfl
@[simp] theorem putSeq_err (k : Fin 4) (p : Word) (x : List Bool) : (s.putSeq k p x).err = s.err := rfl
@[simp] theorem putSeq_eof (k : Fin 4) (p : Word) (x : List Bool) : (s.putSeq k p x).eof = s.eof := rfl
@[simp] theorem putSeq_hufValid (k : Fin 4) (p : Word) (x : List Bool) : (s.putSeq k p x).hufValid = s.hufValid := rfl
@[simp] theorem putSeq_overrun (k : Fin 4) (p : Word) (x : List Bool) : (s.putSeq k p x).overrun = s.overrun := rfl
@[simp] theorem putSeq_errOp (k : Fin 4) (p : Word) (x : List Bool) : (s.putSeq k p x).errOp = s.errOp := rfl
@[simp] theorem putSeq_errCode (k : Fin 4) (p : Word) (x : List Bool) : (s.putSeq k p x).errCode = s.errCode := rfl
@[simp] theorem putSeq_result (k : Fin 4) (p : Word) (x : List Bool) : (s.putSeq k p x).result = s.result := rfl
@[simp] theorem putSeq_arg (k : Fin 4) (p : Word) (x : List Bool) : (s.putSeq k p x).arg = s.arg := rfl
@[simp] theorem putSeq_primary (k : Fin 4) (p : Word) (x : List Bool) : (s.putSeq k p x).primary = s.primary := rfl
@[simp] theorem putSeq_rpos (k : Fin 4) (p : Word) (x : List Bool) : (s.putSeq k p x).rpos = s.rpos := rfl
@[simp] theorem putSeq_irqEn (k : Fin 4) (p : Word) (x : List Bool) : (s.putSeq k p x).irqEn = s.irqEn := rfl
@[simp] theorem putSeq_irqPend (k : Fin 4) (p : Word) (x : List Bool) : (s.putSeq k p x).irqPend = s.irqPend := rfl
@[simp] theorem putSeq_bufs (k : Fin 4) (p : Word) (x : List Bool) : (s.putSeq k p x).bufs = s.bufs := rfl
@[simp] theorem putSeq_streams (k : Fin 4) (p : Word) (x : List Bool) : (s.putSeq k p x).streams = s.streams.set k ⟨p, x⟩ := rfl
@[simp] theorem putSeq_freqs (k : Fin 4) (p : Word) (x : List Bool) : (s.putSeq k p x).freqs = s.freqs := rfl
@[simp] theorem putSeq_tree (k : Fin 4) (p : Word) (x : List Bool) : (s.putSeq k p x).tree = s.tree := rfl
@[simp] theorem putSeq_inputs (k : Fin 4) (p : Word) (x : List Bool) : (s.putSeq k p x).inputs = s.inputs := rfl
@[simp] theorem putSeq_busResp (k : Fin 4) (p : Word) (x : List Bool) : (s.putSeq k p x).busResp = s.busResp := rfl
@[simp] theorem putSeq_draws (k : Fin 4) (p : Word) (x : List Bool) : (s.putSeq k p x).draws = s.draws := rfl

/-! ### setFreqs -/

@[simp] theorem setFreqs_bufBytes (F : Byte → Word) : (s.setFreqs F).bufBytes = s.bufBytes := rfl
@[simp] theorem setFreqs_bsCapBits (F : Byte → Word) : (s.setFreqs F).bsCapBits = s.bsCapBits := rfl
@[simp] theorem setFreqs_latch (F : Byte → Word) : (s.setFreqs F).latch = s.latch := rfl
@[simp] theorem setFreqs_err (F : Byte → Word) : (s.setFreqs F).err = s.err := rfl
@[simp] theorem setFreqs_eof (F : Byte → Word) : (s.setFreqs F).eof = s.eof := rfl
@[simp] theorem setFreqs_hufValid (F : Byte → Word) : (s.setFreqs F).hufValid = false := rfl
@[simp] theorem setFreqs_overrun (F : Byte → Word) : (s.setFreqs F).overrun = s.overrun := rfl
@[simp] theorem setFreqs_errOp (F : Byte → Word) : (s.setFreqs F).errOp = s.errOp := rfl
@[simp] theorem setFreqs_errCode (F : Byte → Word) : (s.setFreqs F).errCode = s.errCode := rfl
@[simp] theorem setFreqs_result (F : Byte → Word) : (s.setFreqs F).result = s.result := rfl
@[simp] theorem setFreqs_arg (F : Byte → Word) : (s.setFreqs F).arg = s.arg := rfl
@[simp] theorem setFreqs_primary (F : Byte → Word) : (s.setFreqs F).primary = s.primary := rfl
@[simp] theorem setFreqs_rpos (F : Byte → Word) : (s.setFreqs F).rpos = s.rpos := rfl
@[simp] theorem setFreqs_irqEn (F : Byte → Word) : (s.setFreqs F).irqEn = s.irqEn := rfl
@[simp] theorem setFreqs_irqPend (F : Byte → Word) : (s.setFreqs F).irqPend = s.irqPend := rfl
@[simp] theorem setFreqs_bufs (F : Byte → Word) : (s.setFreqs F).bufs = s.bufs := rfl
@[simp] theorem setFreqs_streams (F : Byte → Word) : (s.setFreqs F).streams = s.streams := rfl
@[simp] theorem setFreqs_freqs (F : Byte → Word) : (s.setFreqs F).freqs = freqTable F := rfl
@[simp] theorem setFreqs_tree (F : Byte → Word) : (s.setFreqs F).tree = s.tree := rfl
@[simp] theorem setFreqs_inputs (F : Byte → Word) : (s.setFreqs F).inputs = s.inputs := rfl
@[simp] theorem setFreqs_busResp (F : Byte → Word) : (s.setFreqs F).busResp = s.busResp := rfl
@[simp] theorem setFreqs_draws (F : Byte → Word) : (s.setFreqs F).draws = s.draws := rfl

/-! ### complete -/

@[simp] theorem complete_bufBytes (op : Byte) (c : Option CmdError) (e : Bool) (r : Word) : (s.complete op c e r).bufBytes = s.bufBytes := rfl
@[simp] theorem complete_bsCapBits (op : Byte) (c : Option CmdError) (e : Bool) (r : Word) : (s.complete op c e r).bsCapBits = s.bsCapBits := rfl
@[simp] theorem complete_latch (op : Byte) (c : Option CmdError) (e : Bool) (r : Word) : (s.complete op c e r).latch = none := rfl
@[simp] theorem complete_err (op : Byte) (c : Option CmdError) (e : Bool) (r : Word) : (s.complete op c e r).err = c.isSome := rfl
@[simp] theorem complete_eof (op : Byte) (c : Option CmdError) (e : Bool) (r : Word) : (s.complete op c e r).eof = (c.isNone && e) := rfl
@[simp] theorem complete_hufValid (op : Byte) (c : Option CmdError) (e : Bool) (r : Word) : (s.complete op c e r).hufValid = s.hufValid := rfl
@[simp] theorem complete_overrun (op : Byte) (c : Option CmdError) (e : Bool) (r : Word) : (s.complete op c e r).overrun = s.overrun := rfl
@[simp] theorem complete_errOp (op : Byte) (c : Option CmdError) (e : Bool) (r : Word) : (s.complete op c e r).errOp = op := rfl
@[simp] theorem complete_errCode (op : Byte) (c : Option CmdError) (e : Bool) (r : Word) : (s.complete op c e r).errCode = c := rfl
@[simp] theorem complete_result (op : Byte) (c : Option CmdError) (e : Bool) (r : Word) : (s.complete op c e r).result = if c.isNone then r else 0 := rfl
@[simp] theorem complete_arg (op : Byte) (c : Option CmdError) (e : Bool) (r : Word) : (s.complete op c e r).arg = s.arg := rfl
@[simp] theorem complete_primary (op : Byte) (c : Option CmdError) (e : Bool) (r : Word) : (s.complete op c e r).primary = s.primary := rfl
@[simp] theorem complete_rpos (op : Byte) (c : Option CmdError) (e : Bool) (r : Word) : (s.complete op c e r).rpos = s.rpos := rfl
@[simp] theorem complete_irqEn (op : Byte) (c : Option CmdError) (e : Bool) (r : Word) : (s.complete op c e r).irqEn = s.irqEn := rfl
@[simp] theorem complete_irqPend (op : Byte) (c : Option CmdError) (e : Bool) (r : Word) : (s.complete op c e r).irqPend = true := rfl
@[simp] theorem complete_bufs (op : Byte) (c : Option CmdError) (e : Bool) (r : Word) : (s.complete op c e r).bufs = s.bufs := rfl
@[simp] theorem complete_streams (op : Byte) (c : Option CmdError) (e : Bool) (r : Word) : (s.complete op c e r).streams = s.streams := rfl
@[simp] theorem complete_freqs (op : Byte) (c : Option CmdError) (e : Bool) (r : Word) : (s.complete op c e r).freqs = s.freqs := rfl
@[simp] theorem complete_tree (op : Byte) (c : Option CmdError) (e : Bool) (r : Word) : (s.complete op c e r).tree = s.tree := rfl
@[simp] theorem complete_inputs (op : Byte) (c : Option CmdError) (e : Bool) (r : Word) : (s.complete op c e r).inputs = s.inputs := rfl
@[simp] theorem complete_busResp (op : Byte) (c : Option CmdError) (e : Bool) (r : Word) : (s.complete op c e r).busResp = s.busResp := rfl
@[simp] theorem complete_draws (op : Byte) (c : Option CmdError) (e : Bool) (r : Word) : (s.complete op c e r).draws = s.draws := rfl

end Sys2Proof.Machine
end

