-- ==== Sys2Proof/Laws/Memory.lean ====
section
/-! SUPPORT. Laws of the sparse memories: read after write, and that every operation keeps the canonical form. -/

namespace Sys2Proof.Machine.Memory

variable {α : Type}

theorem lookup_put (m : List (Nat × α)) (k j : Nat) (v : α) :
    lookup (put k v m) j = if k = j then some v else lookup m j := by
  induction m with
  | nil => simp [put, lookup]
  | cons e m ih =>
    obtain ⟨a, w⟩ := e
    by_cases h1 : k < a
    · simp [put, lookup, h1]
    · by_cases h2 : k = a
      · subst h2; by_cases h : k = j <;> simp [put, lookup, h]
      · by_cases h : a = j
        · subst h; simp [put, lookup, h1, h2]
        · simp [put, lookup, h1, h2, h, ih]

theorem lookup_erase (m : List (Nat × α)) (k j : Nat) :
    lookup (erase k m) j = if k = j then none else lookup m j := by
  induction m with
  | nil => simp [erase, lookup]
  | cons e m ih =>
    obtain ⟨a, w⟩ := e
    by_cases h : a = k
    · subst h
      by_cases hj : a = j
      · simpa [erase, lookup, hj] using ih
      · simp [erase, lookup, ih, hj]
    · by_cases hj : a = j
      · subst hj; simp [erase, lookup, h, Ne.symm h]
      · simp [erase, lookup, ih, h, hj]

theorem lookup_ofSeq (x : List α) (k j : Nat) :
    lookup (ofSeq k x) j = if k ≤ j then x[j - k]? else none := by
  induction x generalizing k with
  | nil => simp [ofSeq, lookup]
  | cons v x ih =>
    by_cases h : k = j
    · subst h; simp [ofSeq, lookup]
    · simp only [ofSeq, lookup, h, if_false, ih]
      by_cases h1 : k ≤ j
      · obtain ⟨d, rfl⟩ : ∃ d, j = k + 1 + d := ⟨j - k - 1, by omega⟩
        rw [if_pos (by omega), if_pos (by omega), show k + 1 + d - k = d + 1 by omega]
        simp
      · rw [if_neg (by omega), if_neg (by omega)]

theorem lookup_putSeq (x : List α) (m : List (Nat × α)) (k j : Nat) :
    lookup (putSeq k x m) j = if k ≤ j ∧ j < k + x.length then x[j - k]? else lookup m j := by
  induction x generalizing k m with
  | nil =>
    have : ¬ (k ≤ j ∧ j < k) := by omega
    simp [putSeq, this]
  | cons v x ih =>
    simp only [putSeq, ih, lookup_put, List.length_cons]
    by_cases h : k = j
    · subst h; simp
    · by_cases h1 : k + 1 ≤ j ∧ j < k + 1 + x.length
      · obtain ⟨d, rfl⟩ : ∃ d, j = k + 1 + d := ⟨j - k - 1, by omega⟩
        rw [if_pos h1, if_pos (by omega), show k + 1 + d - (k + 1) = d by omega,
          show k + 1 + d - k = d + 1 by omega]
        simp
      · rw [if_neg h1, if_neg h, if_neg (by omega)]

theorem mem_put {m : List (Nat × α)} {k : Nat} {v : α} {e : Nat × α} (h : e ∈ put k v m) :
    e = (k, v) ∨ e ∈ m := by
  induction m with
  | nil => simpa [put] using h
  | cons d m ih =>
    obtain ⟨a, w⟩ := d
    unfold put at h
    split at h
    · simpa using h
    · split at h
      · simp only [List.mem_cons] at h ⊢; tauto
      · simp only [List.mem_cons] at h ⊢
        rcases h with h | h
        · tauto
        · rcases ih h with h | h <;> tauto

theorem put_wf {m : List (Nat × α)} (k : Nat) (v : α) (h : wf m) : wf (put k v m) := by
  induction m with
  | nil => simp [put, wf]
  | cons d m ih =>
    obtain ⟨a, w⟩ := d
    have h' := List.pairwise_cons.1 h
    unfold put
    split
    · next hk =>
      refine List.pairwise_cons.2 ⟨?_, h⟩
      intro e he
      rcases List.mem_cons.1 he with rfl | he
      · exact hk
      · exact lt_trans hk (h'.1 e he)
    · split
      · next hk => subst hk; exact List.pairwise_cons.2 ⟨h'.1, h'.2⟩
      · next h1 h2 =>
        refine List.pairwise_cons.2 ⟨?_, ih h'.2⟩
        intro e he
        rcases mem_put he with rfl | he
        · show a < k; omega
        · exact h'.1 e he

theorem mem_erase {m : List (Nat × α)} {k : Nat} {e : Nat × α} (h : e ∈ erase k m) : e ∈ m := by
  induction m with
  | nil => simp [erase] at h
  | cons d m ih =>
    unfold erase at h
    split at h
    · exact List.mem_cons_of_mem _ (ih h)
    · rcases List.mem_cons.1 h with rfl | h
      · exact List.mem_cons_self
      · exact List.mem_cons_of_mem _ (ih h)

theorem erase_wf {m : List (Nat × α)} (k : Nat) (h : wf m) : wf (erase k m) := by
  induction m with
  | nil => simp [erase, wf]
  | cons d m ih =>
    have h' := List.pairwise_cons.1 h
    unfold erase
    split
    · exact ih h'.2
    · exact List.pairwise_cons.2 ⟨fun e he => h'.1 e (mem_erase he), ih h'.2⟩

theorem mem_ofSeq {x : List α} {k : Nat} {e : Nat × α} (h : e ∈ ofSeq k x) : k ≤ e.1 ∧ e.1 < k + x.length := by
  induction x generalizing k with
  | nil => simp [ofSeq] at h
  | cons v x ih =>
    rcases List.mem_cons.1 h with rfl | h
    · simp
    · have := ih h; simp only [List.length_cons]; omega

theorem ofSeq_wf (x : List α) (k : Nat) : wf (ofSeq k x) := by
  induction x generalizing k with
  | nil => simp [ofSeq, wf]
  | cons v x ih => exact List.pairwise_cons.2 ⟨fun e he => (mem_ofSeq he).1, ih _⟩

theorem putSeq_wf (x : List α) {m : List (Nat × α)} (k : Nat) (h : wf m) : wf (putSeq k x m) := by
  induction x generalizing k m with
  | nil => exact h
  | cons v x ih => exact ih _ (put_wf _ _ h)

theorem mem_putSeq {x : List α} {m : List (Nat × α)} {k : Nat} {e : Nat × α} (h : e ∈ putSeq k x m) :
    (k ≤ e.1 ∧ e.1 < k + x.length) ∨ e ∈ m := by
  induction x generalizing k m with
  | nil => exact .inr h
  | cons v x ih =>
    rcases ih h with h | h
    · left; simp only [List.length_cons]; omega
    · rcases mem_put h with rfl | h
      · left; simp
      · exact .inr h

/-- Two canonical memories that list the same are the same list: equal memories are equal data. -/
theorem ext_of_wf {m n : List (Nat × α)} (hm : wf m) (hn : wf n) (h : ∀ j, lookup m j = lookup n j) : m = n := by
  have none_of : ∀ {l : List (Nat × α)} {a : Nat}, (∀ e ∈ l, a < e.1) → ∀ j, j ≤ a → lookup l j = none := by
    intro l
    induction l with
    | nil => intros; rfl
    | cons d l ih =>
      intro a hl j hj
      have h1 := hl d List.mem_cons_self
      simp only [lookup]
      rw [if_neg (by omega)]
      exact ih (fun e he => hl e (List.mem_cons_of_mem _ he)) j hj
  induction m generalizing n with
  | nil =>
    cases n with
    | nil => rfl
    | cons d n => simpa [lookup] using h d.1
  | cons c m ih =>
    obtain ⟨a, v⟩ := c
    have hm' := List.pairwise_cons.1 hm
    cases n with
    | nil => simpa [lookup] using h a
    | cons d n =>
      obtain ⟨b, w⟩ := d
      have hn' := List.pairwise_cons.1 hn
      have hab : a = b := by
        by_contra hne
        rcases Nat.lt_or_gt_of_ne hne with hlt | hlt
        · have := h a
          simp only [lookup, if_true] at this
          rw [if_neg (Ne.symm hne), none_of hn'.1 a (by omega)] at this
          cases this
        · have := h b
          simp only [lookup, if_true] at this
          rw [if_neg hne, none_of hm'.1 b (by omega)] at this
          cases this
      subst hab
      have hv := h a
      simp only [lookup, if_true, Option.some.injEq] at hv
      subst hv
      congr 1
      refine ih hm'.2 hn'.2 fun j => ?_
      by_cases hj : a = j
      · subst hj; rw [none_of hm'.1 a le_rfl, none_of hn'.1 a le_rfl]
      · simpa [lookup, hj] using h j

end Sys2Proof.Machine.Memory
end

