-- ==== Sys2Proof/Laws/Ops.lean ====
section
/-! SUPPORT. What the shared operations do: buffers, bitstreams, FREQ, completion and the operand forms. -/

namespace Sys2Proof.Machine

/-! ### Buffers -/

@[simp] theorem bufAt_setBufAt (s : State) (i j : Fin 4) (b : Buffer) :
    (s.setBufAt i b).bufAt j = if i = j then b else s.bufAt j := by
  simp [State.bufAt, State.setBufAt, Vector.get_eq_getElem, Vector.getElem_set, Fin.ext_iff]

@[simp] theorem bufAt_setBuf (s : State) (i j : Fin 4) (x : List Byte) :
    (s.setBuf i x).bufAt j =
      if i = j then ⟨BitVec.ofNat 32 x.length, Memory.ofSeq 0 x, s.draws⟩ else s.bufAt j :=
  bufAt_setBufAt s i j _

@[simp] theorem bufAt_scratch (s : State) (i j : Fin 4) :
    (s.scratch i).bufAt j =
      if i = j then ⟨s.len i, Memory.ofSeq 0 (s.buf i), s.draws⟩ else s.bufAt j :=
  bufAt_setBufAt s i j _

/-- Buffers, their lengths, bytes and contents depend on `bufs` alone. -/
theorem bufAt_congr {s t : State} (h : t.bufs = s.bufs) (i : Fin 4) : t.bufAt i = s.bufAt i := by
  simp [State.bufAt, h]

theorem len_congr {s t : State} {i : Fin 4} (h : t.bufAt i = s.bufAt i) : t.len i = s.len i := by
  simp [State.len, h]

theorem byteAt_congr {s t : State} {i : Fin 4} (h : t.bufAt i = s.bufAt i) (j : Nat) :
    t.byteAt i j = s.byteAt i j := by
  simp [State.byteAt, h]

theorem buf_congr {s t : State} {i : Fin 4} (h : t.bufAt i = s.bufAt i) : t.buf i = s.buf i := by
  simp [State.buf, State.bytesAt, State.len, State.byteAt, h]

theorem keepsBuffer_of_bufAt {s t : State} {i : Fin 4} (h : t.bufAt i = s.bufAt i) : KeepsBuffer i s t :=
  ⟨len_congr h, byteAt_congr h⟩

@[simp] theorem bytesAt_length (s : State) (i : Fin 4) (j n : Nat) : (s.bytesAt i j n).length = n := by
  simp [State.bytesAt]

@[simp] theorem buf_length (s : State) (i : Fin 4) : (s.buf i).length = (s.len i).toNat := by
  simp [State.buf]

theorem buf_length_lt (s : State) (i : Fin 4) : (s.buf i).length < 2 ^ 32 := by
  simpa using (s.len i).isLt

theorem buf_getElem? (s : State) (i : Fin 4) (j : Nat) :
    (s.buf i)[j]? = if j < (s.len i).toNat then some (s.byteAt i j) else none := by
  by_cases h : j < (s.len i).toNat <;> simp [State.buf, State.bytesAt, h]

/-- Two states whose LEN and bytes below LEN agree have the same Buf(i). -/
theorem buf_ext {s t : State} {i : Fin 4} (hl : t.len i = s.len i)
    (hb : ∀ j, j < (s.len i).toNat → t.byteAt i j = s.byteAt i j) : t.buf i = s.buf i := by
  apply List.ext_getElem?
  intro j
  rw [buf_getElem?, buf_getElem?, hl]
  split <;> simp_all

/-- A buffer whose cells are the sequence x, with the length of x, holds x. -/
theorem buf_of_ofSeq {s : State} {i : Fin 4} {x : List Byte}
    (hc : (s.bufAt i).cells = Memory.ofSeq 0 x) (hl : (s.len i).toNat = x.length) : s.buf i = x := by
  apply List.ext_getElem?
  intro j
  rw [buf_getElem?, hl]
  split
  · next h => simp [State.byteAt, hc, Memory.lookup_ofSeq, h]
  · next h => simp; omega

/-- SetBuf(i, x) makes Buf(i) = x (R11), for every x a 32-bit length can name. -/
theorem buf_setBuf_self (s : State) (i : Fin 4) {x : List Byte} (h : x.length < 2 ^ 32) :
    (s.setBuf i x).buf i = x := by
  apply buf_of_ofSeq (by simp)
  simpa [State.len] using h

theorem len_setBuf_self (s : State) (i : Fin 4) (x : List Byte) :
    (s.setBuf i x).len i = BitVec.ofNat 32 x.length := by simp [State.len]

theorem bufAt_setBuf_ne (s : State) {i j : Fin 4} (x : List Byte) (h : i ≠ j) :
    (s.setBuf i x).bufAt j = s.bufAt j := by simp [h]

/-- What scratch use keeps: LEN and the bytes below it, and every other buffer (R279). -/
theorem scratch_keepsBelowLen (s : State) (i j : Fin 4) : KeepsBelowLen j s (s.scratch i) := by
  by_cases h : i = j
  · subst h
    refine ⟨by simp [State.len], fun k hk => ?_⟩
    have hb := buf_getElem? s i k
    rw [if_pos hk] at hb
    simp [State.byteAt, Memory.lookup_ofSeq, hb] at hb ⊢
  · exact ⟨by simp [State.len, h], fun k _ => by simp [State.byteAt, h]⟩

@[simp] theorem buf_scratch (s : State) (i j : Fin 4) : (s.scratch i).buf j = s.buf j :=
  buf_ext (scratch_keepsBelowLen s i j).len (scratch_keepsBelowLen s i j).byte

/-! ### Bitstreams -/

@[simp] theorem streamAt_putSeq (s : State) (i j : Fin 4) (p : Word) (x : List Bool) :
    (s.putSeq i p x).streamAt j = if i = j then ⟨p, x⟩ else s.streamAt j := by
  simp [State.streamAt, State.putSeq, Vector.get_eq_getElem, Vector.getElem_set, Fin.ext_iff]

theorem streamAt_congr {s t : State} (h : t.streams = s.streams) (k : Fin 4) : t.streamAt k = s.streamAt k := by
  simp [State.streamAt, h]

theorem keepsStream_of_streamAt {s t : State} {k : Fin 4} (h : t.streamAt k = s.streamAt k) : KeepsStream k s t :=
  ⟨by simp [State.startPos, h], by simp [State.endPos, State.startPos, State.seq, h], by simp [State.seq, h]⟩

@[simp] theorem seq_putSeq_self (s : State) (k : Fin 4) (p : Word) (x : List Bool) : (s.putSeq k p x).seq k = x := by
  simp [State.seq]

@[simp] theorem startPos_putSeq_self (s : State) (k : Fin 4) (p : Word) (x : List Bool) :
    (s.putSeq k p x).startPos k = p.toNat := by
  simp [State.startPos]

@[simp] theorem endPos_putSeq_self (s : State) (k : Fin 4) (p : Word) (x : List Bool) :
    (s.putSeq k p x).endPos k = p.toNat + x.length := by
  simp [State.endPos]

/-! ### FREQ -/

@[simp] theorem allBytes_length : allBytes.length = 256 := by simp [allBytes]

theorem mem_allBytes (v : Byte) : v ∈ allBytes := by
  simp only [allBytes, List.mem_map, List.mem_range]
  exact ⟨v.toNat, v.isLt, by simp⟩

theorem allBytes_getElem? (n : Nat) (h : n < 256) : allBytes[n]? = some (BitVec.ofNat 8 n) := by
  simp [allBytes, h]

theorem allBytes_nodup : allBytes.Nodup := by
  refine List.Nodup.map_on ?_ List.nodup_range
  intro a ha b hb h
  have := congrArg BitVec.toNat h
  simp only [BitVec.toNat_ofNat, List.mem_range] at *
  omega

theorem allBytes_sorted : allBytes.Pairwise fun a b => a.toNat < b.toNat := by
  rw [allBytes, List.pairwise_map]
  refine List.Pairwise.imp_of_mem ?_ List.pairwise_lt_range
  intro a b ha hb h
  simp only [BitVec.toNat_ofNat, List.mem_range] at *
  omega

/-- The table of counts F is read back count by count. -/
theorem lookup_freqTable (F : Byte → Word) (v : Byte) : (Memory.lookup (freqTable F) v.toNat).getD 0 = F v := by
  have key : ∀ l : List Byte,
      Memory.lookup ((l.filter fun v => F v != 0).map fun v => (v.toNat, F v)) v.toNat =
        if v ∈ l ∧ F v ≠ 0 then some (F v) else none := by
    intro l
    induction l with
    | nil => simp [Memory.lookup]
    | cons u l ih =>
      by_cases hu : F u = 0
      · have : (u :: l).filter (fun v => F v != 0) = l.filter fun v => F v != 0 := by simp [hu]
        rw [this, ih]
        by_cases hv : v = u
        · subst hv; simp [hu]
        · simp [hv]
      · have hu' : F u ≠ 0#32 := hu
        have : (u :: l).filter (fun v => F v != 0) = u :: l.filter fun v => F v != 0 := by simp [hu']
        rw [this]
        simp only [List.map_cons, Memory.lookup, ih]
        by_cases hv : u = v
        · subst hv; simp [hu']
        · have h1 : u.toNat ≠ v.toNat := fun h => hv (BitVec.eq_of_toNat_eq h)
          simp [h1, Ne.symm hv]
  rw [freqTable, key]
  by_cases h : F v = 0#32 <;> simp [h, mem_allBytes]

@[simp] theorem freq_setFreqs (s : State) (F : Byte → Word) (v : Byte) : (s.setFreqs F).freq v = F v :=
  lookup_freqTable F v

theorem freqTable_wf (F : Byte → Word) : Memory.wf (freqTable F) := by
  rw [freqTable, Memory.wf, List.pairwise_map]
  exact (List.Pairwise.sublist List.filter_sublist allBytes_sorted).imp fun h => h

theorem freqTable_mem (F : Byte → Word) : ∀ e ∈ freqTable F, e.1 < 256 ∧ e.2 ≠ 0 := by
  intro e he
  simp only [freqTable, List.mem_map, List.mem_filter] at he
  obtain ⟨v, ⟨-, hv⟩, rfl⟩ := he
  exact ⟨v.isLt, by simpa using hv⟩

theorem freq_congr {s t : State} (h : t.freqs = s.freqs) (v : Byte) : t.freq v = s.freq v := by
  simp [State.freq, h]

theorem freq_writeFreq (s : State) (u v : Byte) (f : Word) :
    (s.writeFreq u f).freq v = if v = u then f else s.freq v := by
  have h : u.toNat = v.toNat ↔ v = u := ⟨fun h => (BitVec.eq_of_toNat_eq h).symm, fun h => by rw [h]⟩
  by_cases hf : f = 0
  · subst hf
    by_cases hv : v = u <;> simp [State.writeFreq, State.freq, Memory.lookup_erase, h, hv]
  · have hf' : f ≠ 0#32 := hf
    by_cases hv : v = u <;> simp [State.writeFreq, State.freq, hf', Memory.lookup_put, h, hv]

/-! ### Raising and completing -/

@[simp] theorem refuseIf_false (c : CmdError) : refuseIf false c = .ok () := rfl
@[simp] theorem refuseIf_true (c : CmdError) : refuseIf true c = .error c := rfl

theorem refuseIf_bind {α : Type} (b : Bool) (c : CmdError) (f : Unit → Except CmdError α) :
    (refuseIf b c >>= f) = if b then .error c else f () := by cases b <;> rfl

@[simp] theorem finish_ok (op : Byte) (f : State) (e : Effect) :
    finish op f (.ok e) = e.state.complete op none e.eof e.result := rfl
@[simp] theorem finish_error (op : Byte) (f : State) (c : CmdError) :
    finish op f (.error c) = f.complete op (some c) false 0 := rfl

theorem complete_completes (s : State) (op : Byte) (eof : Bool) (res : Word) :
    Completes op res eof (s.complete op none eof res) := by
  constructor <;> simp [State.busy]

theorem complete_fails (s : State) (op : Byte) (c : CmdError) (eof : Bool) (res : Word) :
    FailsWith op c (s.complete op (some c) eof res) := by
  constructor <;> simp [State.busy]

/-- The operand forms on fields that name an operand. -/
@[simp] theorem index?_idx (k : Fin 4) : index? (idx k) = some k := by
  revert k; decide

@[simp] theorem runOne_idx (op : Byte) (k : Fin 4) (s : State) (f : Fin 4 → Except CmdError Effect) :
    runOne op (idx k) s f = finish op s (f k) := by simp [runOne]

@[simp] theorem runTwo_idx (op : Byte) (d r : Fin 4) (s : State) (f : Fin 4 → Fin 4 → Except CmdError Effect) :
    runTwo op (idx d) (idx r) s f = finish op s (f d r) := by simp [runTwo]

@[simp] theorem runToBuf_idx (op : Byte) (d r : Fin 4) (s : State) (f : Fin 4 → Fin 4 → Except CmdError Effect) :
    runToBuf op (idx d) (idx r) s f = finish op (s.scratch d) (f d r) := by simp [runToBuf]

theorem index?_eq_none {x : OpIdx} : index? x = none ↔ OpIdx.legal x = false := by
  simp [index?, OpIdx.legal]

theorem index?_eq_some {x : OpIdx} {k : Fin 4} : index? x = some k ↔ x = idx k := by
  constructor
  · intro h
    simp only [index?] at h
    split at h
    · cases h
      apply BitVec.eq_of_toNat_eq
      simp [idx]
    · cases h
  · rintro rfl; simp

/-- Every way a one-operand command ends. -/
theorem runOne_cases (op : Byte) (x : OpIdx) (s : State) (f : Fin 4 → Except CmdError Effect) :
    (index? x = none ∧ runOne op x s f = s.complete op (some .operand) false 0) ∨
    ∃ k, index? x = some k ∧ runOne op x s f = finish op s (f k) := by
  unfold runOne
  cases h : index? x with
  | none => exact .inl ⟨rfl, rfl⟩
  | some k => exact .inr ⟨k, rfl, rfl⟩

/-- Every way a two-operand command with a bitstream destination ends. -/
theorem runTwo_cases (op : Byte) (rd rs : OpIdx) (s : State) (f : Fin 4 → Fin 4 → Except CmdError Effect) :
    ((index? rd = none ∨ index? rs = none) ∧ runTwo op rd rs s f = s.complete op (some .operand) false 0) ∨
    ∃ d r, index? rd = some d ∧ index? rs = some r ∧ runTwo op rd rs s f = finish op s (f d r) := by
  unfold runTwo
  cases h : index? rd with
  | none => exact .inl ⟨.inl rfl, rfl⟩
  | some d =>
    cases h' : index? rs with
    | none => exact .inl ⟨.inr rfl, rfl⟩
    | some r => exact .inr ⟨d, r, rfl, rfl, rfl⟩

/-- Every way a command with a destination buffer ends. -/
theorem runToBuf_cases (op : Byte) (rd rs : OpIdx) (s : State) (f : Fin 4 → Fin 4 → Except CmdError Effect) :
    (index? rd = none ∧ runToBuf op rd rs s f = s.complete op (some .operand) false 0) ∨
    (∃ d, index? rd = some d ∧ index? rs = none ∧
      runToBuf op rd rs s f = (s.scratch d).complete op (some .operand) false 0) ∨
    ∃ d r, index? rd = some d ∧ index? rs = some r ∧ runToBuf op rd rs s f = finish op (s.scratch d) (f d r) := by
  unfold runToBuf
  cases index? rd with
  | none => exact .inl ⟨rfl, rfl⟩
  | some d =>
    cases index? rs with
    | none => exact .inr (.inl ⟨d, rfl, rfl, rfl⟩)
    | some r => exact .inr (.inr ⟨d, r, rfl, rfl, rfl⟩)

/-! ### Frames of the completion -/

theorem keepsAll_complete (s : State) (op : Byte) (c : Option CmdError) (e : Bool) (r : Word) :
    KeepsAll s (s.complete op c e r) where
  rest := ⟨⟨rfl, rfl, rfl, rfl, rfl, rfl, rfl⟩, fun _ _ => ⟨rfl, fun _ => rfl⟩, fun _ _ => ⟨rfl, rfl, rfl⟩⟩
  primary := rfl
  rpos := rfl
  huffman := ⟨rfl, rfl, rfl⟩

theorem keepsOnFailure_scratch (s : State) (d : Fin 4) (op : Byte) (c : Option CmdError) (e : Bool) (r : Word) :
    KeepsOnFailure d s ((s.scratch d).complete op c e r) where
  but :=
    { rest := ⟨⟨rfl, rfl, rfl, rfl, rfl, rfl, rfl⟩,
        fun i hi => keepsBuffer_of_bufAt (by
          have : d ≠ i := fun h => hi (by simp [h])
          exact (bufAt_congr (s := s.scratch d) rfl i).trans (by simp [this])),
        fun _ _ => ⟨rfl, rfl, rfl⟩⟩
      primary := rfl
      rpos := rfl
      huffman := ⟨rfl, rfl, rfl⟩ }
  below := ⟨(scratch_keepsBelowLen s d d).len, (scratch_keepsBelowLen s d d).byte⟩

theorem keepsBut_setBuf (s : State) (d : Fin 4) (x : List Byte) (op : Byte) (c : Option CmdError) (e : Bool)
    (r : Word) : KeepsBut [d] [] s ((s.setBuf d x).complete op c e r) where
  rest := ⟨⟨rfl, rfl, rfl, rfl, rfl, rfl, rfl⟩,
    fun i hi => keepsBuffer_of_bufAt (by
      have : d ≠ i := fun h => hi (by simp [h])
      exact (bufAt_congr (s := s.setBuf d x) rfl i).trans (by simp [this])),
    fun _ _ => ⟨rfl, rfl, rfl⟩⟩
  primary := rfl
  rpos := rfl
  huffman := ⟨rfl, rfl, rfl⟩

theorem keepsBut_putSeq (s : State) (d : Fin 4) (p : Word) (x : List Bool) (op : Byte) (c : Option CmdError)
    (e : Bool) (r : Word) : KeepsBut [] [d] s ((s.putSeq d p x).complete op c e r) where
  rest := ⟨⟨rfl, rfl, rfl, rfl, rfl, rfl, rfl⟩, fun _ _ => ⟨rfl, fun _ => rfl⟩,
    fun k hk => keepsStream_of_streamAt (by
      have : d ≠ k := fun h => hk (by simp [h])
      exact (streamAt_congr (s := s.putSeq d p x) rfl k).trans (by simp [this]))⟩
  primary := rfl
  rpos := rfl
  huffman := ⟨rfl, rfl, rfl⟩

end Sys2Proof.Machine
end

