-- ==== Sys2Proof/Laws/Encode.lean ====
section
/-! SUPPORT. The fields of an encoded word, and the rows of the opcode table. -/

namespace Sys2Proof

theorem opField_enc (op : Byte) (rd rs : OpIdx) (imm : Bool) : opField (enc op rd rs imm) = op := by
  apply BitVec.eq_of_getLsbD_eq
  intro i hi
  simp only [opField, enc, BitVec.getLsbD_extractLsb', BitVec.getLsbD_or, BitVec.getLsbD_shiftLeft,
    BitVec.getLsbD_setWidth]
  have h1 : i < 12 := by omega
  have h2 : i < 16 := by omega
  have h3 : i < 32 := by omega
  simp [hi, h1, h2, h3]

theorem rdField_enc (op : Byte) (rd rs : OpIdx) (imm : Bool) : rdField (enc op rd rs imm) = rd := by
  apply BitVec.eq_of_getLsbD_eq
  intro i hi
  simp only [rdField, enc, BitVec.getLsbD_extractLsb', BitVec.getLsbD_or, BitVec.getLsbD_shiftLeft,
    BitVec.getLsbD_setWidth]
  have h0 : op.getLsbD (8 + i) = false := BitVec.getLsbD_of_ge _ _ (by omega)
  simp only [h0, show 8 + i < 12 by omega, show 8 + i < 16 by omega, show 8 + i < 32 by omega, hi,
    show ¬ 8 + i < 8 by omega, show 8 + i - 8 = i by omega]
  simp
  omega

theorem rsField_enc (op : Byte) (rd rs : OpIdx) (imm : Bool) : rsField (enc op rd rs imm) = rs := by
  apply BitVec.eq_of_getLsbD_eq
  intro i hi
  simp only [rsField, enc, BitVec.getLsbD_extractLsb', BitVec.getLsbD_or, BitVec.getLsbD_shiftLeft,
    BitVec.getLsbD_setWidth]
  have h0 : op.getLsbD (12 + i) = false := BitVec.getLsbD_of_ge _ _ (by omega)
  have h1 : rd.getLsbD (12 + i - 8) = false := BitVec.getLsbD_of_ge _ _ (by omega)
  simp only [h0, h1, show 12 + i < 16 by omega, show 12 + i < 32 by omega, hi,
    show ¬ 12 + i < 12 by omega, show 12 + i - 12 = i by omega]
  simp
  omega

theorem immField_enc (op : Byte) (rd rs : OpIdx) (imm : Bool) : immField (enc op rd rs imm) = imm := by
  simp only [immField, enc, BitVec.getLsbD_or, BitVec.getLsbD_shiftLeft, BitVec.getLsbD_setWidth]
  have h0 : op.getLsbD 16 = false := BitVec.getLsbD_of_ge _ _ (by omega)
  have h1 : rd.getLsbD 8 = false := BitVec.getLsbD_of_ge _ _ (by omega)
  have h2 : rs.getLsbD 4 = false := BitVec.getLsbD_of_ge _ _ (by omega)
  cases imm <;> simp [h0, h1, h2]

theorem rsvField_enc (op : Byte) (rd rs : OpIdx) (imm : Bool) : rsvField (enc op rd rs imm) = 0 := by
  apply BitVec.eq_of_getLsbD_eq
  intro i hi
  simp only [rsvField, enc, BitVec.getLsbD_extractLsb', BitVec.getLsbD_or, BitVec.getLsbD_shiftLeft,
    BitVec.getLsbD_setWidth]
  have h0 : op.getLsbD (17 + i) = false := BitVec.getLsbD_of_ge _ _ (by omega)
  have h1 : rd.getLsbD (17 + i - 8) = false := BitVec.getLsbD_of_ge _ _ (by omega)
  have h2 : rs.getLsbD (17 + i - 12) = false := BitVec.getLsbD_of_ge _ _ (by omega)
  have h3 : (BitVec.ofBool imm).getLsbD (17 + i - 16) = false := BitVec.getLsbD_of_ge _ _ (by omega)
  simp [h0, h1, h2, h3]

/-- A word is its five fields. -/
theorem word_ext {v w : Word} (h0 : opField v = opField w) (h1 : rdField v = rdField w)
    (h2 : rsField v = rsField w) (h3 : immField v = immField w) (h4 : rsvField v = rsvField w) : v = w := by
  apply BitVec.eq_of_getLsbD_eq
  intro i hi
  by_cases a : i < 8
  · simpa [opField, a] using congrArg (·.getLsbD i) h0
  by_cases b : i < 12
  · have := congrArg (·.getLsbD (i - 8)) h1
    simpa [rdField, show i - 8 < 4 by omega, show 8 + (i - 8) = i by omega] using this
  by_cases c : i < 16
  · have := congrArg (·.getLsbD (i - 12)) h2
    simpa [rsField, show i - 12 < 4 by omega, show 12 + (i - 12) = i by omega] using this
  by_cases d : i = 16
  · subst d; exact h3
  · have := congrArg (·.getLsbD (i - 17)) h4
    simpa [rsvField, show i - 17 < 15 by omega, show 17 + (i - 17) = i by omega] using this

/-- The fields of a word put back together. -/
theorem enc_fields {w : Word} (h : rsvField w = 0) : enc (opField w) (rdField w) (rsField w) (immField w) = w :=
  word_ext (opField_enc ..) (rdField_enc ..) (rsField_enc ..) (immField_enc ..) (by rw [rsvField_enc, h])

/-- The row of a command: its opcode selects it, and the row makes the command of the command's own fields. -/
theorem rowOf_opcode (i : Instr) : ∃ r, rowOf i.opcode = some r ∧ r.opcode = i.opcode ∧
    r.make i.rd i.rs i.imm = i ∧ (r.rd = .unused → i.rd = 0) ∧ (r.rs = .unused → i.rs = 0) ∧
    (r.imm = false → i.imm = false) := by
  cases i <;> exact ⟨_, rfl, rfl, rfl, by simp [Instr.rd], by simp [Instr.rs], by simp [Instr.imm]⟩

theorem rowOf_some {op : Byte} {r : OpRow} (h : rowOf op = some r) : r ∈ opTable ∧ r.opcode = op :=
  ⟨List.mem_of_find?_eq_some h, by simpa using List.find?_some h⟩

/-- A row's command has the row's opcode and the fields it was made of, where the row uses them. -/
theorem opTable_make {r : OpRow} (h : r ∈ opTable) (rd rs : OpIdx) (imm : Bool)
    (h1 : r.rd = .unused → rd = 0) (h2 : r.rs = .unused → rs = 0) (h3 : r.imm = false → imm = false) :
    (r.make rd rs imm).opcode = r.opcode ∧ (r.make rd rs imm).rd = rd ∧ (r.make rd rs imm).rs = rs ∧
      (r.make rd rs imm).imm = imm := by
  simp only [opTable, List.cons_append, List.nil_append, List.mem_cons, List.not_mem_nil, or_false] at h
  rcases h with rfl | rfl | rfl | rfl | rfl | rfl | rfl | rfl | rfl | rfl | rfl | rfl | rfl | rfl | rfl | rfl |
    rfl | rfl | rfl | rfl | rfl | rfl <;> simp_all [Instr.opcode, Instr.rd, Instr.rs, Instr.imm]

/-- Every way a word decodes. -/
theorem decode_ok_iff {w : Word} {i : Instr} : decode w = .ok i ↔ ∃ r, rowOf (opField w) = some r ∧
    rsvField w = 0 ∧ (r.rd = .unused → rdField w = 0) ∧ (r.rs = .unused → rsField w = 0) ∧
    (r.imm = false → immField w = false) ∧ i = r.make (rdField w) (rsField w) (immField w) := by
  unfold decode
  cases h : rowOf (opField w) with
  | none => simp
  | some r =>
    simp only [Option.some.injEq, exists_eq_left']
    split
    · next h => simp_all
    split
    · next h => simp_all
    split
    · next h => simp_all
    split
    · next h => simp_all
    · next h0 h1 h2 h3 =>
      simp only [Except.ok.injEq]
      constructor
      · rintro rfl
        exact ⟨by_contra h0, fun h => by_contra fun h' => h1 ⟨h, h'⟩, fun h => by_contra fun h' => h2 ⟨h, h'⟩,
          fun h => by simpa using fun h' => h3 ⟨h, h'⟩, rfl⟩
      · rintro ⟨-, -, -, -, rfl⟩; rfl

end Sys2Proof
end

