-- ==== Sys2Proof/Laws/Serial.lean ====
section
/-! SUPPORT. Byte order and bit order: what be32, fromBe, pack, unpack, ser, takeBytes, leBytes and leWord do. -/

namespace Sys2Proof.Machine

@[simp] theorem be16_length (v : BitVec 16) : (be16 v).length = 2 := rfl
@[simp] theorem be32_length (v : Word) : (be32 v).length = 4 := rfl

/-- from_be of be32 is the value (R10). -/
@[simp] theorem fromBe_be32 (v : Word) : fromBe (be32 v) = v.toNat := by
  simp only [fromBe, be32, List.foldl_cons, List.foldl_nil, BitVec.extractLsb'_toNat, Nat.shiftRight_eq_div_pow]
  have := v.isLt
  omega

/-- from_be of be16 is the value (R10). -/
@[simp] theorem fromBe_be16 (v : BitVec 16) : fromBe (be16 v) = v.toNat := by
  simp only [fromBe, be16, List.foldl_cons, List.foldl_nil, BitVec.extractLsb'_toNat, Nat.shiftRight_eq_div_pow]
  have := v.isLt
  omega

theorem getLsbD_byteOfBits (f : Nat → Bool) {b : Nat} (h : b < 8) : (byteOfBits f).getLsbD b = f b := by
  unfold byteOfBits
  rcases (by omega : b = 0 ∨ b = 1 ∨ b = 2 ∨ b = 3 ∨ b = 4 ∨ b = 5 ∨ b = 6 ∨ b = 7) with
    rfl | rfl | rfl | rfl | rfl | rfl | rfl | rfl <;>
  cases f 0 <;> cases f 1 <;> cases f 2 <;> cases f 3 <;> cases f 4 <;> cases f 5 <;> cases f 6 <;> cases f 7 <;> rfl

@[simp] theorem pack_length (x : List Bool) : (pack x).length = (x.length + 7) / 8 := by simp [pack, ceil8]

/-- Bit b of data byte m is x[8m + b], 0 beyond the end (R147). -/
theorem pack_bit (x : List Bool) {m b : Nat} (hm : m < (x.length + 7) / 8) (hb : b < 8) :
    ((pack x).getD m 0).getLsbD b = x.getD (8 * m + b) false := by
  simp [pack, ceil8, List.getD_eq_getElem?_getD, hm, getLsbD_byteOfBits _ hb]

@[simp] theorem unpack_length (p : List Byte) (n : Nat) : (unpack p n).length = n := by simp [unpack]

theorem unpack_getElem? (p : List Byte) {n j : Nat} (h : j < n) :
    (unpack p n)[j]? = some ((p.getD (j / 8) 0).getLsbD (j % 8)) := by
  simp [unpack, h]

@[simp] theorem ser_length (x : List Bool) : (ser x).length = 4 + (x.length + 7) / 8 := by simp [ser]

/-- take(k) of R249, both ways it ends. -/
theorem takeBytes_short {k : Nat} {m : List Byte} (h : m.length < k) : takeBytes k m = .error .truncated := by
  simp [takeBytes, h]

theorem takeBytes_append {k : Nat} (x m : List Byte) (h : x.length = k) : takeBytes k (x ++ m) = .ok (x, m) := by
  subst h; simp [takeBytes]

@[simp] theorem leBytes_length (v : Word) (n : Nat) : (leBytes v n).length = n := by simp [leBytes]

theorem leBytes_getElem? (v : Word) {n k : Nat} (h : k < n) : (leBytes v n)[k]? = some (v.extractLsb' (8 * k) 8) := by
  simp [leBytes, h]

/-- The value of the low n bytes of a word, put back together lowest address first (R84). -/
theorem leWord_leBytes (v : Word) (n : Nat) : leWord (leBytes v n) = BitVec.ofNat 32 (v.toNat % 2 ^ (8 * n)) := by
  have key : ∀ (n : Nat) (f : Nat → Byte) (a : Nat), (∀ k, k < n → (f k).toNat = a / 2 ^ (8 * k) % 256) →
      ((List.range n).map f).foldr (fun c a => c.toNat + 256 * a) 0 = a % 2 ^ (8 * n) := by
    intro n
    induction n with
    | zero => intro f a _; simp [Nat.mod_one]
    | succ n ih =>
      intro f a h
      rw [List.range_succ_eq_map, List.map_cons, List.map_map, List.foldr_cons,
        ih (f ∘ Nat.succ) (a / 256) (fun k hk => by
          rw [Function.comp, h (k + 1) (by omega), Nat.div_div_eq_div_mul, Nat.mul_add, Nat.pow_add,
            Nat.mul_comm (2 ^ (8 * k))]), h 0 (by omega)]
      have e : 2 ^ (8 * (n + 1)) = 256 * 2 ^ (8 * n) := by rw [Nat.mul_add, Nat.pow_add, Nat.mul_comm]
      rw [e, Nat.mod_mul, Nat.mul_zero, Nat.pow_zero, Nat.div_one]
  rw [leWord, leBytes, key n _ v.toNat]
  intro k _
  simp [BitVec.extractLsb'_toNat, Nat.shiftRight_eq_div_pow]

end Sys2Proof.Machine
end

