-- ==== Sys2Proof/Laws/Bus.lean ====
section
/-! SUPPORT. What the bus operations do: which accesses are legal, what each of them answers, the register and window effects, and the turns. -/

namespace Sys2Proof.Machine

/-- A legal access of the register region (R81, R83). -/
theorem target?_reg (s : State) {addr : Addr} (h : addr.toNat < 0x4000) (h4 : addr.toNat % 4 = 0) :
    s.target? addr 4 = some (.reg (regAt addr.toNat)) := by simp [State.target?, h, h4]

/-- Every way an access is legal (R81, R83, R85). -/
theorem target?_cases {s : State} {addr : Addr} {n : Nat} {t : Target} (h : s.target? addr n = some t) :
    (addr.toNat < 0x4000 ∧ n = 4 ∧ addr.toNat % 4 = 0 ∧ t = .reg (regAt addr.toNat)) ∨
    ∃ (i : Fin 4) (j : Nat), addr.toNat = 0x01000000 * (i.val + 1) + j ∧ j < 0x01000000 ∧
      j + n ≤ s.bufBytes.toNat ∧ (n = 1 ∨ n = 2 ∨ n = 4) ∧ addr.toNat % n = 0 ∧ t = .window i j := by
  simp only [State.target?] at h
  split at h
  · split at h
    · next h1 h2 => exact .inl ⟨h1, h2.1, h2.2, by simpa using h.symm⟩
    · cases h
  · split at h
    · next h1 h2 =>
      split at h
      · next h3 =>
        refine .inr ⟨Fin.ofNat 4 (addr.toNat / 0x01000000 - 1), addr.toNat % 0x01000000, ?_, by omega, h3.2.2,
          h3.1, h3.2.1, by simpa using h.symm⟩
        simp only [Fin.ofNat]
        omega
      · cases h
    · cases h

/-- A legal access of a window (R81, R82, R83). -/
theorem target?_window (s : State) {addr : Addr} {n : Nat} (i : Fin 4) {j : Nat}
    (ha : addr.toNat = 0x01000000 * (i.val + 1) + j) (hj : j < 0x01000000) (hb : j + n ≤ s.bufBytes.toNat)
    (hn : n = 1 ∨ n = 2 ∨ n = 4) (hm : addr.toNat % n = 0) : s.target? addr n = some (.window i j) := by
  have hi := i.isLt
  have h1 : ¬ addr.toNat < 0x4000 := by omega
  have h2 : 0x01000000 ≤ addr.toNat ∧ addr.toNat < 0x05000000 := by omega
  have h3 : addr.toNat % 0x01000000 = j := by omega
  have h4 : addr.toNat / 0x01000000 - 1 = i.val := by omega
  simp only [State.target?, h1, h2, h3, h4, hn, hm, hb, if_true, if_false, and_self]
  simp

/-- Every way a read ends (R85, R86, R90). -/
theorem memRead_cases (s : State) (addr : Addr) (n : Nat) :
    (s.target? addr n = none ∧ s.memRead addr n = (s, .busErr)) ∨
    ∃ t, s.target? addr n = some t ∧
      ((s.busy = true ∧ t.always = false ∧ s.memRead addr n = ({ s with overrun := true }, .data 0)) ∨
       ((s.busy = false ∨ t.always = true) ∧ s.memRead addr n = (s, .data (s.readTarget n t)))) := by
  unfold State.memRead State.blocks
  cases s.target? addr n with
  | none => exact .inl ⟨rfl, rfl⟩
  | some t => cases s.busy <;> cases h : t.always <;> simp [h]

/-- Every way a write ends (R85, R86, R90). -/
theorem memWrite_cases (s : State) (addr : Addr) (n : Nat) (v : Word) :
    (s.target? addr n = none ∧ s.memWrite addr n v = (s, .busErr)) ∨
    ∃ t, s.target? addr n = some t ∧
      ((s.busy = true ∧ t.always = false ∧ s.memWrite addr n v = ({ s with overrun := true }, .done)) ∨
       ((s.busy = false ∨ t.always = true) ∧ s.memWrite addr n v = (s.writeTarget n v t, .done))) := by
  unfold State.memWrite State.blocks
  cases s.target? addr n with
  | none => exact .inl ⟨rfl, rfl⟩
  | some t => cases s.busy <;> cases h : t.always <;> simp [h]

/-! ### Window writes (R82, R84) -/

theorem bufAt_pokeBytes (s : State) (i i' : Fin 4) (j : Nat) (x : List Byte) :
    (s.pokeBytes i j x).bufAt i' =
      if i = i' then { s.bufAt i with cells := Memory.putSeq j x (s.bufAt i).cells } else s.bufAt i' := by
  simp [State.pokeBytes]

/-- The bytes of a window write stand where they were written, and every other byte is as before. -/
theorem byteAt_pokeBytes (s : State) (i i' : Fin 4) (j : Nat) (x : List Byte) (k : Nat) :
    (s.pokeBytes i j x).byteAt i' k =
      if i = i' ∧ j ≤ k ∧ k < j + x.length then x.getD (k - j) 0 else s.byteAt i' k := by
  by_cases h : i = i'
  · subst h
    by_cases hk : j ≤ k ∧ k < j + x.length
    · have hx : k - j < x.length := by omega
      simp [State.byteAt, bufAt_pokeBytes, Memory.lookup_putSeq, hk, hx, List.getD_eq_getElem?_getD]
    · simp [State.byteAt, bufAt_pokeBytes, Memory.lookup_putSeq, hk]
  · simp [State.byteAt, bufAt_pokeBytes, h]

@[simp] theorem len_pokeBytes (s : State) (i i' : Fin 4) (j : Nat) (x : List Byte) :
    (s.pokeBytes i j x).len i' = s.len i' := by
  by_cases h : i = i'
  · subst h; simp [State.len, bufAt_pokeBytes]
  · simp [State.len, bufAt_pokeBytes, h]

theorem bytesAt_pokeBytes_self (s : State) (i : Fin 4) (j : Nat) (x : List Byte) :
    (s.pokeBytes i j x).bytesAt i j x.length = x := by
  apply List.ext_getElem?
  intro k
  by_cases hk : k < x.length
  · simp [State.bytesAt, hk, byteAt_pokeBytes, List.getD_eq_getElem?_getD]
  · simp [State.bytesAt, hk]

/-- A host write to LEN (R41). -/
theorem len_writeLen (s : State) (i k : Fin 4) (v : Word) :
    (s.writeLen i v).len k = if i = k ∧ v.toNat ≤ s.bufBytes.toNat then v else s.len k := by
  unfold State.writeLen
  by_cases h : v.toNat ≤ s.bufBytes.toNat <;> by_cases hk : i = k <;> simp [h, hk, State.len]

@[simp] theorem byteAt_writeLen (s : State) (i k : Fin 4) (v : Word) (j : Nat) :
    (s.writeLen i v).byteAt k j = s.byteAt k j := by
  unfold State.writeLen
  by_cases h : v.toNat ≤ s.bufBytes.toNat <;> by_cases hk : i = k <;> simp [h, hk, State.byteAt]

/-! ### Turns (R30, R277) -/

theorem engineStep_idle {s : State} (h : s.latch = none) : engineStep s = .next s := by simp [engineStep, h]

theorem engineStep_ok {s : State} {w : Word} {i : Instr} (h : s.latch = some w) (hd : decode w = .ok i) :
    engineStep s = exec i s := by simp [engineStep, h, hd]

theorem engineStep_error {s : State} {w : Word} {e : DecodeError} (h : s.latch = some w)
    (hd : decode w = .error e) : engineStep s = .next (illegalCommand w s) := by simp [engineStep, h, hd]

theorem step_engine {s : State} (h : s.inputs = []) : step s = engineStep s := by simp [step, takeTurn, h]

/-- Every way a step goes: the one inversion lemma of `step`. -/
theorem step_cases (s : State) :
    (s.inputs = [] ∧ step s = engineStep s) ∨
    ∃ rest, (s.inputs = .engine :: rest ∧ step s = engineStep { s with inputs := rest }) ∨
      (s.inputs = .reset :: rest ∧ step s = .next (State.hardReset { s with inputs := rest })) ∨
      (∃ a n, s.inputs = .read a n :: rest ∧
        step s = .next (respond (State.memRead { s with inputs := rest } a n))) ∨
      (∃ a n v, s.inputs = .write a n v :: rest ∧
        step s = .next (respond (State.memWrite { s with inputs := rest } a n v))) := by
  cases h : s.inputs with
  | nil => exact .inl ⟨rfl, step_engine h⟩
  | cons x rest =>
    refine .inr ⟨rest, ?_⟩
    cases x with
    | read a n => exact .inr (.inr (.inl ⟨a, n, rfl, by simp [step, takeTurn, h]⟩))
    | write a n v => exact .inr (.inr (.inr ⟨a, n, v, rfl, by simp [step, takeTurn, h]⟩))
    | engine => exact .inl ⟨rfl, by simp [step, takeTurn, h]⟩
    | reset => exact .inr (.inl ⟨rfl, by simp [step, takeTurn, h]⟩)

/-- Every way the engine's step goes. -/
theorem engineStep_cases (s : State) :
    (s.latch = none ∧ engineStep s = .next s) ∨
    ∃ w, s.latch = some w ∧ ((∃ i, decode w = .ok i ∧ engineStep s = exec i s) ∨
      ∃ e, decode w = .error e ∧ engineStep s = .next (illegalCommand w s)) := by
  cases h : s.latch with
  | none => exact .inl ⟨rfl, engineStep_idle h⟩
  | some w =>
    refine .inr ⟨w, rfl, ?_⟩
    cases hd : decode w with
    | ok i => exact .inl ⟨i, rfl, engineStep_ok h hd⟩
    | error e => exact .inr ⟨e, rfl, engineStep_error h hd⟩

end Sys2Proof.Machine
end

