-- ==== Sys2Proof/Laws/Canonical.lean ====
section
/-! SUPPORT. Every operation that writes a buffer's memory or FREQ keeps its canonical form, and the reset state has it. -/

namespace Sys2Proof.Machine

/-- The four buffers' memories are in canonical form. -/
def State.CellsWf (s : State) : Prop := ∀ i, Memory.wf (s.bufAt i).cells

theorem reset_cellsWf : State.reset.CellsWf := by
  intro i
  simp [State.reset, State.resetWith, State.bufAt, Vector.get]

theorem reset_freqs_wf : Memory.wf State.reset.freqs := List.Pairwise.nil

theorem setBufAt_cellsWf {s : State} (h : s.CellsWf) (i : Fin 4) {b : Buffer} (hb : Memory.wf b.cells) :
    (s.setBufAt i b).CellsWf := by
  intro j
  rw [bufAt_setBufAt]
  split
  · exact hb
  · exact h j

theorem setBuf_cellsWf {s : State} (h : s.CellsWf) (i : Fin 4) (x : List Byte) : (s.setBuf i x).CellsWf :=
  setBufAt_cellsWf h i (Memory.ofSeq_wf x 0)

theorem appendBuf_cellsWf {s : State} (h : s.CellsWf) (i : Fin 4) (y : List Byte) : (s.appendBuf i y).CellsWf :=
  setBuf_cellsWf h i _

theorem scratch_cellsWf {s : State} (h : s.CellsWf) (i : Fin 4) : (s.scratch i).CellsWf :=
  setBufAt_cellsWf h i (Memory.ofSeq_wf (s.buf i) 0)

theorem pokeBytes_cellsWf {s : State} (h : s.CellsWf) (i : Fin 4) (j : Nat) (x : List Byte) :
    (s.pokeBytes i j x).CellsWf :=
  setBufAt_cellsWf h i (Memory.putSeq_wf x j (h i))

theorem writeLen_cellsWf {s : State} (h : s.CellsWf) (i : Fin 4) (v : Word) : (s.writeLen i v).CellsWf := by
  unfold State.writeLen
  split
  · exact setBufAt_cellsWf h i (h i)
  · exact h

theorem writeFreq_freqs_wf {s : State} (h : Memory.wf s.freqs) (u : Byte) (f : Word) :
    Memory.wf (s.writeFreq u f).freqs := by
  simp only [State.writeFreq]
  split
  · exact Memory.erase_wf _ h
  · exact Memory.put_wf _ _ h

theorem setFreqs_freqs_wf (s : State) (F : Byte → Word) : Memory.wf (s.setFreqs F).freqs := freqTable_wf F

end Sys2Proof.Machine
end

