-- ==== Sys2Proof/Laws/Exec.lean ====
section
/-! SUPPORT. What every command does, said once: each ends in `finish`, from the state itself or from its destination's scratch form. -/

namespace Sys2Proof.Machine

theorem badOperand_eq (op : Byte) (s : State) : badOperand op s = finish op s (.error .operand) := rfl

theorem runOne_form (op : Byte) (x : OpIdx) (s : State) (f : Fin 4 → Except CmdError Effect) :
    ∃ r, runOne op x s f = finish op s r := by
  rcases runOne_cases op x s f with ⟨-, h⟩ | ⟨k, -, h⟩
  · exact ⟨.error .operand, h⟩
  · exact ⟨_, h⟩

theorem runTwo_form (op : Byte) (rd rs : OpIdx) (s : State) (f : Fin 4 → Fin 4 → Except CmdError Effect) :
    ∃ r, runTwo op rd rs s f = finish op s r := by
  rcases runTwo_cases op rd rs s f with ⟨-, h⟩ | ⟨d, r, -, -, h⟩
  · exact ⟨.error .operand, h⟩
  · exact ⟨_, h⟩

theorem runToBuf_form (op : Byte) (rd rs : OpIdx) (s : State) (f : Fin 4 → Fin 4 → Except CmdError Effect) :
    ∃ t r, runToBuf op rd rs s f = finish op t r ∧ (t = s ∨ ∃ d, index? rd = some d ∧ t = s.scratch d) := by
  rcases runToBuf_cases op rd rs s f with ⟨-, h⟩ | ⟨d, hd, -, h⟩ | ⟨d, r, hd, -, h⟩
  · exact ⟨s, .error .operand, h, .inl rfl⟩
  · exact ⟨_, .error .operand, h, .inr ⟨d, hd, rfl⟩⟩
  · exact ⟨_, _, h, .inr ⟨d, hd, rfl⟩⟩

/-- Every command's step is one completion (R277); what a failed one leaves is the state before it, or that state
with its destination buffer's bytes at LEN and above used as scratch (R279). -/
theorem exec_form (i : Instr) (s : State) : ∃ (failed : State) (r : Except CmdError Effect),
    exec i s = .next (finish i.opcode failed r) ∧
    (failed = s ∨ ∃ d, bufDest i = some d ∧ failed = s.scratch d) := by
  cases i with
  | nop => exact ⟨s, _, rfl, .inl rfl⟩
  | hufBuild => exact ⟨s, _, rfl, .inl rfl⟩
  | bsClear rd => obtain ⟨r, h⟩ := runOne_form Opcode.bsClear rd s _; exact ⟨s, r, congrArg _ h, .inl rfl⟩
  | bsAppend rd b => obtain ⟨r, h⟩ := runOne_form Opcode.bsAppend rd s _; exact ⟨s, r, congrArg _ h, .inl rfl⟩
  | bsPop rd => obtain ⟨r, h⟩ := runOne_form Opcode.bsPop rd s _; exact ⟨s, r, congrArg _ h, .inl rfl⟩
  | bsPops rd => obtain ⟨r, h⟩ := runOne_form Opcode.bsPops rd s _; exact ⟨s, r, congrArg _ h, .inl rfl⟩
  | bsGet rs => obtain ⟨r, h⟩ := runOne_form Opcode.bsGet rs s _; exact ⟨s, r, congrArg _ h, .inl rfl⟩
  | hufCount rs => obtain ⟨r, h⟩ := runOne_form Opcode.hufCount rs s _; exact ⟨s, r, congrArg _ h, .inl rfl⟩
  | bsCat rd rs => obtain ⟨r, h⟩ := runTwo_form Opcode.bsCat rd rs s _; exact ⟨s, r, congrArg _ h, .inl rfl⟩
  | bsRev rd rs => obtain ⟨r, h⟩ := runTwo_form Opcode.bsRev rd rs s _; exact ⟨s, r, congrArg _ h, .inl rfl⟩
  | bsRead rd rs => obtain ⟨r, h⟩ := runTwo_form Opcode.bsRead rd rs s _; exact ⟨s, r, congrArg _ h, .inl rfl⟩
  | hufEnc rd rs => obtain ⟨r, h⟩ := runTwo_form Opcode.hufEnc rd rs s _; exact ⟨s, r, congrArg _ h, .inl rfl⟩
  | recRead rd rs => obtain ⟨r, h⟩ := runTwo_form Opcode.recRead rd rs s _; exact ⟨s, r, congrArg _ h, .inl rfl⟩
  | bsWrite rd rs => obtain ⟨t, r, h, h'⟩ := runToBuf_form Opcode.bsWrite rd rs s _; exact ⟨t, r, congrArg _ h, h'⟩
  | bwtFwd rd rs => obtain ⟨t, r, h, h'⟩ := runToBuf_form Opcode.bwtFwd rd rs s _; exact ⟨t, r, congrArg _ h, h'⟩
  | bwtInv rd rs => obtain ⟨t, r, h, h'⟩ := runToBuf_form Opcode.bwtInv rd rs s _; exact ⟨t, r, congrArg _ h, h'⟩
  | mtfEnc rd rs => obtain ⟨t, r, h, h'⟩ := runToBuf_form Opcode.mtfEnc rd rs s _; exact ⟨t, r, congrArg _ h, h'⟩
  | mtfDec rd rs => obtain ⟨t, r, h, h'⟩ := runToBuf_form Opcode.mtfDec rd rs s _; exact ⟨t, r, congrArg _ h, h'⟩
  | rleEnc rd rs => obtain ⟨t, r, h, h'⟩ := runToBuf_form Opcode.rleEnc rd rs s _; exact ⟨t, r, congrArg _ h, h'⟩
  | rleDec rd rs => obtain ⟨t, r, h, h'⟩ := runToBuf_form Opcode.rleDec rd rs s _; exact ⟨t, r, congrArg _ h, h'⟩
  | hufDec rd rs => obtain ⟨t, r, h, h'⟩ := runToBuf_form Opcode.hufDec rd rs s _; exact ⟨t, r, congrArg _ h, h'⟩
  | recWrite rd rs => obtain ⟨t, r, h, h'⟩ := runToBuf_form Opcode.recWrite rd rs s _; exact ⟨t, r, congrArg _ h, h'⟩

end Sys2Proof.Machine
end

