-- ==== Sys2Proof/Laws/Functions.lean ====
section
/-! SUPPORT. What the commands' own functions do: the lengths of their results, the parsers of serialized streams and records, and the resets. -/

namespace Sys2Proof.Machine

/-! ### Lengths -/

@[simp] theorem rotOrder_length (x : List Byte) : (rotOrder x).length = x.length := by simp [rotOrder]

theorem rotOrder_perm (x : List Byte) : (rotOrder x).Perm (List.range x.length) := List.perm_insertionSort _ _

@[simp] theorem bwtBytes_length (x : List Byte) : (bwtBytes x).length = x.length := by simp [bwtBytes]

theorem bwtUnwind_length (t : List Byte) (k i : Nat) (out : List Byte) :
    (bwtUnwind t k i out).length = k + out.length := by
  induction k generalizing i out with
  | zero => simp [bwtUnwind]
  | succ k ih => rw [bwtUnwind, ih, List.length_cons]; omega

@[simp] theorem bwtInverse_length (t : List Byte) (p : Nat) : (bwtInverse t p).length = t.length := by
  simp [bwtInverse, bwtUnwind_length]

theorem mtfEncodeFrom_length (M x : List Byte) : (mtfEncodeFrom M x).length = x.length := by
  induction x generalizing M with
  | nil => rfl
  | cons c x ih => simp [mtfEncodeFrom, ih]

theorem mtfDecodeFrom_length (M y : List Byte) : (mtfDecodeFrom M y).length = y.length := by
  induction y generalizing M with
  | nil => rfl
  | cons r y ih => simp [mtfDecodeFrom, ih]

@[simp] theorem mtfEncode_length (x : List Byte) : (mtfEncode x).length = x.length := mtfEncodeFrom_length _ x
@[simp] theorem mtfDecode_length (y : List Byte) : (mtfDecode y).length = y.length := mtfDecodeFrom_length _ y

/-- Moving a listed byte to the front only reorders the list (R190). -/
theorem moveToFront_perm {M : List Byte} {c : Byte} (h : c ∈ M) : (moveToFront M c).Perm M :=
  (List.perm_cons_erase h).symm

/-! ### Parsers -/

/-- Every way the parse of a serialized stream ends (R149). -/
theorem readStream_cases (cap : Nat) (m : List Byte) :
    (m.length < 4 ∧ readStream cap m = .error .truncated) ∨
    (4 ≤ m.length ∧ fromBe (m.take 4) > cap ∧ readStream cap m = .error .malformed) ∨
    (4 ≤ m.length ∧ fromBe (m.take 4) ≤ cap ∧ m.length - 4 < ceil8 (fromBe (m.take 4)) ∧
      readStream cap m = .error .truncated) ∨
    (4 ≤ m.length ∧ fromBe (m.take 4) ≤ cap ∧ ceil8 (fromBe (m.take 4)) ≤ m.length - 4 ∧
      readStream cap m = .ok (unpack ((m.drop 4).take (ceil8 (fromBe (m.take 4)))) (fromBe (m.take 4)),
        4 + ceil8 (fromBe (m.take 4)))) := by
  by_cases h : m.length < 4
  · exact .inl ⟨h, by simp [readStream, takeBytes, h, bind, Except.bind]⟩
  · by_cases hc : cap < fromBe (m.take 4)
    · exact .inr (.inl ⟨by omega, hc, by simp [readStream, takeBytes, h, hc, bind, Except.bind]⟩)
    · by_cases hd : m.length - 4 < ceil8 (fromBe (m.take 4))
      · exact .inr (.inr (.inl ⟨by omega, by omega, hd, by simp [readStream, takeBytes, h, hc, hd, bind, Except.bind]⟩))
      · exact .inr (.inr (.inr ⟨by omega, by omega, by omega,
          by simp [readStream, takeBytes, h, hc, hd, bind, Except.bind, pure, Except.pure]⟩))

/-- One table entry of R249: in order and nonzero, or ERR_MALFORMED. -/
theorem parseTable_entry (k : Nat) (last : Int) (v : Byte) (f : Word) (m : List Byte) :
    parseTable (k + 1) last (entryBytes v f ++ m) =
      if decide ((v.toNat : Int) ≤ last) || f == 0 then .error .malformed
      else (parseTable k v.toNat m).map fun p => ((v, f) :: p.1, p.2) := by
  have hf : (fromBe (List.drop 1 (v :: be32 f))) = f.toNat := by simp
  have h0 : (f.toNat == 0) = (f == 0) := by rw [Bool.eq_iff_iff]; simp [← BitVec.toNat_inj]
  rw [parseTable, entryBytes, takeBytes_append (k := 5) (v :: be32 f) m rfl]
  simp only [bind, Except.bind, hf, List.getD_eq_getElem?_getD, List.getElem?_cons_zero, Option.getD_some, h0]
  cases decide ((v.toNat : Int) ≤ last) || f == 0 with
  | true => rfl
  | false =>
    cases parseTable k (v.toNat : Int) m <;> simp [Except.map, pure, Except.pure]

theorem parseTable_short {k : Nat} {last : Int} {m : List Byte} (h : m.length < 5) :
    parseTable (k + 1) last m = .error .truncated := by
  rw [parseTable, takeBytes_short h]; rfl

/-! ### Trees -/

@[simp] theorem join_weight (a b : HuffTree) : (a.join b).weight = a.weight + b.weight := rfl
@[simp] theorem join_leaves (a b : HuffTree) : (a.join b).leaves = a.leaves + b.leaves := rfl

theorem insertNode_perm (m : HuffTree) (L : List HuffTree) : (insertNode m L).Perm (m :: L) := by
  induction L with
  | nil => exact List.Perm.refl _
  | cons t L ih =>
    unfold insertNode
    split
    · exact List.Perm.refl _
    · exact (List.Perm.cons t ih).trans (List.Perm.swap m t L)

/-! ### Resets -/

@[simp] theorem bufAt_hardReset (s : State) (i : Fin 4) : s.hardReset.bufAt i = ⟨0, [], s.draws⟩ := by
  simp [State.bufAt, State.hardReset, State.resetWith, Vector.get]

@[simp] theorem streamAt_hardReset (s : State) (k : Fin 4) : s.hardReset.streamAt k = ⟨0, []⟩ := by
  simp [State.streamAt, State.hardReset, State.resetWith, Vector.get]

theorem softReset_eq_hardReset (s : State) : s.softReset = s.hardReset := rfl

end Sys2Proof.Machine
end

