-- ==== Sys2Proof/Laws/PerInstr.lean ====
section
/-! SUPPORT. Per command: its word matches its own row of the opcode table, whatever its operands. -/

namespace Sys2Proof.Laws.RowMatch

/-- The word of the command matches a row of R116 with the command's opcode: the fields the row does not use are 0. -/
def Statement (i : Instr) : Prop := ∃ row ∈ tableRows, row.1 = i.opcode ∧ encode i &&& row.2.2 = row.2.1

/-- Unused fields are 0 and used ones are masked out: the four shapes of row. -/
theorem mask_rd (op : Byte) (rd : OpIdx) : enc op rd 0 false &&& 0xFFFFF0FF = op.setWidth 32 := by
  apply BitVec.eq_of_getLsbD_eq
  intro i hi
  interval_cases i <;> simp [enc]

theorem mask_imm (op : Byte) (rd : OpIdx) (imm : Bool) : enc op rd 0 imm &&& 0xFFFEF0FF = op.setWidth 32 := by
  apply BitVec.eq_of_getLsbD_eq
  intro i hi
  interval_cases i <;> simp [enc]

theorem mask_rs (op : Byte) (rs : OpIdx) : enc op 0 rs false &&& 0xFFFF0FFF = op.setWidth 32 := by
  apply BitVec.eq_of_getLsbD_eq
  intro i hi
  interval_cases i <;> simp [enc]

theorem mask_rd_rs (op : Byte) (rd rs : OpIdx) : enc op rd rs false &&& 0xFFFF00FF = op.setWidth 32 := by
  apply BitVec.eq_of_getLsbD_eq
  intro i hi
  interval_cases i <;> simp [enc]

theorem nop : Statement .nop :=
  ⟨(0x00, 0x00000000, 0xFFFFFFFF), by decide, rfl, by decide⟩

theorem bsClear (rd : OpIdx) : Statement (.bsClear rd) :=
  ⟨(0x10, 0x00000010, 0xFFFFF0FF), by decide, rfl, mask_rd _ rd⟩

theorem bsAppend (rd : OpIdx) (imm : Bool) : Statement (.bsAppend rd imm) :=
  ⟨(0x11, 0x00000011, 0xFFFEF0FF), by decide, rfl, mask_imm _ rd imm⟩

theorem bsCat (rd : OpIdx) (rs : OpIdx) : Statement (.bsCat rd rs) :=
  ⟨(0x12, 0x00000012, 0xFFFF00FF), by decide, rfl, mask_rd_rs _ rd rs⟩

theorem bsPop (rd : OpIdx) : Statement (.bsPop rd) :=
  ⟨(0x13, 0x00000013, 0xFFFFF0FF), by decide, rfl, mask_rd _ rd⟩

theorem bsPops (rd : OpIdx) : Statement (.bsPops rd) :=
  ⟨(0x14, 0x00000014, 0xFFFFF0FF), by decide, rfl, mask_rd _ rd⟩

theorem bsRev (rd : OpIdx) (rs : OpIdx) : Statement (.bsRev rd rs) :=
  ⟨(0x15, 0x00000015, 0xFFFF00FF), by decide, rfl, mask_rd_rs _ rd rs⟩

theorem bsGet (rs : OpIdx) : Statement (.bsGet rs) :=
  ⟨(0x16, 0x00000016, 0xFFFF0FFF), by decide, rfl, mask_rs _ rs⟩

theorem bsWrite (rd : OpIdx) (rs : OpIdx) : Statement (.bsWrite rd rs) :=
  ⟨(0x17, 0x00000017, 0xFFFF00FF), by decide, rfl, mask_rd_rs _ rd rs⟩

theorem bsRead (rd : OpIdx) (rs : OpIdx) : Statement (.bsRead rd rs) :=
  ⟨(0x18, 0x00000018, 0xFFFF00FF), by decide, rfl, mask_rd_rs _ rd rs⟩

theorem bwtFwd (rd : OpIdx) (rs : OpIdx) : Statement (.bwtFwd rd rs) :=
  ⟨(0x20, 0x00000020, 0xFFFF00FF), by decide, rfl, mask_rd_rs _ rd rs⟩

theorem bwtInv (rd : OpIdx) (rs : OpIdx) : Statement (.bwtInv rd rs) :=
  ⟨(0x21, 0x00000021, 0xFFFF00FF), by decide, rfl, mask_rd_rs _ rd rs⟩

theorem mtfEnc (rd : OpIdx) (rs : OpIdx) : Statement (.mtfEnc rd rs) :=
  ⟨(0x22, 0x00000022, 0xFFFF00FF), by decide, rfl, mask_rd_rs _ rd rs⟩

theorem mtfDec (rd : OpIdx) (rs : OpIdx) : Statement (.mtfDec rd rs) :=
  ⟨(0x23, 0x00000023, 0xFFFF00FF), by decide, rfl, mask_rd_rs _ rd rs⟩

theorem rleEnc (rd : OpIdx) (rs : OpIdx) : Statement (.rleEnc rd rs) :=
  ⟨(0x24, 0x00000024, 0xFFFF00FF), by decide, rfl, mask_rd_rs _ rd rs⟩

theorem rleDec (rd : OpIdx) (rs : OpIdx) : Statement (.rleDec rd rs) :=
  ⟨(0x25, 0x00000025, 0xFFFF00FF), by decide, rfl, mask_rd_rs _ rd rs⟩

theorem hufCount (rs : OpIdx) : Statement (.hufCount rs) :=
  ⟨(0x30, 0x00000030, 0xFFFF0FFF), by decide, rfl, mask_rs _ rs⟩

theorem hufBuild : Statement .hufBuild :=
  ⟨(0x31, 0x00000031, 0xFFFFFFFF), by decide, rfl, by decide⟩

theorem hufEnc (rd : OpIdx) (rs : OpIdx) : Statement (.hufEnc rd rs) :=
  ⟨(0x32, 0x00000032, 0xFFFF00FF), by decide, rfl, mask_rd_rs _ rd rs⟩

theorem hufDec (rd : OpIdx) (rs : OpIdx) : Statement (.hufDec rd rs) :=
  ⟨(0x33, 0x00000033, 0xFFFF00FF), by decide, rfl, mask_rd_rs _ rd rs⟩

theorem recWrite (rd : OpIdx) (rs : OpIdx) : Statement (.recWrite rd rs) :=
  ⟨(0x40, 0x00000040, 0xFFFF00FF), by decide, rfl, mask_rd_rs _ rd rs⟩

theorem recRead (rd : OpIdx) (rs : OpIdx) : Statement (.recRead rd rs) :=
  ⟨(0x41, 0x00000041, 0xFFFF00FF), by decide, rfl, mask_rd_rs _ rd rs⟩

end Sys2Proof.Laws.RowMatch
end

