-- ==== Sys2Proof/Tests/Slice0.lean ====
section
/-! SUPPORT. The model's own tests: the check of well-formedness, the decoding of every command, one step per command on the spec's examples (95_test_vectors.md), the host bus, and a witness for the hypotheses of every statement. -/

set_option Elab.async false

namespace Sys2Proof.Tests

open Sys2Proof.Machine

/-! ### Small states -/

/-- A state after reset with BUF_BYTES = `n` and BS_CAP_BITS = `c`. -/
def fresh (n c : Word) : State := State.resetWith n c 0

/-- BUF_BYTES = 64 and BS_CAP_BITS = 64. -/
def small : State := fresh 64 64

def bytes (x : List Nat) : List Byte := x.map (BitVec.ofNat 8)
def bits (x : List Nat) : List Bool := x.map (· == 1)

/-- FREQ as the spec writes it: the nonzero counts by symbol. -/
def freqOf (x : List (Nat × Word)) (v : Byte) : Word := (x.lookup v.toNat).getD 0

/-- The next state of an outcome. -/
def out : Host.Outcome State Fault Refusal → State
  | .next t => t
  | .fault r => nomatch r
  | .refused _ => State.reset

/-- The state after the command word `w` is issued and completes. -/
def run (w : Nat) (s : State) : State := out (step (s.withFetchWord 32 w))

/-- "banana" through BWT, MTF and RLE: the buffer of the spec's Huffman examples. -/
def ranks : List Byte := bytes [110, 0, 99, 99, 0, 0]

/-- FREQ {0:3, 99:2, 110:1} (HF1). -/
def hf1 : Byte → Word := freqOf [(0, 3), (99, 2), (110, 1)]

/-- Buf(1) = ranks, FREQ of HF1 and its tree. -/
def coded : State := run 0x31 ((small.setBuf 1 ranks).setFreqs hf1)

/-- The payload of HF10. -/
def payload : List Bool := bits [1, 0, 0, 1, 1, 1, 1, 0, 0]

/-- The record of R247's example. -/
def recordBytes : List Byte :=
  bytes [0, 0, 0, 3, 0, 3, 0, 0, 0, 0, 3, 0x63, 0, 0, 0, 2, 0x6E, 0, 0, 0, 1, 0, 0, 0, 9, 0x79, 0]

/-- PRIMARY = 3, FREQ of HF1 and Seq(0) = payload (R247's example). -/
def toRecord : State := { (small.setFreqs hf1).putSeq 0 0 payload with primary := 3 }

/-- A state is legal, as a Bool. -/
def legalCheck (s : State) : Bool :=
  Config.legalParams s.bufBytes s.bsCapBits &&
  (List.finRange 4).all (fun i => decide ((s.len i).toNat ≤ s.bufBytes.toNat) && decide (Memory.wf (s.bufAt i).cells) &&
    (s.bufAt i).cells.all (fun c => decide (c.1 < s.bufBytes.toNat)) && decide ((s.bufAt i).draw < s.draws)) &&
  (List.finRange 4).all (fun k => decide (s.endPos k ≤ s.bsCapBits.toNat)) &&
  decide (Memory.wf s.freqs) && s.freqs.all (fun e => decide (e.1 < 256 ∧ e.2 ≠ 0)) &&
  (!s.hufValid || (s.tree.isSome && decide (s.tree = buildTree s.freq)))

theorem legal_of_check {s : State} (h : legalCheck s = true) : s.Inv := by
  simp only [legalCheck, Bool.and_eq_true, Bool.or_eq_true, List.all_eq_true, decide_eq_true_eq, List.mem_finRange,
    true_implies, Bool.not_eq_true'] at h
  obtain ⟨⟨⟨⟨⟨h1, h2⟩, h3⟩, h4⟩, h5⟩, h6⟩ := h
  refine ⟨h1, fun i => ⟨(h2 i).1.1.1, (h2 i).1.1.2, (h2 i).1.2, (h2 i).2⟩, h3, h4, h5, fun hv => ?_⟩
  rcases h6 with h6 | h6
  · rw [hv] at h6; cases h6
  · exact h6

/-! ### Well-formedness: each check refuses an ill-formed command -/

theorem test_wf_one_rd : (Instr.bsClear 4).wellFormed = false ∧ (Instr.bsAppend 4 true).wellFormed = false ∧
    (Instr.bsPop 15).wellFormed = false ∧ (Instr.bsPops 8).wellFormed = false ∧
    (Instr.bsClear 3).wellFormed = true := by decide
theorem test_wf_one_rs : (Instr.bsGet 4).wellFormed = false ∧ (Instr.hufCount 15).wellFormed = false ∧
    (Instr.bsGet 3).wellFormed = true := by decide
theorem test_wf_two_rd : (Instr.bsCat 4 0).wellFormed = false ∧ (Instr.recRead 4 4).wellFormed = false ∧
    (Instr.bwtFwd 5 0).wellFormed = false ∧ (Instr.hufDec 3 3).wellFormed = true := by decide
theorem test_wf_two_rs : (Instr.bsCat 0 4).wellFormed = false ∧ (Instr.recWrite 3 12).wellFormed = false ∧
    (Instr.rleDec 0 4).wellFormed = false ∧ (Instr.mtfEnc 1 0).wellFormed = true := by decide

/-! ### Decoding: a word of every command, written out from R110 and R116 -/

theorem test_decode_control : decodeTableWord 32 0x00000000 = some .nop := by decide
theorem test_decode_bitstream : decodeTableWord 32 0x00000210 = some (.bsClear 2) ∧
    decodeTableWord 32 0x00010311 = some (.bsAppend 3 true) ∧ decodeTableWord 32 0x00000011 = some (.bsAppend 0 false) ∧
    decodeTableWord 32 0x00001012 = some (.bsCat 0 1) ∧ decodeTableWord 32 0x00000113 = some (.bsPop 1) ∧
    decodeTableWord 32 0x00000314 = some (.bsPops 3) ∧ decodeTableWord 32 0x00000115 = some (.bsRev 1 0) ∧
    decodeTableWord 32 0x00003016 = some (.bsGet 3) ∧ decodeTableWord 32 0x00001217 = some (.bsWrite 2 1) ∧
    decodeTableWord 32 0x00002118 = some (.bsRead 1 2) := by decide
theorem test_decode_transforms : decodeTableWord 32 0x00000120 = some (.bwtFwd 1 0) ∧
    decodeTableWord 32 0x00001221 = some (.bwtInv 2 1) ∧ decodeTableWord 32 0x00000122 = some (.mtfEnc 1 0) ∧
    decodeTableWord 32 0x00001023 = some (.mtfDec 0 1) ∧ decodeTableWord 32 0x00000124 = some (.rleEnc 1 0) ∧
    decodeTableWord 32 0x00001025 = some (.rleDec 0 1) := by decide
theorem test_decode_huffman : decodeTableWord 32 0x00001030 = some (.hufCount 1) ∧
    decodeTableWord 32 0x00000031 = some .hufBuild ∧ decodeTableWord 32 0x00001032 = some (.hufEnc 0 1) ∧
    decodeTableWord 32 0x00003233 = some (.hufDec 2 3) := by decide
theorem test_decode_record : decodeTableWord 32 0x00000240 = some (.recWrite 2 0) ∧
    decodeTableWord 32 0x00002141 = some (.recRead 1 2) := by decide
/-- X5 and X19: an index above 3 still decodes. -/
theorem test_decode_bad_index : decodeTableWord 32 0x00000411 = some (.bsAppend 4 false) ∧
    decodeTableWord 32 0x0000F030 = some (.hufCount 15) := by decide
/-- X6 to X12: the five ERR_ILLEGAL checks, in their order. -/
theorem test_decode_illegal : (decode 0x00001011).isOk = false ∧ (decode 0x00010010).isOk = false ∧
    (decode 0x00020000).isOk = false ∧ (decode 0x80000031).isOk = false ∧ (decode 0x00000F31).isOk = false ∧
    (decode 0x000000FF).isOk = false ∧ (decode 0xFFFFFFFF).isOk = false ∧ (decode 0x00000116).isOk = false := by decide
/-- X5, X8 and X12: ERRCODE and RESULT of a refused word. -/
theorem test_illegal_completion : (run 0x00000411 small).errcodeWord = 0x1102 ∧
    (run 0x00020000 small).errcodeWord = 0x0001 ∧ (run 0xFFFFFFFF small).errcodeWord = 0xFF01 := by decide +kernel

/-! ### One step per command, on the spec's vectors -/

/-- R279, U1: RD names B1 and RS names no buffer; Buf(1) is kept, and the bytes above become a new free draw. -/
theorem test_bad_source : (run 0xF120 (small.setBuf 1 [7])).errcodeWord = 0x2002 ∧
    (run 0xF120 (small.setBuf 1 [7])).buf 1 = [7] ∧
    ((run 0xF120 (small.setBuf 1 [7])).bufAt 1).draw = (small.setBuf 1 [7]).draws := by decide +kernel

/-- R275: ERR_NOT_READY is 4 and ERR_BS_FULL is 7. -/
theorem test_error_codes : (run 0x1032 small).errcodeWord = 0x3204 ∧
    (run 0x11 (small.putSeq 0 1 (List.replicate 63 true))).errcodeWord = 0x1107 := by decide +kernel

/-- R265's example. -/
theorem test_nop : (run 0 small).statusWord = 0 ∧ (run 0 small).errcodeWord = 0 ∧ (run 0 small).irqPend = true := by
  decide +kernel
/-- BS1. -/
theorem test_bs_clear : (run 0x210 (small.putSeq 2 1 (bits [1, 0, 1]))).streamAt 2 = ⟨0, []⟩ := by decide +kernel
/-- BS4: START stays at 5. -/
theorem test_bs_append : (run 0x10111 (small.putSeq 1 5 [])).streamAt 1 = ⟨5, [true]⟩ ∧
    (run 0x10111 (small.putSeq 1 5 [])).result = 1 := by decide +kernel
/-- BS5 and BS6: appending another stream, and a stream to itself. -/
theorem test_bs_cat : (run 0x112 ((small.putSeq 1 0 (bits [0, 1])).putSeq 0 0 (bits [1, 1, 0]))).seq 1 =
    bits [0, 1, 1, 1, 0] ∧ (run 0x12 (small.putSeq 0 0 (bits [1, 0]))).seq 0 = bits [1, 0, 1, 0] := by decide +kernel
/-- BS8 and BS9. -/
theorem test_bs_pop : (run 0x13 (small.putSeq 0 0 (bits [1, 0, 1]))).seq 0 = bits [1, 0] ∧
    (run 0x13 (small.putSeq 0 0 (bits [1, 0, 1]))).result = 1 ∧ (run 0x13 small).result = 0xFFFFFFFF ∧
    (run 0x13 small).err = false := by decide +kernel
/-- BS10. -/
theorem test_bs_pops : (run 0x14 (small.putSeq 0 0 (bits [1, 0, 1]))).streamAt 0 = ⟨1, bits [0, 1]⟩ ∧
    (run 0x14 (small.putSeq 0 0 (bits [1, 0, 1]))).endPos 0 = 3 := by decide +kernel
/-- BS12 and BS13: another stream, and in place. -/
theorem test_bs_rev : (run 0x115 (small.putSeq 0 2 (bits [1, 1, 0, 1]))).streamAt 1 = ⟨0, bits [1, 0, 1, 1]⟩ ∧
    (run 0x15 (small.putSeq 0 0 (bits [1, 1, 0]))).seq 0 = bits [0, 1, 1] := by decide +kernel
/-- BS15 and BS16. -/
theorem test_bs_get : (run 0x3016 { small.putSeq 3 4 (bits [0, 0, 1]) with arg := 2 }).result = 1 ∧
    (run 0x3016 { small.putSeq 3 4 (bits [0, 0, 1]) with arg := 3 }).result = 0xFFFFFFFF := by decide +kernel
/-- W4: the header is big-endian, the bits are least significant first. -/
theorem test_bs_write : (run 0x217 (small.putSeq 0 3 (bits [1, 0, 1, 1, 0, 0, 0, 0, 1]))).buf 2 =
    bytes [0, 0, 0, 9, 0x0D, 1] ∧
    (run 0x217 (small.putSeq 0 3 (bits [1, 0, 1, 1, 0, 0, 0, 0, 1]))).result = 6 := by decide +kernel
/-- W14's second read: it starts at RPOS. -/
theorem test_bs_read : (run 0x2118 { small.setBuf 2 (bytes [0, 0, 0, 1, 1, 0, 0, 0, 2, 3]) with rpos := 5 }).seq 1 =
    bits [1, 1] ∧
    (run 0x2118 { small.setBuf 2 (bytes [0, 0, 0, 1, 1, 0, 0, 0, 2, 3]) with rpos := 5 }).rpos = 10 := by decide +kernel
/-- W8 and W10: a clean end of input, and a short header. -/
theorem test_bs_read_end : (run 0x2118 { small.setBuf 2 (bytes [0, 0, 0]) with rpos := 3 }).eof = true ∧
    (run 0x2118 (small.setBuf 2 (bytes [0, 0, 0]))).errcodeWord = 0x1809 := by decide +kernel
/-- BW9: bytes compare as unsigned values, rotations wrap around. -/
theorem test_bwt_fwd : (run 0x120 (small.setBuf 0 (bytes [0xFF, 0, 0xFF, 0, 1]))).buf 1 =
    bytes [0xFF, 0xFF, 0, 0, 1] ∧ (run 0x120 (small.setBuf 0 (bytes [0xFF, 0, 0xFF, 0, 1]))).primary = 4 := by
  decide +kernel
/-- BW4: equal rotations stand in the order of their offsets. -/
theorem test_bwt_fwd_periodic : (run 0x120 (small.setBuf 0 (bytes [97, 98, 97, 98]))).buf 1 = bytes [98, 98, 97, 97] ∧
    (run 0x120 (small.setBuf 0 (bytes [97, 98, 97, 98]))).result = 0 := by decide +kernel
/-- BI1 and BI10: a forward result, and bytes that are none. -/
theorem test_bwt_inv : (run 0x1221 { small.setBuf 1 (bytes [110, 110, 98, 97, 97, 97]) with primary := 3 }).buf 2 =
    bytes [98, 97, 110, 97, 110, 97] ∧
    (run 0x1221 { small.setBuf 1 (bytes [122, 121, 120]) with primary := 2 }).buf 2 = bytes [120, 122, 120] := by
  decide +kernel
/-- BI12: PRIMARY = n. -/
theorem test_bwt_inv_range :
    (run 0x1221 { small.setBuf 1 (bytes [110, 110, 98, 97, 97, 97]) with primary := 6 }).errcodeWord = 0x2108 := by
  decide +kernel
/-- EX3. -/
theorem test_mtf_enc : (run 0x122 (small.setBuf 0 (bytes [2, 2, 2, 2, 1, 5, 3, 2]))).buf 1 =
    bytes [2, 0, 0, 0, 2, 5, 4, 3] := by decide +kernel
/-- EX3's inverse, and M9. -/
theorem test_mtf_dec : (run 0x1023 (small.setBuf 1 (bytes [2, 0, 0, 0, 2, 5, 4, 3]))).buf 0 =
    bytes [2, 2, 2, 2, 1, 5, 3, 2] ∧
    (run 0x123 (small.setBuf 0 (bytes [255, 0, 255, 1]))).buf 1 = bytes [255, 255, 254, 255] := by decide +kernel
/-- EX4 and RL12. -/
theorem test_rle_enc : (run 0x124 (small.setBuf 0 (bytes [1, 1, 1, 1, 1, 1, 3, 3]))).buf 1 =
    bytes [1, 1, 1, 1, 2, 3, 3] ∧
    (run 0x124 (small.setBuf 0 (bytes [0, 0, 0, 0, 0, 0, 0, 0, 0, 1, 1, 1, 1]))).buf 1 =
      bytes [0, 0, 0, 0, 5, 1, 1, 1, 1, 0] := by decide +kernel
/-- The capacity row of 2.5: BUF_BYTES = 4. -/
theorem test_rle_enc_full : (run 0x124 ((fresh 4 64).setBuf 0 (bytes [7, 7, 7, 7]))).errcodeWord = 0x2406 := by
  decide +kernel
/-- RL19: counting restarts after a count byte. -/
theorem test_rle_dec : (run 0x125 (small.setBuf 0 (bytes [5, 5, 5, 5, 3, 5]))).buf 1 = List.replicate 8 5 := by
  decide +kernel
/-- RL23 and RL22. -/
theorem test_rle_dec_malformed :
    (run 0x125 (small.setBuf 0 (bytes [4, 4, 4, 4, 0, 4, 4, 4, 4]))).errcodeWord = 0x2508 := by decide +kernel
/-- R216's example. -/
theorem test_huf_count : (run 0x1030 (small.setBuf 1 ranks)).freqs = [(0, 3), (99, 2), (110, 1)] ∧
    (run 0x1030 coded).hufValid = false := by decide +kernel
/-- HF2: a new node goes after every node of equal weight. -/
theorem test_huf_build : (((run 0x31 (small.setFreqs (freqOf [(65, 1), (66, 1), (67, 2), (68, 3), (69, 5)]))).codeOf 66) =
    some (bits [1, 1, 1, 1])) ∧
    ((run 0x31 (small.setFreqs (freqOf [(65, 1), (66, 1), (67, 2), (68, 3), (69, 5)]))).codeOf 67 =
      some (bits [1, 1, 0])) := by decide +kernel
/-- HF8 and HF9: the lower weight is the left child; an all-zero FREQ. -/
theorem test_huf_build_edge : (run 0x31 (small.setFreqs (freqOf [(0, 3), (97, 1)]))).codeOf 97 = some [false] ∧
    (run 0x31 small).errcodeWord = 0x3103 := by decide +kernel
/-- HF10 and HF14. -/
theorem test_huf_enc : (run 0x1032 coded).seq 0 = payload ∧ (run 0x1032 coded).result = 9 ∧
    (run 0x1032 (coded.setBuf 1 (bytes [1]))).errcodeWord = 0x3205 := by decide +kernel
/-- HF11 and HF13. -/
theorem test_huf_dec : (run 0x33 (coded.putSeq 0 0 payload)).buf 0 = ranks ∧
    (run 0x33 (coded.putSeq 0 0 (bits [1, 0, 1]))).errcodeWord = 0x330A := by decide +kernel
/-- R247's example. -/
theorem test_rec_write : (run 0x240 toRecord).buf 2 = recordBytes ∧ (run 0x240 toRecord).result = 27 := by
  decide +kernel
/-- R248's example. -/
theorem test_rec_read : (run 0x2141 (small.setBuf 2 recordBytes)).seq 1 = payload ∧
    (run 0x2141 (small.setBuf 2 recordBytes)).freqs = [(0, 3), (99, 2), (110, 1)] ∧
    (run 0x2141 (small.setBuf 2 recordBytes)).primary = 3 ∧ (run 0x2141 (small.setBuf 2 recordBytes)).rpos = 27 := by
  decide +kernel

/-! ### The host bus -/

/-- R84: little-endian windows, and R81: BUFMEM_1 begins at 0x0200_0000. -/
theorem test_window : ((small.memWrite 0x02000004 4 0x11223344).1.memRead 0x02000005 1).2 = .data 0x33 ∧
    ((small.memWrite 0x02000004 4 0x11223344).1.memRead 0x02000006 2).2 = .data 0x1122 := by decide +kernel
/-- R81, R83, R86: unmapped, too wide, misaligned, and beyond BUF_BYTES. -/
theorem test_bus_errors : (small.memRead 0x4000 4).2 = .busErr ∧ (small.memRead 0x0 2).2 = .busErr ∧
    (small.memRead 0x01000001 2).2 = .busErr ∧ (small.memRead 0x01000040 1).2 = .busErr ∧
    (small.memRead 0x05000000 1).2 = .busErr := by decide +kernel
/-- HF1's CODE_BITS and CODE_LEN columns, at the offsets of R31. -/
theorem test_code_registers : (coded.memRead 0x02C 4).2 = .data 3 ∧ (coded.memRead (0x800 + 4 * 110) 4).2 = .data 2 ∧
    (coded.memRead (0x2000 + 32 * 110) 4).2 = .data 1 ∧ (coded.memRead (0x2000 + 32 * 99) 4).2 = .data 3 := by
  decide +kernel
/-- R90, R35: a blocked access sets OVERRUN, and a 1 in bit 4 of STATUS clears it. -/
theorem test_overrun : ((small.issue 0).memRead 0x020 4).1.statusWord = 0x11 ∧
    (((small.issue 0).memRead 0x020 4).1.memWrite 0x014 4 0x10).1.statusWord = 0x01 := by decide +kernel

/-! ### Witnesses: a state and operands that meet the hypotheses of each statement, clause by clause -/

/-- A run of a command ends in its `out`. -/
theorem exec_out (i : Instr) (s : State) : exec i s = .next (out (exec i s)) := by cases i <;> rfl
theorem engineStep_out (s : State) : engineStep s = .next (out (engineStep s)) := by
  rcases engineStep_cases s with ⟨-, h⟩ | ⟨w, -, ⟨i, -, h⟩ | ⟨e, -, h⟩⟩ <;> rw [h]
  · rfl
  · exact exec_out i s
  · rfl
theorem step_out (s : State) : step s = .next (out (step s)) := by
  rcases step_cases s with ⟨-, h⟩ | ⟨rest, ⟨-, h⟩ | ⟨-, h⟩ | ⟨a, n, -, h⟩ | ⟨a, n, v, -, h⟩⟩ <;> rw [h]
  · exact engineStep_out s
  · exact engineStep_out _
  · rfl
  · rfl
  · rfl

/-- S0 has no room; S1 has room for 2 bits. -/
def nearFull : State :=
  (((small.putSeq 0 1 (List.replicate 63 true)).putSeq 1 0 (List.replicate 62 false)).putSeq 2 0 (bits [1, 0])).putSeq 3 0
    (bits [1, 0, 1])

/-- B2 holds 59 bytes, and S0 serializes to 5. -/
def nearFullBuf : State := (small.setBuf 2 (List.replicate 59 7)).putSeq 0 0 (bits [1])

theorem witness_TableRowsSelectCommands : ∃ (s : State) (w : Word) (i : Instr), s.latch = some w ∧ s.inputs = [] ∧
    decode w = .ok i ∧ i.rd.toNat > 3 :=
  ⟨small.issue 0x411, 0x411, .bsAppend 4 false, rfl, rfl, rfl, by decide⟩
theorem witness_TableRowsSelectCommands_rs : ∃ (s : State) (w : Word) (i : Instr), s.latch = some w ∧ s.inputs = [] ∧
    decode w = .ok i ∧ i.rs.toNat > 3 :=
  ⟨small.issue 0xF030, 0xF030, .hufCount 15, rfl, rfl, rfl, by decide⟩
theorem witness_IllegalWordRefused_op : ∃ w : Word, ∀ row ∈ tableRows, opField w ≠ row.1 := ⟨0x19, by simp [tableRows, opField]⟩
theorem witness_IllegalWordRefused_field : ∃ row ∈ tableRows, ∃ w : Word, opField w = row.1 ∧
    w &&& row.2.2 ≠ row.2.1 :=
  ⟨(0x00, 0x00000000, 0xFFFFFFFF), by decide, 0x20000, by decide⟩
theorem witness_IllegalWordRefused_step : ∃ (s : State) (w : Word) (e : DecodeError), s.latch = some w ∧
    s.inputs = [] ∧ decode w = .error e := ⟨small.issue 0x19, 0x19, .undefinedOp, rfl, rfl, rfl⟩
theorem witness_IndexAboveThreeRefused : ∃ i : Instr, i.wellFormed = false ∧ bufDest i = none :=
  ⟨.bsClear 4, by decide⟩
theorem witness_IndexAboveThreeRefused_dest : ∃ i : Instr, i.wellFormed = false ∧ bufDest i = some 3 :=
  ⟨.bwtFwd 3 4, by decide⟩
theorem witness_StepRunsLatchedCommand : ∃ (s : State) (w : Word) (i : Instr), decode w = .ok i ∧ s.latch = some w ∧
    s.inputs = [] := ⟨small.issue 0x31, 0x31, .hufBuild, rfl, rfl, rfl⟩
theorem witness_StepRunsLatchedCommand_turn : ∃ (s : State) (w : Word) (i : Instr) (rest : List Input),
    decode w = .ok i ∧ s.latch = some w ∧ s.inputs = .engine :: rest :=
  ⟨{ small.issue 0x31 with inputs := [.engine, .reset] }, 0x31, .hufBuild, [.reset], rfl, rfl, rfl⟩
theorem witness_StepRunsLatchedCommand_host : ∃ (s u v : State) (a : Addr) (n : Nat) (w : Word) (rest : List Input),
    s.inputs = .read a n :: rest ∧ u.inputs = .write a n w :: rest ∧ v.inputs = .reset :: rest :=
  ⟨{ small with inputs := [.read 0 4, .engine] }, { small with inputs := [.write 0 4 7, .engine] },
    { small with inputs := [.reset, .engine] }, 0, 4, 7, [.engine], rfl, rfl, rfl⟩
theorem witness_StepRunsLatchedCommand_idle : ∃ s : State, s.latch = none ∧ s.inputs = [] := ⟨small, rfl, rfl⟩
theorem witness_DecodeEncodeInverse : ∃ (w : Word) (i : Instr), decode w = .ok i := ⟨0x2141, .recRead 1 2, rfl⟩
theorem witness_NopCompletes : ∃ w : Word, opField w = 0 ∧ w ≠ 0 := ⟨0x100, by decide⟩
theorem witness_BsAppendPushesBit_full : ∃ (s : State) (d : Fin 4), s.Inv ∧ s.endPos d = s.bsCapBits.toNat :=
  ⟨nearFull, 0, legal_of_check (by decide +kernel), by decide +kernel⟩
theorem witness_BsAppendPushesBit : ∃ (s : State) (d : Fin 4), s.Inv ∧ s.endPos d ≠ s.bsCapBits.toNat :=
  ⟨nearFull, 1, legal_of_check (by decide +kernel), by decide +kernel⟩
theorem witness_BsCatAppendsStream_full : ∃ (s : State) (d r : Fin 4), s.Inv ∧
    s.endPos d + (s.seq r).length = s.bsCapBits.toNat + 1 :=
  ⟨nearFull, 1, 3, legal_of_check (by decide +kernel), by decide +kernel⟩
theorem witness_BsCatAppendsStream : ∃ (s : State) (d r : Fin 4), s.Inv ∧
    s.endPos d + (s.seq r).length = s.bsCapBits.toNat :=
  ⟨nearFull, 1, 2, legal_of_check (by decide +kernel), by decide +kernel⟩
theorem witness_BsPopReturnsLastBit_none : ∃ (s : State) (d : Fin 4), s.seq d = [] := ⟨small, 0, rfl⟩
theorem witness_BsPopReturnsLastBit : ∃ (s : State) (d : Fin 4) (x : List Bool) (b : Bool), s.seq d = x ++ [b] :=
  ⟨nearFull, 2, [true], false, by decide +kernel⟩
theorem witness_BsPopsReturnsFirstBit_none : ∃ (s : State) (d : Fin 4), s.Inv ∧ s.seq d = [] :=
  ⟨small, 0, legal_of_check (by decide +kernel), rfl⟩
theorem witness_BsPopsReturnsFirstBit : ∃ (s : State) (d : Fin 4) (b : Bool) (x : List Bool), s.Inv ∧ s.seq d = b :: x :=
  ⟨nearFull, 2, true, [false], legal_of_check (by decide +kernel), by decide +kernel⟩
theorem witness_BsRevReverses : ∃ (s : State) (r : Fin 4) (j : Nat), j + 1 = (s.seq r).length :=
  ⟨nearFull, 2, 1, by decide +kernel⟩
theorem witness_BsGetReadsBit : ∃ (s : State) (r : Fin 4), s.arg.toNat + 1 = (s.seq r).length :=
  ⟨{ nearFull with arg := 1 }, 2, by decide +kernel⟩
theorem witness_BsGetReadsBit_none : ∃ (s : State) (r : Fin 4), s.arg.toNat = (s.seq r).length :=
  ⟨{ nearFull with arg := 2 }, 2, by decide +kernel⟩
theorem witness_SerializedForm : ∃ (x : List Bool) (m b j : Nat), m + 1 = (x.length + 7) / 8 ∧
    b + 1 = 8 ∧ j + 1 = x.length := ⟨payload, 1, 7, 8, by decide⟩
theorem witness_BsWriteAppendsSerialized_full : ∃ (s : State) (d r : Fin 4),
    (s.len d).toNat + (ser (s.seq r)).length = s.bufBytes.toNat + 1 :=
  ⟨(small.setBuf 2 (List.replicate 60 7)).putSeq 0 0 (bits [1]), 2, 0, by decide +kernel⟩
theorem witness_BsWriteAppendsSerialized : ∃ (s : State) (d r : Fin 4),
    (s.len d).toNat + (ser (s.seq r)).length = s.bufBytes.toNat ∧ 0 < (s.len d).toNat :=
  ⟨nearFullBuf, 2, 0, by decide +kernel⟩
theorem witness_BsReadParsesStream_operand : ∃ (s : State) (r : Fin 4), s.rpos.toNat = (s.len r).toNat + 1 :=
  ⟨{ small with rpos := 1 }, 0, by decide +kernel⟩
theorem witness_BsReadParsesStream_eof : ∃ (s : State) (r : Fin 4), s.rpos.toNat = (s.len r).toNat :=
  ⟨small, 0, by decide +kernel⟩
theorem witness_BsReadParsesStream_short : ∃ (s : State) (r : Fin 4) (p : Nat) (m : List Byte),
    p = s.rpos.toNat ∧ p < (s.len r).toNat ∧ m = (s.buf r).drop p ∧ m.length = 3 :=
  ⟨small.setBuf 0 (bytes [0, 0, 0]), 0, 0, bytes [0, 0, 0], by decide +kernel⟩
theorem witness_BsReadParsesStream_long : ∃ (s : State) (r : Fin 4) (p n : Nat) (m : List Byte),
    p = s.rpos.toNat ∧ p < (s.len r).toNat ∧ m = (s.buf r).drop p ∧ n = fromBe (m.take 4) ∧ 4 ≤ m.length ∧
    n = s.bsCapBits.toNat + 1 :=
  ⟨small.setBuf 0 (bytes [0, 0, 0, 65]), 0, 0, 65, bytes [0, 0, 0, 65], by decide +kernel⟩
theorem witness_BsReadParsesStream_noData : ∃ (s : State) (r : Fin 4) (p n : Nat) (m : List Byte),
    p = s.rpos.toNat ∧ p < (s.len r).toNat ∧ m = (s.buf r).drop p ∧ n = fromBe (m.take 4) ∧ 4 ≤ m.length ∧
    n ≤ s.bsCapBits.toNat ∧ m.length - 4 + 1 = (n + 7) / 8 :=
  ⟨small.setBuf 0 (bytes [0, 0, 0, 9, 13]), 0, 0, 9, bytes [0, 0, 0, 9, 13], by decide +kernel⟩
theorem witness_BsReadParsesStream : ∃ (s : State) (r : Fin 4) (p n : Nat) (m : List Byte),
    p = s.rpos.toNat ∧ p < (s.len r).toNat ∧ m = (s.buf r).drop p ∧ n = fromBe (m.take 4) ∧ 4 ≤ m.length ∧
    n = s.bsCapBits.toNat ∧ (n + 7) / 8 = m.length - 4 :=
  ⟨small.setBuf 0 (bytes [0, 0, 0, 64, 1, 2, 3, 4, 5, 6, 7, 8]), 0, 0, 64,
    bytes [0, 0, 0, 64, 1, 2, 3, 4, 5, 6, 7, 8], by decide +kernel⟩
theorem witness_ReverseLaws : ∃ (s t : State) (d r : Fin 4) (i : Nat) (a : Word),
    exec (.bsRev (idx d) (idx r)) s = .next t ∧ i + 1 = (s.seq r).length ∧ (s.seq r).length ≤ 2 ^ 32 ∧
    (s.seq r).length = a.toNat :=
  ⟨nearFull, _, 0, 2, 1, 2, exec_out _ _, by decide +kernel⟩
theorem witness_StreamWriteReadRoundTrip : ∃ (s t : State) (d r : Fin 4), s.Inv ∧
    exec (.bsWrite (idx d) (idx r)) s = .next t ∧ t.err = false :=
  ⟨nearFullBuf, _, 2, 0, legal_of_check (by decide +kernel), exec_out _ _, by decide +kernel⟩
theorem witness_BwtFwdSortsRotations : ∃ (s : State) (r : Fin 4), s.buf r ≠ [] :=
  ⟨small.setBuf 0 (bytes [97]), 0, by decide +kernel⟩
theorem witness_BwtFwdSortsRotations_empty : ∃ (s : State) (r : Fin 4), s.buf r = [] := ⟨small, 0, by decide +kernel⟩
theorem witness_BwtInvReconstructs_empty : ∃ (s : State) (r : Fin 4), s.buf r = [] := ⟨small, 2, by decide +kernel⟩
theorem witness_BwtInvReconstructs_range : ∃ (s : State) (r : Fin 4), s.buf r ≠ [] ∧
    s.primary.toNat = (s.buf r).length :=
  ⟨{ small.setBuf 0 (bytes [98, 97]) with primary := 2 }, 0, by decide +kernel⟩
theorem witness_BwtInvReconstructs : ∃ (s : State) (r : Fin 4) (k n : Nat), n = (s.buf r).length ∧
    s.primary.toNat < n ∧ k + 1 = n :=
  ⟨{ small.setBuf 0 (bytes [98, 97]) with primary := 1 }, 0, 1, 2, by decide +kernel⟩
theorem witness_BwtRoundTrip : ∃ (s t : State) (d r : Fin 4), s.buf r ≠ [] ∧
    exec (.bwtFwd (idx d) (idx r)) s = .next t :=
  ⟨small.setBuf 0 (bytes [97, 98]), _, 1, 0, by decide +kernel, exec_out _ _⟩
/-- "abab": the order 2, 0, 3, 1 breaks the ties the other way. -/
theorem witness_BwtTieBreakIndependence : ∃ (x : List Byte) (τ : List Nat), τ.Perm (List.range x.length) ∧
    τ.Pairwise (fun i j => rot x i < rot x j ∨ rot x i = rot x j) ∧ τ ≠ rotOrder x :=
  ⟨bytes [97, 98, 97, 98], [2, 0, 3, 1], by decide +kernel⟩
/-- BI4: position 1 is not the primary index. -/
theorem witness_BwtTieBreakIndependence_inverse : ∃ (x : List Byte) (q i : Nat), (rotOrder x)[q]? = some i ∧
    rot x i = x ∧ i ≠ 0 := ⟨bytes [97, 98, 97, 98], 1, 2, by decide +kernel⟩
/-- R190: 3 moves from the end of the list to its front. -/
theorem witness_MtfEncWritesRanks_list : ∃ (a b : List Byte) (c : Byte), (a ++ c :: b).Nodup ∧ a.length = 2 :=
  ⟨[1, 2], [], 3, by decide⟩
theorem witness_BwtFwdSortsRotations_rot : ∃ (x : List Byte) (i j : Nat), i + 1 = x.length ∧ j + 1 = x.length :=
  ⟨bytes [97, 98], 1, 1, by decide⟩
theorem witness_MtfEncWritesRanks : ∃ (s : State) (r : Fin 4) (j : Nat), j + 1 = (s.buf r).length :=
  ⟨small.setBuf 0 ranks, 0, 5, by decide +kernel⟩
theorem witness_MtfDecReadsRanks : ∃ (s : State) (r : Fin 4) (j : Nat), j + 1 = (s.buf r).length :=
  ⟨small.setBuf 3 (bytes [255, 0]), 3, 1, by decide +kernel⟩
theorem witness_MtfRoundTrip : ∃ (s t : State) (d r : Fin 4), exec (.mtfEnc (idx d) (idx r)) s = .next t :=
  ⟨small.setBuf 0 ranks, _, 1, 0, exec_out _ _⟩
theorem witness_RleEncodesRuns : ∃ (c : Byte) (L : Nat) (y : List Byte), 0 < L ∧ y.head? ≠ some c :=
  ⟨7, 1, [], by decide⟩
/-- Sixteen runs of four bytes: 80 bytes encoded. -/
theorem witness_RleEncWritesRuns_full : ∃ (s : State) (r : Fin 4), (rle (s.buf r)).length > s.bufBytes.toNat :=
  ⟨small.setBuf 0 ((List.range 16).flatMap fun k => List.replicate 4 (BitVec.ofNat 8 k)), 0, by decide +kernel⟩
theorem witness_RleEncWritesRuns : ∃ (s : State) (r : Fin 4), (rle (s.buf r)).length = s.bufBytes.toNat :=
  ⟨(fresh 5 64).setBuf 0 (bytes [7, 7, 7, 7]), 0, by decide +kernel⟩
theorem witness_RleDecExpandsRuns_malformed : ∃ (s : State) (r : Fin 4), unrle (s.buf r) = .error .malformed :=
  ⟨small.setBuf 0 (bytes [5, 5, 5, 5]), 0, by decide +kernel⟩
theorem witness_RleDecExpandsRuns_full : ∃ (s : State) (r : Fin 4) (x : List Byte), unrle (s.buf r) = .ok x ∧
    x.length = s.bufBytes.toNat + 1 :=
  ⟨(fresh 8 64).setBuf 0 (bytes [7, 7, 7, 7, 5]), 0, List.replicate 9 7, by decide +kernel⟩
theorem witness_RleDecExpandsRuns : ∃ (s : State) (r : Fin 4) (x : List Byte), unrle (s.buf r) = .ok x ∧
    x.length = s.bufBytes.toNat :=
  ⟨(fresh 8 64).setBuf 0 (bytes [7, 7, 7, 7, 4]), 0, List.replicate 8 7, by decide +kernel⟩
/-- A group of three literals, and one of four with a count of 255. -/
theorem witness_RleDecExpandsRuns_groups : ∃ (c : Byte) (k : Nat) (y : List Byte), 0 < k ∧ k + 1 = 4 ∧
    y.head? ≠ some c := ⟨7, 3, [8], by decide⟩
theorem witness_RleRoundTrip : ∃ (s t : State) (d r : Fin 4), exec (.rleEnc (idx d) (idx r)) s = .next t ∧
    t.err = false ∧ (s.buf r).length ≤ s.bufBytes.toNat :=
  ⟨small.setBuf 0 (bytes [7, 7, 7, 7]), _, 1, 0, exec_out _ _, by decide +kernel, by decide +kernel⟩
theorem witness_HufBuildBuildsTree_empty : ∃ s : State, (∀ v, s.freq v = 0) ∧ s.Inv :=
  ⟨small, fun _ => rfl, legal_of_check (by decide +kernel)⟩
theorem witness_HufBuildBuildsTree : ∃ (s : State) (v : Byte), s.freq v ≠ 0 := ⟨toRecord, 99, by decide +kernel⟩
/-- A tree of three leaves. -/
theorem witness_CodesFollowPaths : ∃ (F : Byte → Word) (t : HuffTree) (v : Byte) (p : List Bool),
    buildTree F = some t ∧ t.leaves ≥ 2 ∧ t.code v = some p :=
  ⟨hf1, _, 99, bits [1, 1], Option.some_get (x := buildTree hf1) (by decide +kernel) |>.symm, by decide +kernel⟩
/-- A tree of one leaf. -/
theorem witness_CodesFollowPaths_one : ∃ (F : Byte → Word) (t : HuffTree) (v : Byte) (p : List Bool),
    buildTree F = some t ∧ t.leaves = 1 ∧ t.code v = some p :=
  ⟨freqOf [(97, 1)], .leaf 97 1, 97, [false], by decide +kernel⟩
/-- R219's loop on HF8: one round, from the two leaves to the tree. -/
theorem witness_BuildFollowsRule : ∃ (F : Byte → Word) (t : HuffTree) (v : Byte) (p : List Bool),
    buildTree F = some t ∧ mergeRound [.leaf 97 1, .leaf 0 3] [t] ∧ t.path v = some p :=
  ⟨freqOf [(0, 3), (97, 1)], .node (.leaf 97 1) (.leaf 0 3) 4, 0, [true], by decide +kernel,
    ⟨.leaf 97 1, .leaf 0 3, [], [], rfl, by simp, by simp, rfl⟩, by decide +kernel⟩
theorem witness_PrefixFreeAndKraft : ∃ (F : Byte → Word) (t : HuffTree) (u v : Byte) (p q : List Bool),
    buildTree F = some t ∧ u ≠ v ∧ t.code u = some p ∧ t.code v = some q :=
  ⟨freqOf [(0, 3), (97, 1)], .node (.leaf 97 1) (.leaf 0 3) 4, 0, 97, [true], [false], by decide +kernel⟩
theorem witness_HufEncConcatenatesCodes_notReady : ∃ s : State, s.hufValid = false := ⟨small, rfl⟩
theorem witness_HufEncConcatenatesCodes_noCode : ∃ (s : State) (r : Fin 4) (tr : HuffTree), s.hufValid = true ∧
    s.tree = some tr ∧ ∃ c ∈ s.buf r, tr.code c = none :=
  ⟨coded.setBuf 1 (bytes [1]), 1, _, by decide +kernel,
    Option.some_get (x := coded.tree) (by decide +kernel) |>.symm, 1, by decide +kernel⟩
/-- 33 code words of 2 bits do not fit 64 bits; 32 do. -/
theorem witness_HufEncConcatenatesCodes_full : ∃ (s : State) (r : Fin 4) (tr : HuffTree) (y : List Bool),
    s.hufValid = true ∧ s.tree = some tr ∧ (∀ c ∈ s.buf r, tr.code c ≠ none) ∧
    y = (s.buf r).flatMap (fun c => (tr.code c).getD []) ∧ y.length > s.bsCapBits.toNat :=
  ⟨coded.setBuf 1 (List.replicate 33 99), 1, _, _, by decide +kernel,
    Option.some_get (x := coded.tree) (by decide +kernel) |>.symm, by decide +kernel, rfl, by decide +kernel⟩
theorem witness_HufEncConcatenatesCodes : ∃ (s : State) (r : Fin 4) (tr : HuffTree) (y : List Bool),
    s.hufValid = true ∧ s.tree = some tr ∧ (∀ c ∈ s.buf r, tr.code c ≠ none) ∧
    y = (s.buf r).flatMap (fun c => (tr.code c).getD []) ∧ y.length = s.bsCapBits.toNat :=
  ⟨coded.setBuf 1 (List.replicate 32 99), 1, _, _, by decide +kernel,
    Option.some_get (x := coded.tree) (by decide +kernel) |>.symm, by decide +kernel, rfl, by decide +kernel⟩
/-- BUF_BYTES = 2 and the single-leaf tree of HF6. -/
def oneLeaf (y : List Bool) : State := (run 0x31 ((fresh 2 64).setFreqs (freqOf [(97, 1)]))).putSeq 0 0 y
theorem witness_HufDecWalksTree_notReady : ∃ s : State, s.hufValid = false := ⟨small.putSeq 0 0 [true], rfl⟩
theorem witness_HufDecWalksTree_badCode : ∃ (s : State) (r : Fin 4) (tr : HuffTree), s.hufValid = true ∧
    s.tree = some tr ∧ walk tr (s.seq r) = .error .badCode :=
  ⟨oneLeaf (bits [0, 1]), 0, .leaf 97 1, by decide +kernel⟩
theorem witness_HufDecWalksTree_full : ∃ (s : State) (r : Fin 4) (tr : HuffTree) (x : List Byte), s.hufValid = true ∧
    s.tree = some tr ∧ walk tr (s.seq r) = .ok x ∧ x.length = s.bufBytes.toNat + 1 :=
  ⟨oneLeaf (bits [0, 0, 0]), 0, .leaf 97 1, bytes [97, 97, 97], by decide +kernel⟩
theorem witness_HufDecWalksTree : ∃ (s : State) (r : Fin 4) (tr : HuffTree) (x : List Byte), s.hufValid = true ∧
    s.tree = some tr ∧ walk tr (s.seq r) = .ok x ∧ x.length = s.bufBytes.toNat :=
  ⟨oneLeaf (bits [0, 0]), 0, .leaf 97 1, bytes [97, 97], by decide +kernel⟩
theorem witness_WalkInvertsCodes : ∃ (F : Byte → Word) (t : HuffTree) (y : List Bool) (x : List Byte),
    buildTree F = some t ∧ walk t y = .ok x ∧ x ≠ [] :=
  ⟨freqOf [(0, 3), (97, 1)], .node (.leaf 97 1) (.leaf 0 3) 4, bits [1, 0], bytes [0, 97], by decide +kernel⟩
theorem witness_HuffmanRoundTrip_count : ∃ (s t₁ t₂ t₃ : State) (r k : Fin 4), s.buf r ≠ [] ∧
    exec (.hufCount (idx r)) s = .next t₁ ∧ exec .hufBuild t₁ = .next t₂ ∧
    exec (.hufEnc (idx k) (idx r)) t₂ = .next t₃ ∧ t₃.errCode ≠ some .bsFull ∧
    (s.buf r).length ≤ s.bufBytes.toNat :=
  ⟨small.setBuf 1 ranks, _, _, _, 1, 0, by decide +kernel, exec_out _ _, exec_out _ _, exec_out _ _,
    by decide +kernel, by decide +kernel⟩
theorem witness_HuffmanRoundTrip : ∃ (s t₂ t₃ : State) (r k : Fin 4), s.buf r ≠ [] ∧ (∀ c ∈ s.buf r, s.freq c ≠ 0) ∧
    exec .hufBuild s = .next t₂ ∧ exec (.hufEnc (idx k) (idx r)) t₂ = .next t₃ ∧ t₃.errCode ≠ some .bsFull ∧
    (s.buf r).length ≤ s.bufBytes.toNat :=
  ⟨(small.setBuf 1 ranks).setFreqs hf1, _, _, 1, 0, by decide +kernel, by decide +kernel, exec_out _ _, exec_out _ _,
    by decide +kernel, by decide +kernel⟩
theorem witness_RecWriteAppendsRecord_full : ∃ (s : State) (d r : Fin 4),
    (s.len d).toNat + (s.record (s.seq r)).length = s.bufBytes.toNat + 1 :=
  ⟨toRecord.setBuf 2 (List.replicate 38 7), 2, 0, by decide +kernel⟩
theorem witness_RecWriteAppendsRecord : ∃ (s : State) (d r : Fin 4),
    (s.len d).toNat + (s.record (s.seq r)).length = s.bufBytes.toNat :=
  ⟨toRecord.setBuf 2 (List.replicate 37 7), 2, 0, by decide +kernel⟩
/-- The table of R247's example, and its data bytes. -/
def recordTable : List (Byte × Word) := [(0, 3), (99, 2), (110, 1)]
theorem recordTable_fits : recordFits recordTable 9 (bytes [0x79, 0]) 64 := by
  refine ⟨by simp [recordTable], by simp [recordTable], by decide, rfl, fun h => by cases h⟩
theorem witness_RecReadParsesRecord : ∃ (s : State) (r : Fin 4) (prim : Word) (es : List (Byte × Word)) (n : Nat)
    (data rest : List Byte), recordFits es n data s.bsCapBits.toNat ∧
    (s.buf r).drop s.rpos.toNat = recordOf prim es n data ++ rest :=
  ⟨{ small.setBuf 2 (7 :: recordBytes ++ [5]) with rpos := 1 }, 2, 3, recordTable, 9, bytes [0x79, 0], [5],
    recordTable_fits, by decide +kernel⟩
/-- The head of a record whose table has begun. -/
theorem recordBegins_mk {m : List Byte} {prim : Word} {K : Nat} {es : List (Byte × Word)} {rest : List Byte}
    (hK : K ≤ 256) (hes : es.length ≤ K) (ho : es.Pairwise fun a b => a.1 < b.1) (hf : ∀ e ∈ es, e.2 ≠ 0)
    (hm : m = be32 prim ++ be16 (BitVec.ofNat 16 K) ++ es.flatMap (fun e => e.1 :: be32 e.2) ++ rest) :
    recordBegins m prim K es rest := ⟨hK, hes, ho, hf, hm⟩
/-- K is cut after a first byte of 05, which begins no legal count. -/
theorem witness_RecReadParsesRecord_short : ∃ (s : State) (r : Fin 4) (m : List Byte),
    m = (s.buf r).drop s.rpos.toNat ∧ s.rpos.toNat < (s.len r).toNat ∧ m.length = 5 :=
  ⟨small.setBuf 2 (bytes [0, 0, 0, 3, 5]), 2, _, rfl, by decide +kernel, by decide +kernel⟩
theorem witness_RecReadParsesRecord_count : ∃ (s : State) (r : Fin 4) (prim : Word) (K : BitVec 16) (rest : List Byte),
    s.rpos.toNat < (s.len r).toNat ∧ (s.buf r).drop s.rpos.toNat = be32 prim ++ be16 K ++ rest ∧ K.toNat = 257 :=
  ⟨small.setBuf 2 (bytes [0, 0, 0, 3, 1, 1]), 2, 3, 257, [], by decide +kernel⟩
/-- K = 2, and the buffer ends 4 bytes into the entry after that of symbol 255: no symbol can follow. -/
theorem witness_RecReadParsesRecord_cutEntry : ∃ (s : State) (r : Fin 4) (m rest : List Byte),
    m = (s.buf r).drop s.rpos.toNat ∧ s.rpos.toNat < (s.len r).toNat ∧ recordBegins m 3 2 [(255, 1)] rest ∧
    rest.length = 4 :=
  ⟨small.setBuf 2 (bytes [0, 0, 0, 3, 0, 2, 255, 0, 0, 0, 1, 9, 0, 0, 0]), 2, _, bytes [9, 0, 0, 0], rfl,
    by decide +kernel, recordBegins_mk (by decide) (by decide) (by simp) (by simp) (by decide +kernel), rfl⟩
/-- The second entry repeats the first symbol. -/
theorem witness_RecReadParsesRecord_entry : ∃ (s : State) (r : Fin 4) (m rest' : List Byte),
    m = (s.buf r).drop s.rpos.toNat ∧ s.rpos.toNat < (s.len r).toNat ∧
    recordBegins m 3 2 [(9, 1)] (9 :: be32 1 ++ rest') ∧ ∃ e ∈ [((9 : Byte), (1 : Word))], (9 : Byte) ≤ e.1 :=
  ⟨small.setBuf 2 (bytes [0, 0, 0, 3, 0, 2, 9, 0, 0, 0, 1, 9, 0, 0, 0, 1]), 2, _, [], rfl, by decide +kernel,
    recordBegins_mk (by decide) (by decide) (by simp) (by simp) (by decide +kernel), (9, 1), by simp, by decide⟩
/-- A frequency of 0 in the first of 256 entries. -/
theorem witness_RecReadParsesRecord_zero : ∃ (s : State) (r : Fin 4) (m rest' : List Byte),
    m = (s.buf r).drop s.rpos.toNat ∧ s.rpos.toNat < (s.len r).toNat ∧ recordBegins m 3 256 [] (9 :: be32 0 ++ rest') :=
  ⟨small.setBuf 2 (bytes [0, 0, 0, 3, 1, 0, 9, 0, 0, 0, 0]), 2, _, [], rfl, by decide +kernel,
    recordBegins_mk (by decide) (by decide) (by simp) (by simp) (by decide +kernel)⟩
/-- NBITS is cut after three bytes that are too large for any legal length. -/
theorem witness_RecReadParsesRecord_cutLength : ∃ (s : State) (r : Fin 4) (m rest : List Byte),
    m = (s.buf r).drop s.rpos.toNat ∧ s.rpos.toNat < (s.len r).toNat ∧ recordBegins m 3 1 [(9, 1)] rest ∧
    rest.length = 3 :=
  ⟨small.setBuf 2 (bytes [0, 0, 0, 3, 0, 1, 9, 0, 0, 0, 1, 255, 255, 255]), 2, _, bytes [255, 255, 255], rfl,
    by decide +kernel, recordBegins_mk (by decide) (by decide) (by simp) (by simp) (by decide +kernel), rfl⟩
theorem witness_RecReadParsesRecord_long : ∃ (s : State) (r : Fin 4) (m data : List Byte) (nb : Word),
    m = (s.buf r).drop s.rpos.toNat ∧ s.rpos.toNat < (s.len r).toNat ∧ recordBegins m 3 1 [(9, 1)] (be32 nb ++ data) ∧
    nb.toNat = s.bsCapBits.toNat + 1 :=
  ⟨small.setBuf 2 (bytes [0, 0, 0, 3, 0, 1, 9, 0, 0, 0, 1, 0, 0, 0, 65]), 2, _, [], 65, rfl, by decide +kernel,
    recordBegins_mk (by decide) (by decide) (by simp) (by simp) (by decide +kernel), by decide +kernel⟩
theorem witness_RecReadParsesRecord_noTable : ∃ (s : State) (r : Fin 4) (m data : List Byte),
    m = (s.buf r).drop s.rpos.toNat ∧ s.rpos.toNat < (s.len r).toNat ∧ recordBegins m 3 0 [] (be32 1 ++ data) :=
  ⟨small.setBuf 2 (bytes [0, 0, 0, 3, 0, 0, 0, 0, 0, 1]), 2, _, [], rfl, by decide +kernel,
    recordBegins_mk (by decide) (by decide) (by simp) (by simp) (by decide +kernel)⟩
/-- The last data byte is missing, at the largest length. -/
theorem witness_RecReadParsesRecord_cutData : ∃ (s : State) (r : Fin 4) (m data : List Byte) (nb : Word),
    m = (s.buf r).drop s.rpos.toNat ∧ s.rpos.toNat < (s.len r).toNat ∧ recordBegins m 3 1 [(9, 1)] (be32 nb ++ data) ∧
    nb.toNat = s.bsCapBits.toNat ∧ data.length + 1 = (nb.toNat + 7) / 8 :=
  ⟨small.setBuf 2 (bytes [0, 0, 0, 3, 0, 1, 9, 0, 0, 0, 1, 0, 0, 0, 64, 1, 2, 3, 4, 5, 6, 7]), 2, _,
    bytes [1, 2, 3, 4, 5, 6, 7], 64, rfl, by decide +kernel,
    recordBegins_mk (by decide) (by decide) (by simp) (by simp) (by decide +kernel), by decide +kernel⟩
theorem witness_RecReadParsesRecord_operand : ∃ (s : State) (r : Fin 4), s.rpos.toNat = (s.len r).toNat + 1 :=
  ⟨{ small.setBuf 2 recordBytes with rpos := 28 }, 2, by decide +kernel⟩
theorem witness_RecReadParsesRecord_eof : ∃ (s : State) (r : Fin 4), s.rpos.toNat = (s.len r).toNat :=
  ⟨{ small.setBuf 2 recordBytes with rpos := 27 }, 2, by decide +kernel⟩
theorem witness_RecordRoundTrip : ∃ (s t : State) (d r : Fin 4), s.Inv ∧ (∃ v, s.freq v ≠ 0) ∧
    exec (.recWrite (idx d) (idx r)) s = .next t ∧ t.err = false :=
  ⟨toRecord, _, 2, 0, legal_of_check (by decide +kernel), ⟨99, by decide +kernel⟩, exec_out _ _, by decide +kernel⟩
theorem witness_RecordRoundTrip_empty : ∃ (s t : State) (d r : Fin 4), s.Inv ∧ s.seq r = [] ∧
    exec (.recWrite (idx d) (idx r)) s = .next t ∧ t.err = false :=
  ⟨small, _, 2, 0, legal_of_check (by decide +kernel), rfl, exec_out _ _, by decide +kernel⟩
theorem witness_EveryCommandCompletes : ∃ (s : State) (w : Word), s.latch = some w ∧ s.inputs = [] :=
  ⟨small.issue 0xFFFFFFFF, 0xFFFFFFFF, rfl, rfl⟩
/-- BWT_FWD of an empty block, and an undefined opcode. -/
theorem witness_FailureIsAtomic : ∃ (s t : State) (w : Word) (i : Instr), s.latch = some w ∧ s.inputs = [] ∧
    step s = .next t ∧ t.err = true ∧ decode w = .ok i ∧ bufDest i = some 1 :=
  ⟨small.issue 0x120, _, 0x120, .bwtFwd 1 0, rfl, rfl, step_out _, by decide +kernel, rfl, rfl⟩
theorem witness_FailureIsAtomic_decode : ∃ (s t : State) (w : Word) (e : DecodeError), s.latch = some w ∧
    s.inputs = [] ∧ step s = .next t ∧ t.err = true ∧ decode w = .error e :=
  ⟨small.issue 0x19, _, 0x19, .undefinedOp, rfl, rfl, step_out _, by decide +kernel, rfl⟩
theorem witness_OnlyDestinationChanges : ∃ (i : Instr) (s t : State) (b k : Fin 4), exec i s = .next t ∧
    bufDest i ≠ some b ∧ streamDest i ≠ some k :=
  ⟨.hufDec 1 0, coded.putSeq 0 0 payload, _, 0, 0, exec_out _ _, by decide, by decide⟩
theorem witness_WritersOfSharedRegisters : ∃ (i : Instr) (s t : State), exec i s = .next t ∧ t.err = false :=
  ⟨.hufCount 1, coded, _, exec_out _ _, by decide +kernel⟩
theorem witness_NoneOnlyFromPopAndGet : ∃ (i : Instr) (s t : State), s.Inv ∧ exec i s = .next t ∧
    t.result = 0xFFFFFFFF :=
  ⟨.bsPop 0, small, _, legal_of_check (by decide +kernel), exec_out _ _, by decide +kernel⟩
/-- A legal state with a valid tree, a buffer in use and a host write that clears HUF_VALID next. -/
theorem witness_StepKeepsLegal : ∃ s t : State, s.Inv ∧ step s = .next t ∧ s.hufValid = true ∧ t.hufValid = false :=
  ⟨{ coded with inputs := [.write 0x400 4 5] }, _, legal_of_check (by decide +kernel), step_out _, by decide +kernel⟩
theorem witness_RegisterMap : ∃ (a b c d w : Nat), (a % 4 = 0 ∧ a = 0x038) ∧ (b % 4 = 0 ∧ b + 4 = 0x060) ∧
    (c % 4 = 0 ∧ c + 4 = 0x400) ∧ (d % 4 = 0 ∧ d + 4 = 0x2000) ∧ w + 1 = 8 :=
  ⟨0x038, 0x05C, 0x3FC, 0x1FFC, 7, by decide⟩
/-- The first byte beyond BUF_BYTES, with the access one byte into it. -/
theorem witness_BusErrorChangesNothing : ∃ (s : State) (addr : Addr) (n : Nat), (s.memRead addr n).2 = .busErr :=
  ⟨fresh 3 64, 0x01000002, 2, by decide +kernel⟩
theorem witness_BusyBlocksAccess : ∃ (s : State) (addr : Addr) (n : Nat) (t : Target), s.target? addr n = some t ∧
    s.busy = true ∧ t = .window 3 63 :=
  ⟨small.issue 0, 0x0400003F, 1, .window 3 63, by decide +kernel⟩
theorem witness_BusyBlocksAccess_always : ∃ (s : State) (addr : Addr) (n : Nat), s.target? addr n = some (.reg .irq) ∧
    s.busy = true := ⟨small.issue 0, 0x034, 4, by decide +kernel⟩
theorem witness_WindowWriteThenRead : ∃ (s : State) (addr : Addr) (n : Nat) (i : Fin 4) (j : Nat), s.busy = false ∧
    s.target? addr n = some (.window i j) ∧ j + n = s.bufBytes.toNat :=
  ⟨small, 0x0100003C, 4, 0, 60, by decide +kernel⟩
/-- R46: a stream that begins at 5 and holds 3 bits. -/
theorem test_stream_registers : ((small.putSeq 2 5 (bits [1, 0, 1])).memRead 0x070 4).2 = .data 5 ∧
    ((small.putSeq 2 5 (bits [1, 0, 1])).memRead 0x074 4).2 = .data 8 := by decide +kernel
theorem witness_RegisterMap_address : ∃ addr : Addr, addr.toNat + 4 = 0x4000 ∧ addr.toNat % 4 = 0 :=
  ⟨0x3FFC, by decide⟩
theorem witness_RegisterMap_idle : ∃ s : State, s.busy = false ∧ s.result = 9 := ⟨{ small with result := 9 }, rfl, rfl⟩
/-- The last word of B3. -/
theorem witness_WindowWriteThenRead_address : ∃ (s : State) (addr : Addr) (n : Nat) (i : Fin 4) (j : Nat),
    addr.toNat = 0x01000000 * (i + 1) + j ∧ j < 0x01000000 ∧ j + n = s.bufBytes.toNat ∧ n = 4 ∧ addr.toNat % n = 0 :=
  ⟨small, 0x0400003C, 4, 3, 60, by decide +kernel⟩
theorem witness_HostRegisterWrites : ∃ s : State, s.busy = false := ⟨small, rfl⟩
theorem witness_CmdWriteIssues : ∃ (s : State) (w₀ : Word), s.latch = some w₀ := ⟨small.issue 0x31, 0x31, rfl⟩
theorem witness_ResetsClearState_soft : ∃ (s : State) (v : Word), v.getLsbD 1 = true ∧ s.busy = true :=
  ⟨coded.issue 0, 2, by decide, rfl⟩
theorem witness_ResetsClearState_ctrl : ∃ v : Word, v.getLsbD 1 = false := ⟨1, by decide⟩
theorem witness_ResetRegisterValues : ∃ s t : State, t = s.softReset ∧ s.hufValid = true :=
  ⟨coded, _, rfl, by decide +kernel⟩
theorem witness_CodeRegistersShowCodes_none : ∃ s : State, s.Inv ∧ s.hufValid = false :=
  ⟨small, legal_of_check (by decide +kernel), rfl⟩
theorem witness_CodeRegistersShowCodes : ∃ (s : State) (t : HuffTree) (v u : Byte) (p : List Bool), s.Inv ∧
    s.hufValid = true ∧ s.tree = some t ∧ t.code v = some p ∧ t.code u = none :=
  ⟨oneLeaf [], .leaf 97 1, 97, 98, [false], legal_of_check (by decide +kernel), by decide +kernel⟩
theorem witness_BlockedAccessDoesNotDisturb : ∃ (s u : State) (addr : Addr) (n : Nat) (t : Target), s.busy = true ∧
    s.target? addr n = some t ∧ t.always = false ∧ engineStep s = .next u :=
  ⟨coded.issue 0x1032, _, 0x020, 4, .reg .arg, by decide +kernel, by decide +kernel, rfl, engineStep_out _⟩

end Sys2Proof.Tests
end

/-! ## Proofs about the state: the invariant, the shared registers, the host's register accesses -/

namespace Sys2Proof.Machine

/-! ### The invariant and the state's operations (R6, R40, R45, R48, R53) -/

theorem State.Inv.bufBytes_le {s : State} (h : s.Inv) : s.bufBytes.toNat ≤ 0x01000000 := by
  have hp := h.params
  simp only [Config.legalParams, Bool.and_eq_true, decide_eq_true_eq] at hp
  omega

/-- The largest 32-bit multiple of 8 bounds BS_CAP_BITS (R6). -/
theorem State.Inv.bsCapBits_le {s : State} (h : s.Inv) : s.bsCapBits.toNat ≤ 0xFFFFFFF8 := by
  have hp := h.params
  simp only [Config.legalParams, Bool.and_eq_true, decide_eq_true_eq, beq_iff_eq] at hp
  omega

theorem State.Inv.len_le {s : State} (h : s.Inv) (i : Fin 4) : (s.len i).toNat ≤ s.bufBytes.toNat :=
  (h.buffers i).len_le

theorem State.Inv.seq_length_le {s : State} (h : s.Inv) (k : Fin 4) : (s.seq k).length ≤ s.bsCapBits.toNat := by
  have hk := h.streams k
  unfold State.endPos at hk
  omega

/-- The invariant speaks of the parameters, the memories, FREQ, TREE and HUF_VALID alone. -/
theorem inv_congr {s t : State} (h : s.Inv) (hp : t.bufBytes = s.bufBytes := by rfl)
    (hc : t.bsCapBits = s.bsCapBits := by rfl) (hb : t.bufs = s.bufs := by rfl) (hd : t.draws = s.draws := by rfl)
    (hs : t.streams = s.streams := by rfl) (hf : t.freqs = s.freqs := by rfl) (ht : t.tree = s.tree := by rfl)
    (hv : t.hufValid = s.hufValid := by rfl) : t.Inv where
  params := by rw [hp, hc]; exact h.params
  buffers i := by
    have hi := bufAt_congr hb i
    obtain ⟨hlen, hwf, hin, hdraw⟩ := h.buffers i
    exact ⟨by rw [len_congr hi, hp]; exact hlen, by rw [hi]; exact hwf, by rw [hi, hp]; exact hin,
      by rw [hi, hd]; exact hdraw⟩
  streams k := by
    have hk := keepsStream_of_streamAt (streamAt_congr hs k)
    rw [hk.endPos, hc]; exact h.streams k
  freqs_wf := hf ▸ h.freqs_wf
  freqs_in := hf ▸ h.freqs_in
  tree hvalid := by
    rw [funext (freq_congr hf), ht]
    exact h.tree (hv ▸ hvalid)

@[simp] theorem bufAt_resetWith (b c : Word) (d : Nat) (i : Fin 4) : (State.resetWith b c d).bufAt i = ⟨0, [], d⟩ := by
  simp [State.bufAt, State.resetWith, Vector.get]

@[simp] theorem streamAt_resetWith (b c : Word) (d : Nat) (k : Fin 4) :
    (State.resetWith b c d).streamAt k = ⟨0, []⟩ := by
  simp [State.streamAt, State.resetWith, Vector.get]

theorem resetWith_inv {b c : Word} (h : Config.legalParams b c = true) (d : Nat) : (State.resetWith b c d).Inv where
  params := h
  buffers i := ⟨by simp [State.len], by simp, by simp, by rw [bufAt_resetWith]; exact Nat.lt_succ_self d⟩
  streams k := by simp [State.endPos, State.startPos, State.seq]
  freqs_wf := List.Pairwise.nil
  freqs_in := by simp [State.resetWith]
  tree hv := by simp [State.resetWith] at hv

theorem hardReset_inv {s : State} (h : s.Inv) : s.hardReset.Inv :=
  inv_congr (resetWith_inv h.params s.draws)

/-- A buffer is written with a memory that is canonical and inside BUFMEM, of an event already numbered. -/
theorem setBufAt_inv {s : State} (h : s.Inv) (d : Fin 4) {b : Buffer} {n : Nat}
    (hlen : b.len.toNat ≤ s.bufBytes.toNat) (hwf : Memory.wf b.cells) (hin : ∀ c ∈ b.cells, c.1 < s.bufBytes.toNat)
    (hdraw : b.draw < n) (hn : s.draws ≤ n) : State.Inv { s.setBufAt d b with draws := n } where
  params := h.params
  buffers i := by
    have hi : State.bufAt { s.setBufAt d b with draws := n } i = if d = i then b else s.bufAt i :=
      bufAt_setBufAt s d i b
    by_cases hdi : d = i
    · rw [if_pos hdi] at hi
      exact ⟨by rw [State.len, hi]; exact hlen, by rw [hi]; exact hwf, by rw [hi]; exact hin, by rw [hi]; exact hdraw⟩
    · rw [if_neg hdi] at hi
      obtain ⟨hl, hw, hc, hd⟩ := h.buffers i
      exact ⟨by rw [len_congr hi]; exact hl, by rw [hi]; exact hw, by rw [hi]; exact hc,
        by rw [hi]; exact lt_of_lt_of_le hd hn⟩
  streams := h.streams
  freqs_wf := h.freqs_wf
  freqs_in := h.freqs_in
  tree := h.tree

theorem setBuf_inv {s : State} (h : s.Inv) (d : Fin 4) {x : List Byte} (hx : x.length ≤ s.bufBytes.toNat) :
    (s.setBuf d x).Inv := by
  refine setBufAt_inv h d ?_ (Memory.ofSeq_wf x 0) (fun c hc => ?_) (Nat.lt_succ_self _) (Nat.le_succ _)
  · exact le_trans (by simpa using Nat.mod_le _ _) hx
  · have := (Memory.mem_ofSeq hc).2
    omega

theorem scratch_inv {s : State} (h : s.Inv) (d : Fin 4) : (s.scratch d).Inv := by
  refine setBufAt_inv h d (h.len_le d) (Memory.ofSeq_wf _ 0) (fun c hc => ?_) (Nat.lt_succ_self _) (Nat.le_succ _)
  have hc' := (Memory.mem_ofSeq hc).2
  have := h.len_le d
  rw [buf_length] at hc'
  omega

theorem pokeBytes_inv {s : State} (h : s.Inv) (i : Fin 4) {j : Nat} {x : List Byte}
    (hx : j + x.length ≤ s.bufBytes.toNat) : (s.pokeBytes i j x).Inv := by
  obtain ⟨hlen, hwf, hin, hdraw⟩ := h.buffers i
  refine setBufAt_inv h i hlen (Memory.putSeq_wf x j hwf) (fun c hc => ?_) hdraw le_rfl
  rcases Memory.mem_putSeq hc with hc | hc
  · omega
  · exact hin c hc

theorem writeLen_inv {s : State} (h : s.Inv) (i : Fin 4) (v : Word) : (s.writeLen i v).Inv := by
  obtain ⟨-, hwf, hin, hdraw⟩ := h.buffers i
  unfold State.writeLen
  split
  · next hv => exact setBufAt_inv h i hv hwf hin hdraw le_rfl
  · exact h

theorem putSeq_inv {s : State} (h : s.Inv) (d : Fin 4) {p : Word} {x : List Bool}
    (hx : p.toNat + x.length ≤ s.bsCapBits.toNat) : (s.putSeq d p x).Inv where
  params := h.params
  buffers i := ⟨(h.buffers i).len_le, (h.buffers i).cells_wf, (h.buffers i).cells_in, (h.buffers i).draw_lt⟩
  streams k := by
    by_cases hk : d = k
    · subst hk; simpa using hx
    · rw [(keepsStream_of_streamAt (by simp [hk] : (s.putSeq d p x).streamAt k = s.streamAt k)).endPos]
      exact h.streams k
  freqs_wf := h.freqs_wf
  freqs_in := h.freqs_in
  tree := h.tree

/-- FREQ takes a canonical table, and HUF_VALID is cleared: TREE need not follow (R48, R53). -/
theorem newFreqs_inv {s : State} (h : s.Inv) {m : List (Nat × Word)} (hwf : Memory.wf m)
    (hin : ∀ e ∈ m, e.1 < 256 ∧ e.2 ≠ 0) : State.Inv { s with freqs := m, hufValid := false } where
  params := h.params
  buffers i := ⟨(h.buffers i).len_le, (h.buffers i).cells_wf, (h.buffers i).cells_in, (h.buffers i).draw_lt⟩
  streams := h.streams
  freqs_wf := hwf
  freqs_in := hin
  tree hv := by cases hv

theorem setFreqs_inv {s : State} (h : s.Inv) (F : Byte → Word) : (s.setFreqs F).Inv :=
  newFreqs_inv h (freqTable_wf F) (freqTable_mem F)

theorem writeFreq_inv {s : State} (h : s.Inv) (u : Byte) (f : Word) : (s.writeFreq u f).Inv := by
  refine newFreqs_inv h (writeFreq_freqs_wf h.freqs_wf u f) fun e he => ?_
  split at he
  · exact h.freqs_in e (Memory.mem_erase he)
  · next hf =>
    rcases Memory.mem_put he with rfl | he
    · exact ⟨u.isLt, hf⟩
    · exact h.freqs_in e he

/-- TREE takes Build(FREQ) (R218, R53). -/
theorem newTree_inv {s : State} (h : s.Inv) {t : HuffTree} (ht : buildTree s.freq = some t) :
    State.Inv { s with tree := some t, hufValid := true } where
  params := h.params
  buffers i := ⟨(h.buffers i).len_le, (h.buffers i).cells_wf, (h.buffers i).cells_in, (h.buffers i).draw_lt⟩
  streams := h.streams
  freqs_wf := h.freqs_wf
  freqs_in := h.freqs_in
  tree _ := ⟨rfl, ht.symm⟩

theorem complete_inv {s : State} (h : s.Inv) (op : Byte) (c : Option CmdError) (e : Bool) (r : Word) :
    (s.complete op c e r).Inv :=
  inv_congr h

theorem writeReg_inv {s : State} (h : s.Inv) (r : Reg) (v : Word) : (s.writeReg r v).Inv := by
  cases r with
  | cmd | status | arg | primary | rpos | irq => exact inv_congr h
  | ctrl =>
    show (s.writeCtrl v).Inv
    unfold State.writeCtrl
    split
    · exact hardReset_inv h
    · exact inv_congr h
  | len i => exact writeLen_inv h i v
  | freq u => exact writeFreq_inv h u v
  | id | version | paramBuf | paramBs | errcode | result | nsym | bsStart | bsEnd | codeLen | codeBits
  | reserved => exact h

/-- A host read changes OVERRUN at most (R85, R90). -/
theorem memRead_inv {s : State} (h : s.Inv) (addr : Addr) (n : Nat) : (s.memRead addr n).1.Inv := by
  rcases memRead_cases s addr n with ⟨-, e⟩ | ⟨t, -, ⟨-, -, e⟩ | ⟨-, e⟩⟩ <;> rw [e]
  · exact h
  · exact inv_congr h
  · exact h

theorem memWrite_inv {s : State} (h : s.Inv) (addr : Addr) (n : Nat) (v : Word) : (s.memWrite addr n v).1.Inv := by
  rcases memWrite_cases s addr n v with ⟨-, e⟩ | ⟨t, ht, ⟨-, -, e⟩ | ⟨-, e⟩⟩ <;> rw [e]
  · exact h
  · exact inv_congr h
  · rcases target?_cases ht with ⟨-, -, -, rfl⟩ | ⟨i, j, -, -, hj, -, -, rfl⟩
    · exact writeReg_inv h _ v
    · exact pokeBytes_inv h i (by rwa [leBytes_length])

theorem respond_inv {r : State × BusResp} (h : r.1.Inv) : (respond r).Inv :=
  inv_congr h

/-! ### What a command does when it raises nothing -/

/-- The success rule of every command: what holds when it raises nothing, the writes it makes, and the values for
RESULT and STATUS.EOF. `exec_ends` ties the rules to `exec`: a command either fails or does what its rule says. -/
inductive Succeeds (s : State) : Instr → Effect → Prop
  | nop : Succeeds s .nop ⟨s, 0, false⟩
  | bsClear (d : Fin 4) : Succeeds s (.bsClear (idx d)) ⟨s.setSeq d [], 0, false⟩
  | bsAppend (d : Fin 4) (b : Bool) (room : s.endPos d ≠ s.bsCapBits.toNat) :
      Succeeds s (.bsAppend (idx d) b) ⟨s.appendSeq d [b], BitVec.ofNat 32 ((s.seq d).length + 1), false⟩
  | bsCat (d r : Fin 4) (fits : s.endPos d + (s.seq r).length ≤ s.bsCapBits.toNat) :
      Succeeds s (.bsCat (idx d) (idx r))
        ⟨s.appendSeq d (s.seq r), BitVec.ofNat 32 ((s.seq d).length + (s.seq r).length), false⟩
  | bsPop (d : Fin 4) : Succeeds s (.bsPop (idx d))
      ⟨s.putSeq d (s.streamAt d).start (s.seq d).dropLast, bitResult (s.seq d).getLast?, false⟩
  | bsPopsEmpty (d : Fin 4) (empty : s.seq d = []) : Succeeds s (.bsPops (idx d)) ⟨s, bitResult none, false⟩
  | bsPops (d : Fin 4) (b : Bool) (x : List Bool) (bits : s.seq d = b :: x) :
      Succeeds s (.bsPops (idx d)) ⟨s.putSeq d ((s.streamAt d).start + 1) x, bitResult (some b), false⟩
  | bsRev (d r : Fin 4) : Succeeds s (.bsRev (idx d) (idx r))
      ⟨s.setSeq d (s.seq r).reverse, BitVec.ofNat 32 (s.seq r).length, false⟩
  | bsGet (r : Fin 4) : Succeeds s (.bsGet (idx r)) ⟨s, bitResult (s.seq r)[s.arg.toNat]?, false⟩
  | bsWrite (d r : Fin 4) (fits : (s.len d).toNat + (ser (s.seq r)).length ≤ s.bufBytes.toNat) :
      Succeeds s (.bsWrite (idx d) (idx r))
        ⟨s.appendBuf d (ser (s.seq r)), BitVec.ofNat 32 (ser (s.seq r)).length, false⟩
  | bsReadEnd (d r : Fin 4) (atEnd : s.rpos.toNat = (s.len r).toNat) :
      Succeeds s (.bsRead (idx d) (idx r)) ⟨s, 0, true⟩
  | bsRead (d r : Fin 4) (x : List Bool) (used : Nat) (before : s.rpos.toNat < (s.len r).toNat)
      (parsed : readStream s.bsCapBits.toNat ((s.buf r).drop s.rpos.toNat) = .ok (x, used)) :
      Succeeds s (.bsRead (idx d) (idx r))
        ⟨{ s.setSeq d x with rpos := BitVec.ofNat 32 (s.rpos.toNat + used) }, BitVec.ofNat 32 used, false⟩
  | bwtFwd (d r : Fin 4) (nonempty : s.buf r ≠ []) : Succeeds s (.bwtFwd (idx d) (idx r))
      ⟨{ s.setBuf d (bwtBytes (s.buf r)) with primary := BitVec.ofNat 32 (bwtPrimary (s.buf r)) },
        BitVec.ofNat 32 (bwtPrimary (s.buf r)), false⟩
  | bwtInv (d r : Fin 4) (inRange : s.primary.toNat < (s.buf r).length) : Succeeds s (.bwtInv (idx d) (idx r))
      ⟨s.setBuf d (bwtInverse (s.buf r) s.primary.toNat), BitVec.ofNat 32 (s.buf r).length, false⟩
  | mtfEnc (d r : Fin 4) : Succeeds s (.mtfEnc (idx d) (idx r))
      ⟨s.setBuf d (mtfEncode (s.buf r)), BitVec.ofNat 32 (s.buf r).length, false⟩
  | mtfDec (d r : Fin 4) : Succeeds s (.mtfDec (idx d) (idx r))
      ⟨s.setBuf d (mtfDecode (s.buf r)), BitVec.ofNat 32 (s.buf r).length, false⟩
  | rleEnc (d r : Fin 4) (fits : (rle (s.buf r)).length ≤ s.bufBytes.toNat) : Succeeds s (.rleEnc (idx d) (idx r))
      ⟨s.setBuf d (rle (s.buf r)), BitVec.ofNat 32 (rle (s.buf r)).length, false⟩
  | rleDec (d r : Fin 4) (x : List Byte) (expanded : unrle (s.buf r) = .ok x)
      (fits : x.length ≤ s.bufBytes.toNat) :
      Succeeds s (.rleDec (idx d) (idx r)) ⟨s.setBuf d x, BitVec.ofNat 32 x.length, false⟩
  | hufCount (r : Fin 4) : Succeeds s (.hufCount (idx r))
      ⟨s.setFreqs fun v => BitVec.ofNat 32 ((s.buf r).countP fun c => c == v),
        BitVec.ofNat 32 (s.buf r).length, false⟩
  | hufBuild (t : HuffTree) (built : buildTree s.freq = some t) :
      Succeeds s .hufBuild ⟨{ s with tree := some t, hufValid := true }, BitVec.ofNat 32 t.leaves, false⟩
  | hufEnc (d r : Fin 4) (t : HuffTree) (y : List Bool) (ready : s.validTree = some t)
      (encoded : encodeBytes t (s.buf r) = some y) (fits : y.length ≤ s.bsCapBits.toNat) :
      Succeeds s (.hufEnc (idx d) (idx r)) ⟨s.setSeq d y, BitVec.ofNat 32 y.length, false⟩
  | hufDec (d r : Fin 4) (t : HuffTree) (x : List Byte) (ready : s.validTree = some t)
      (walked : walk t (s.seq r) = .ok x) (fits : x.length ≤ s.bufBytes.toNat) :
      Succeeds s (.hufDec (idx d) (idx r)) ⟨s.setBuf d x, BitVec.ofNat 32 x.length, false⟩
  | recWrite (d r : Fin 4) (fits : (s.len d).toNat + (s.record (s.seq r)).length ≤ s.bufBytes.toNat) :
      Succeeds s (.recWrite (idx d) (idx r))
        ⟨s.appendBuf d (s.record (s.seq r)), BitVec.ofNat 32 (s.record (s.seq r)).length, false⟩
  | recReadEnd (d r : Fin 4) (atEnd : s.rpos.toNat = (s.len r).toNat) :
      Succeeds s (.recRead (idx d) (idx r)) ⟨s, 0, true⟩
  | recRead (d r : Fin 4) (p : ParsedRecord) (before : s.rpos.toNat < (s.len r).toNat)
      (parsed : parseRecord s.bsCapBits.toNat ((s.buf r).drop s.rpos.toNat) = .ok p) :
      Succeeds s (.recRead (idx d) (idx r))
        ⟨{ (s.setFreqs (entryFreq p.entries)).setSeq d p.payload with
            primary := p.prim
            rpos := BitVec.ofNat 32 (s.rpos.toNat + p.used) }, BitVec.ofNat 32 p.used, false⟩

/-- How a command ends: it raised an error, and completes from the state before it or from that state with its
destination buffer used as scratch (R279); or its success rule held. -/
inductive Ends (i : Instr) (s : State) : State → Prop
  | failed (c : CmdError) (u : State) (before : u = s ∨ ∃ d, bufDest i = some d ∧ u = s.scratch d) :
      Ends i s (u.complete i.opcode (some c) false 0)
  | succeeded (e : Effect) (rule : Succeeds s i e) : Ends i s (e.state.complete i.opcode none e.eof e.result)

theorem ok_of_bind {α β : Type} {x : Except CmdError α} {f : α → Except CmdError β} {b : β}
    (h : (x >>= f) = .ok b) : ∃ a, x = .ok a ∧ f a = .ok b := by
  cases x with
  | error c => cases h
  | ok a => exact ⟨a, rfl, h⟩

theorem ok_of_refuseIf {β : Type} {bad : Bool} {c : CmdError} {f : Unit → Except CmdError β} {b : β}
    (h : (refuseIf bad c >>= f) = .ok b) : bad = false ∧ f () = .ok b := by
  cases bad with
  | true => cases h
  | false => exact ⟨rfl, h⟩

theorem validTree_of_needTree {s : State} {t : HuffTree} (h : s.needTree = .ok t) : s.validTree = some t := by
  unfold State.needTree at h
  split at h
  · next ht => cases h; exact ht
  · cases h

section
variable {i : Instr} {s : State}

theorem finish_ends {u : State} {r : Except CmdError Effect}
    (before : u = s ∨ ∃ d, bufDest i = some d ∧ u = s.scratch d)
    (rule : ∀ e, r = .ok e → Succeeds s i e) : Ends i s (finish i.opcode u r) := by
  cases r with
  | error c => exact .failed c u before
  | ok e => exact .succeeded e (rule e rfl)

theorem runOne_ends {x : OpIdx} {f : Fin 4 → Except CmdError Effect}
    (rule : ∀ k e, x = idx k → f k = .ok e → Succeeds s i e) : Ends i s (runOne i.opcode x s f) := by
  rcases runOne_cases i.opcode x s f with ⟨-, h⟩ | ⟨k, hk, h⟩ <;> rw [h]
  · exact .failed _ s (.inl rfl)
  · exact finish_ends (.inl rfl) fun e => rule k e (index?_eq_some.1 hk)

theorem runTwo_ends {rd rs : OpIdx} {f : Fin 4 → Fin 4 → Except CmdError Effect}
    (rule : ∀ d r e, rd = idx d → rs = idx r → f d r = .ok e → Succeeds s i e) :
    Ends i s (runTwo i.opcode rd rs s f) := by
  rcases runTwo_cases i.opcode rd rs s f with ⟨-, h⟩ | ⟨d, r, hd, hr, h⟩ <;> rw [h]
  · exact .failed _ s (.inl rfl)
  · exact finish_ends (.inl rfl) fun e => rule d r e (index?_eq_some.1 hd) (index?_eq_some.1 hr)

theorem runToBuf_ends {rd rs : OpIdx} {f : Fin 4 → Fin 4 → Except CmdError Effect} (dest : bufDest i = index? rd)
    (rule : ∀ d r e, rd = idx d → rs = idx r → f d r = .ok e → Succeeds s i e) :
    Ends i s (runToBuf i.opcode rd rs s f) := by
  rcases runToBuf_cases i.opcode rd rs s f with ⟨-, h⟩ | ⟨d, hd, -, h⟩ | ⟨d, r, hd, hr, h⟩ <;> rw [h]
  · exact .failed _ s (.inl rfl)
  · exact .failed _ _ (.inr ⟨d, dest.trans hd, rfl⟩)
  · exact finish_ends (.inr ⟨d, dest.trans hd, rfl⟩) fun e => rule d r e (index?_eq_some.1 hd) (index?_eq_some.1 hr)

end

/-- Every command ends, and this is every way it does: the inversion lemma of `exec`. -/
theorem exec_ends (i : Instr) (s : State) : ∃ t, exec i s = .next t ∧ Ends i s t := by
  cases i with
  | nop => exact ⟨_, rfl, finish_ends (.inl rfl) fun e h => by cases h; exact .nop⟩
  | bsClear rd =>
    refine ⟨_, rfl, runOne_ends ?_⟩
    rintro d e rfl h
    cases h
    exact .bsClear d
  | bsAppend rd b =>
    refine ⟨_, rfl, runOne_ends ?_⟩
    rintro d e rfl h
    obtain ⟨room, h⟩ := ok_of_refuseIf h
    cases h
    exact .bsAppend d b (by simpa using room)
  | bsCat rd rs =>
    refine ⟨_, rfl, runTwo_ends ?_⟩
    rintro d r e rfl rfl h
    obtain ⟨fits, h⟩ := ok_of_refuseIf h
    cases h
    exact .bsCat d r (by simpa using fits)
  | bsPop rd =>
    refine ⟨_, rfl, runOne_ends ?_⟩
    rintro d e rfl h
    cases h
    exact .bsPop d
  | bsPops rd =>
    refine ⟨_, rfl, runOne_ends ?_⟩
    rintro d e rfl h
    split at h
    · next empty => cases h; exact .bsPopsEmpty d empty
    · next b x bits => cases h; exact .bsPops d b x bits
  | bsRev rd rs =>
    refine ⟨_, rfl, runTwo_ends ?_⟩
    rintro d r e rfl rfl h
    cases h
    exact .bsRev d r
  | bsGet rs =>
    refine ⟨_, rfl, runOne_ends ?_⟩
    rintro r e rfl h
    cases h
    exact .bsGet r
  | bsWrite rd rs =>
    refine ⟨_, rfl, runToBuf_ends rfl ?_⟩
    rintro d r e rfl rfl h
    obtain ⟨fits, h⟩ := ok_of_refuseIf h
    cases h
    exact .bsWrite d r (by simpa using fits)
  | bsRead rd rs =>
    refine ⟨_, rfl, runTwo_ends ?_⟩
    rintro d r e rfl rfl h
    obtain ⟨inRange, h⟩ := ok_of_refuseIf h
    split at h
    · next atEnd => cases h; exact .bsReadEnd d r atEnd
    · next notEnd =>
      obtain ⟨⟨x, used⟩, parsed, h⟩ := ok_of_bind h
      cases h
      exact .bsRead d r x used (by have := of_decide_eq_false inRange; omega) parsed
  | bwtFwd rd rs =>
    refine ⟨_, rfl, runToBuf_ends rfl ?_⟩
    rintro d r e rfl rfl h
    obtain ⟨nonempty, h⟩ := ok_of_refuseIf h
    cases h
    exact .bwtFwd d r (List.isEmpty_eq_false_iff.1 nonempty)
  | bwtInv rd rs =>
    refine ⟨_, rfl, runToBuf_ends rfl ?_⟩
    rintro d r e rfl rfl h
    obtain ⟨-, h⟩ := ok_of_refuseIf h
    obtain ⟨inRange, h⟩ := ok_of_refuseIf h
    cases h
    exact .bwtInv d r (not_le.1 (of_decide_eq_false inRange))
  | mtfEnc rd rs =>
    refine ⟨_, rfl, runToBuf_ends rfl ?_⟩
    rintro d r e rfl rfl h
    cases h
    exact .mtfEnc d r
  | mtfDec rd rs =>
    refine ⟨_, rfl, runToBuf_ends rfl ?_⟩
    rintro d r e rfl rfl h
    cases h
    exact .mtfDec d r
  | rleEnc rd rs =>
    refine ⟨_, rfl, runToBuf_ends rfl ?_⟩
    rintro d r e rfl rfl h
    obtain ⟨fits, h⟩ := ok_of_refuseIf h
    cases h
    exact .rleEnc d r (by simpa using fits)
  | rleDec rd rs =>
    refine ⟨_, rfl, runToBuf_ends rfl ?_⟩
    rintro d r e rfl rfl h
    obtain ⟨x, expanded, h⟩ := ok_of_bind h
    obtain ⟨fits, h⟩ := ok_of_refuseIf h
    cases h
    exact .rleDec d r x expanded (by simpa using fits)
  | hufCount rs =>
    refine ⟨_, rfl, runOne_ends ?_⟩
    rintro r e rfl h
    cases h
    exact .hufCount r
  | hufBuild =>
    refine ⟨_, rfl, finish_ends (.inl rfl) fun e h => ?_⟩
    split at h
    · cases h
    · next t built => cases h; exact .hufBuild t built
  | hufEnc rd rs =>
    refine ⟨_, rfl, runTwo_ends ?_⟩
    rintro d r e rfl rfl h
    obtain ⟨t, ready, h⟩ := ok_of_bind h
    split at h
    · cases h
    · next y encoded =>
      obtain ⟨fits, h⟩ := ok_of_refuseIf h
      cases h
      exact .hufEnc d r t y (validTree_of_needTree ready) encoded (by simpa using fits)
  | hufDec rd rs =>
    refine ⟨_, rfl, runToBuf_ends rfl ?_⟩
    rintro d r e rfl rfl h
    obtain ⟨t, ready, h⟩ := ok_of_bind h
    obtain ⟨x, walked, h⟩ := ok_of_bind h
    obtain ⟨fits, h⟩ := ok_of_refuseIf h
    cases h
    exact .hufDec d r t x (validTree_of_needTree ready) walked (by simpa using fits)
  | recWrite rd rs =>
    refine ⟨_, rfl, runToBuf_ends rfl ?_⟩
    rintro d r e rfl rfl h
    obtain ⟨fits, h⟩ := ok_of_refuseIf h
    cases h
    exact .recWrite d r (by simpa using fits)
  | recRead rd rs =>
    refine ⟨_, rfl, runTwo_ends ?_⟩
    rintro d r e rfl rfl h
    obtain ⟨inRange, h⟩ := ok_of_refuseIf h
    split at h
    · next atEnd => cases h; exact .recReadEnd d r atEnd
    · next notEnd =>
      obtain ⟨p, parsed, h⟩ := ok_of_bind h
      cases h
      exact .recRead d r p (by have := of_decide_eq_false inRange; omega) parsed

theorem ends_of_exec {i : Instr} {s t : State} (h : exec i s = .next t) : Ends i s t := by
  obtain ⟨t', ht', ends⟩ := exec_ends i s
  cases ht'.symm.trans h
  exact ends

/-! ### Parsed payloads fit the bitstreams (R149, R249) -/

theorem readStream_bounds {cap : Nat} {m : List Byte} {x : List Bool} {used : Nat}
    (h : readStream cap m = .ok (x, used)) : x.length ≤ cap ∧ used ≤ m.length := by
  rcases readStream_cases cap m with ⟨-, e⟩ | ⟨-, -, e⟩ | ⟨-, -, -, e⟩ | ⟨h4, hcap, hdata, e⟩ <;>
    rw [e] at h <;> cases h
  exact ⟨by rwa [unpack_length], by omega⟩

theorem parseRecord_bounds {cap : Nat} {m : List Byte} {p : ParsedRecord} (h : parseRecord cap m = .ok p) :
    p.payload.length ≤ cap ∧ p.used ≤ m.length := by
  obtain ⟨⟨hp, m₁⟩, -, h⟩ := ok_of_bind h
  obtain ⟨⟨hk, m₂⟩, -, h⟩ := ok_of_bind h
  obtain ⟨-, h⟩ := ok_of_refuseIf h
  obtain ⟨⟨es, m₃⟩, -, h⟩ := ok_of_bind h
  obtain ⟨⟨hn, m₄⟩, -, h⟩ := ok_of_bind h
  obtain ⟨hcap, h⟩ := ok_of_refuseIf h
  obtain ⟨-, h⟩ := ok_of_refuseIf h
  obtain ⟨⟨data, m₅⟩, -, h⟩ := ok_of_bind h
  cases h
  exact ⟨by simpa using hcap, Nat.sub_le _ _⟩

/-! ### Every step keeps the invariant -/

theorem succeeds_inv {s : State} {i : Instr} {e : Effect} (h : s.Inv) (rule : Succeeds s i e) : e.state.Inv := by
  have hbuf (r : Fin 4) : (s.buf r).length ≤ s.bufBytes.toNat := by rw [buf_length]; exact h.len_le r
  cases rule with
  | nop | bsPopsEmpty | bsGet | bsReadEnd | recReadEnd => exact h
  | bsClear d => exact putSeq_inv h d (Nat.zero_le _)
  | bsAppend d b room =>
    refine putSeq_inv h d ?_
    have hle := h.streams d
    simp only [State.endPos, State.startPos, List.length_append, List.length_singleton] at room hle ⊢
    omega
  | bsCat d r fits =>
    refine putSeq_inv h d ?_
    simp only [State.endPos, State.startPos, List.length_append] at fits ⊢
    omega
  | bsPop d =>
    refine putSeq_inv h d ?_
    have hle := h.streams d
    simp only [State.endPos, State.startPos, List.length_dropLast] at hle ⊢
    omega
  | bsPops d b x bits =>
    refine putSeq_inv h d ?_
    have hle := h.streams d
    simp only [State.endPos, State.startPos, bits, List.length_cons] at hle
    have := Nat.mod_le ((s.streamAt d).start.toNat + 1) (2 ^ 32)
    rw [BitVec.toNat_add, show (1 : Word).toNat = 1 from rfl]
    omega
  | bsRev d r => exact putSeq_inv h d (by simpa using h.seq_length_le r)
  | bsWrite d r fits | recWrite d r fits => exact setBuf_inv h d (by simpa using fits)
  | bsRead d r x used _ parsed =>
    have hx := (readStream_bounds parsed).1
    exact inv_congr (putSeq_inv h d (p := 0) (by simpa using hx))
  | bwtFwd d r _ => exact inv_congr (setBuf_inv h d (x := bwtBytes (s.buf r)) (by simpa using hbuf r))
  | bwtInv d r _ | mtfEnc d r | mtfDec d r => exact setBuf_inv h d (by simpa using hbuf r)
  | rleEnc d r fits => exact setBuf_inv h d fits
  | rleDec d r x _ fits => exact setBuf_inv h d fits
  | hufCount r => exact setFreqs_inv h _
  | hufBuild t built => exact newTree_inv h built
  | hufEnc d r t y _ _ fits => exact putSeq_inv h d (by simpa using fits)
  | hufDec d r t x _ _ fits => exact setBuf_inv h d fits
  | recRead d r p _ parsed =>
    have hx := (parseRecord_bounds parsed).1
    exact inv_congr (putSeq_inv (setFreqs_inv h _) d (p := 0) (by simpa using hx))

theorem exec_inv {i : Instr} {s t : State} (h : s.Inv) (hexec : exec i s = .next t) : t.Inv := by
  cases ends_of_exec hexec with
  | failed c u before =>
    refine complete_inv ?_ _ _ _ _
    rcases before with rfl | ⟨d, -, rfl⟩
    · exact h
    · exact scratch_inv h d
  | succeeded e rule => exact complete_inv (succeeds_inv h rule) _ _ _ _

theorem engineStep_inv {s t : State} (h : s.Inv) (hstep : engineStep s = .next t) : t.Inv := by
  rcases engineStep_cases s with ⟨-, e⟩ | ⟨w, -, ⟨i, -, e⟩ | ⟨_, -, e⟩⟩ <;> rw [e] at hstep
  · cases hstep; exact h
  · exact exec_inv h hstep
  · cases hstep; exact complete_inv h _ _ _ _

/-- Settles O49: each turn, of the engine, the reset pin or the host, keeps the invariant. -/
theorem stepKeepsLegal : Obligations.StepKeepsLegal := by
  intro s t h hstep
  have hrest (rest : List Input) : State.Inv { s with inputs := rest } :=
    inv_congr h
  rcases step_cases s with ⟨-, e⟩ | ⟨rest, ⟨-, e⟩ | ⟨-, e⟩ | ⟨a, n, -, e⟩ | ⟨a, n, v, -, e⟩⟩ <;> rw [e] at hstep
  · exact engineStep_inv h hstep
  · exact engineStep_inv (hrest rest) hstep
  · cases hstep; exact hardReset_inv (hrest rest)
  · cases hstep; exact respond_inv (memRead_inv (hrest rest) a n)
  · cases hstep; exact respond_inv (memWrite_inv (hrest rest) a n v)

/-- Settles O48: the default parameters are legal, and a reset leaves a legal state for any legal ones. -/
theorem resetStateIsLegal : Obligations.ResetStateIsLegal := resetWith_inv (by decide) 0

/-! ### The shared registers (R38, R39, R42, R48, R221) -/

/-- The registers that several commands share, each changed by its writers only, for a command with opcode `op`. -/
structure KeepsShared (op : Byte) (s t : State) : Prop where
  host     : KeepsHostSide s t
  primary  : op ≠ 0x20 → op ≠ 0x41 → t.primary = s.primary
  rpos     : op ≠ 0x18 → op ≠ 0x41 → t.rpos = s.rpos
  freq     : op ≠ 0x30 → op ≠ 0x41 → ∀ v, t.freq v = s.freq v
  tree     : op ≠ 0x31 → t.tree = s.tree
  hufValid : op ≠ 0x30 → op ≠ 0x31 → op ≠ 0x41 → t.hufValid = s.hufValid

theorem keepsShared_of_keepsBut {op : Byte} {s t : State} {bufs streams : List (Fin 4)}
    (h : KeepsBut bufs streams s t) : KeepsShared op s t where
  host := h.rest.host
  primary _ _ := h.primary
  rpos _ _ := h.rpos
  freq _ _ := freq_congr h.huffman.freqs
  tree _ := h.huffman.tree
  hufValid _ _ _ := h.huffman.hufValid

theorem succeeds_keepsShared {s : State} {i : Instr} {e : Effect} (rule : Succeeds s i e) :
    KeepsShared i.opcode s (e.state.complete i.opcode none e.eof e.result) := by
  cases rule with
  | nop | bsPopsEmpty | bsGet | bsReadEnd | recReadEnd => exact keepsShared_of_keepsBut (keepsAll_complete s _ _ _ _)
  | bsClear | bsAppend | bsCat | bsPop | bsPops | bsRev | hufEnc =>
    exact keepsShared_of_keepsBut (keepsBut_putSeq s _ _ _ _ _ _ _)
  | bsWrite | bwtInv | mtfEnc | mtfDec | rleEnc | rleDec | hufDec | recWrite =>
    exact keepsShared_of_keepsBut (keepsBut_setBuf s _ _ _ _ _ _)
  | bwtFwd =>
    exact ⟨⟨rfl, rfl, rfl, rfl, rfl, rfl, rfl⟩, fun h => absurd rfl h, fun _ _ => rfl, fun _ _ _ => rfl,
      fun _ => rfl, fun _ _ _ => rfl⟩
  | bsRead =>
    exact ⟨⟨rfl, rfl, rfl, rfl, rfl, rfl, rfl⟩, fun _ _ => rfl, fun h => absurd rfl h, fun _ _ _ => rfl,
      fun _ => rfl, fun _ _ _ => rfl⟩
  | hufCount =>
    exact ⟨⟨rfl, rfl, rfl, rfl, rfl, rfl, rfl⟩, fun _ _ => rfl, fun _ _ => rfl, fun h => absurd rfl h,
      fun _ => rfl, fun h => absurd rfl h⟩
  | hufBuild =>
    exact ⟨⟨rfl, rfl, rfl, rfl, rfl, rfl, rfl⟩, fun _ _ => rfl, fun _ _ => rfl, fun _ _ _ => rfl,
      fun h => absurd rfl h, fun _ h => absurd rfl h⟩
  | recRead =>
    exact ⟨⟨rfl, rfl, rfl, rfl, rfl, rfl, rfl⟩, fun _ h => absurd rfl h, fun _ h => absurd rfl h,
      fun _ h => absurd rfl h, fun _ => rfl, fun _ _ h => absurd rfl h⟩

/-- Settles O46: a failed command writes none of these registers, and each success rule shows which it writes. -/
theorem writersOfSharedRegisters : Obligations.WritersOfSharedRegisters := by
  intro i s t hexec
  have h : KeepsShared i.opcode s t := by
    cases ends_of_exec hexec with
    | failed c u before =>
      rcases before with rfl | ⟨d, -, rfl⟩
      · exact keepsShared_of_keepsBut (keepsAll_complete u _ _ _ _)
      · exact keepsShared_of_keepsBut (keepsOnFailure_scratch s d _ _ _ _).but
    | succeeded e rule => exact succeeds_keepsShared rule
  exact ⟨h.host, h.primary, h.rpos, h.freq, h.tree, h.hufValid⟩

/-! ### The size of a built tree (R43, R219, R220) -/

theorem mergeTrees_leaves {fuel : Nat} {L : List HuffTree} {t : HuffTree} (h : mergeTrees fuel L = some t) :
    t.leaves = (L.map HuffTree.leaves).sum := by
  induction fuel, L using mergeTrees.induct with
  | case1 => simp [mergeTrees] at h
  | case2 fuel u =>
    obtain rfl : u = t := by simpa [mergeTrees] using h
    simp
  | case3 => simp [mergeTrees] at h
  | case4 fuel a b L ih =>
    rw [ih h, ((insertNode_perm (a.join b) L).map _).sum_eq]
    simp [Nat.add_assoc]

theorem freqLeaves_leaves (F : Byte → Word) : ((freqLeaves F).map HuffTree.leaves).sum ≤ 256 := by
  have hlen : (allBytes.filter fun v => F v != 0).length ≤ 256 := allBytes_length ▸ List.length_filter_le _ _
  simpa [freqLeaves, Function.comp_def, HuffTree.leaves] using hlen

/-- A built tree has a leaf for each symbol counted, 256 at most. -/
theorem buildTree_leaves_le {F : Byte → Word} {t : HuffTree} (h : buildTree F = some t) : t.leaves ≤ 256 := by
  rw [mergeTrees_leaves h, sortedLeaves, ((List.perm_insertionSort _ (freqLeaves F)).map HuffTree.leaves).sum_eq]
  exact freqLeaves_leaves F

theorem HuffTree.leaves_pos (t : HuffTree) : 0 < t.leaves := by
  induction t with
  | leaf u w => exact Nat.one_pos
  | node l r w hl hr => exact Nat.add_pos_left hl _

/-- Each edge of a path leaves at least one leaf aside. -/
theorem HuffTree.path_length_lt {t : HuffTree} {v : Byte} {p : List Bool} (h : t.path v = some p) :
    p.length < t.leaves := by
  induction t generalizing p with
  | leaf u w =>
    simp only [HuffTree.path] at h
    split at h <;> cases h
    exact Nat.one_pos
  | node l r w hl hr =>
    have := l.leaves_pos
    have := r.leaves_pos
    simp only [HuffTree.path] at h
    split at h
    · next q hq =>
      cases h
      have := hl hq
      simp only [HuffTree.leaves, List.length_cons]; omega
    · obtain ⟨q, hq, rfl⟩ := Option.map_eq_some_iff.1 h
      have := hr hq
      simp only [HuffTree.leaves, List.length_cons]; omega

theorem HuffTree.path_node_length_pos {l r : HuffTree} {w : Nat} {v : Byte} {p : List Bool}
    (h : (HuffTree.node l r w).path v = some p) : 1 ≤ p.length := by
  simp only [HuffTree.path] at h
  split at h
  · cases h; exact Nat.le_add_left 1 _
  · obtain ⟨q, -, rfl⟩ := Option.map_eq_some_iff.1 h
    exact Nat.le_add_left 1 _

/-- A code of a built tree has 1 to 255 bits (R50). -/
theorem code_length_bounds {F : Byte → Word} {t : HuffTree} (built : buildTree F = some t) {v : Byte}
    {p : List Bool} (h : t.code v = some p) : 1 ≤ p.length ∧ p.length ≤ 255 := by
  have hle := buildTree_leaves_le built
  cases t with
  | leaf u w =>
    simp only [HuffTree.code] at h
    split at h <;> cases h
    decide
  | node l r w =>
    have hlt := HuffTree.path_length_lt h
    exact ⟨HuffTree.path_node_length_pos (w := w) h, by omega⟩

/-! ### RESULT (R37) -/

/-- A bit sequence, a byte sequence, a count of bytes and a tree are all too small to be NONE. -/
theorem succeeds_result_lt {s : State} {i : Instr} {e : Effect} (h : s.Inv) (rule : Succeeds s i e) :
    (i.opcode = 0x13 ∨ i.opcode = 0x14 ∨ i.opcode = 0x16) ∨ e.result.toNat < 0xFFFFFFFF := by
  have small {n : Nat} (hn : n < 0xFFFFFFFF) : (BitVec.ofNat 32 n).toNat < 0xFFFFFFFF :=
    lt_of_le_of_lt (by simpa using Nat.mod_le _ _) hn
  have hB := h.bufBytes_le
  have hC := h.bsCapBits_le
  have hbuf (r : Fin 4) : (s.buf r).length ≤ s.bufBytes.toNat := by rw [buf_length]; exact h.len_le r
  have hend (k : Fin 4) : s.startPos k + (s.seq k).length ≤ s.bsCapBits.toNat := h.streams k
  have hrest (r : Fin 4) : ((s.buf r).drop s.rpos.toNat).length ≤ s.bufBytes.toNat :=
    le_trans (by simp) (hbuf r)
  cases rule with
  | bsPop => exact .inl (.inl rfl)
  | bsPopsEmpty | bsPops => exact .inl (.inr (.inl rfl))
  | bsGet => exact .inl (.inr (.inr rfl))
  | nop | bsClear | bsReadEnd | recReadEnd => exact .inr (small (n := 0) (by decide))
  | bsAppend d b room => exact .inr (small (by have := hend d; omega))
  | bsCat d r fits =>
    rw [State.endPos] at fits
    exact .inr (small (by omega))
  | bsRev d r => exact .inr (small (by have := hend r; omega))
  | bsWrite d r fits | recWrite d r fits => exact .inr (small (by omega))
  | bsRead d r x used _ parsed =>
    have hused := (readStream_bounds parsed).2
    exact .inr (small (by have := hrest r; omega))
  | recRead d r p _ parsed =>
    have hused := (parseRecord_bounds parsed).2
    exact .inr (small (by have := hrest r; omega))
  | bwtFwd d r =>
    have hq : bwtPrimary (s.buf r) ≤ (s.buf r).length := by
      rw [← rotOrder_length]; exact List.idxOf_le_length
    exact .inr (small (by have := hbuf r; omega))
  | bwtInv d r | mtfEnc d r | mtfDec d r | hufCount r => exact .inr (small (by have := hbuf r; omega))
  | rleEnc d r fits => exact .inr (small (by omega))
  | rleDec d r x _ fits | hufDec d r t x _ _ fits => exact .inr (small (by omega))
  | hufEnc d r t y _ _ fits => exact .inr (small (by omega))
  | hufBuild t built => exact .inr (small (by have := buildTree_leaves_le built; omega))

/-- Settles O47: an error leaves RESULT 0, and the other commands' results are below NONE. -/
theorem noneOnlyFromPopAndGet : Obligations.NoneOnlyFromPopAndGet := by
  intro i s t h hexec hres
  cases ends_of_exec hexec with
  | failed c u before => simp at hres
  | succeeded e rule =>
    rcases succeeds_result_lt h rule with hop | hlt
    · exact hop
    · have hnone : e.result = 0xFFFFFFFF := hres
      rw [hnone] at hlt
      exact absurd hlt (by decide)

/-! ### Accesses of the register region (R31, R85, R90) -/

section
variable {a : Nat} {r : Reg}

theorem target?_regAt (s : State) (ha : a < 0x4000) (h4 : a % 4 = 0) (hr : regAt a = r) :
    s.target? (BitVec.ofNat 27 a) 4 = some (.reg r) := by
  have hn : (BitVec.ofNat 27 a).toNat = a := by rw [BitVec.toNat_ofNat]; omega
  rw [target?_reg s (by rwa [hn]) (by rwa [hn]), hn, hr]

variable {s : State}

theorem memRead_reg (ha : a < 0x4000) (h4 : a % 4 = 0) (hr : regAt a = r)
    (access : s.busy = false ∨ r.always = true) : s.memRead (BitVec.ofNat 27 a) 4 = (s, .data (s.readReg r)) := by
  have hfree : s.blocks (.reg r) = false := by rcases access with h | h <;> simp [State.blocks, Target.always, h]
  rw [State.memRead, target?_regAt s ha h4 hr]
  simp [hfree, State.readTarget]

theorem memWrite_reg (v : Word) (ha : a < 0x4000) (h4 : a % 4 = 0) (hr : regAt a = r)
    (access : s.busy = false ∨ r.always = true) : s.memWrite (BitVec.ofNat 27 a) 4 v = (s.writeReg r v, .done) := by
  have hfree : s.blocks (.reg r) = false := by rcases access with h | h <;> simp [State.blocks, Target.always, h]
  rw [State.memWrite, target?_regAt s ha h4 hr]
  simp [hfree, State.writeTarget]

theorem memWrite_blocked (v : Word) (ha : a < 0x4000) (h4 : a % 4 = 0) (hr : regAt a = r) (hbusy : s.busy = true)
    (halways : r.always = false) : s.memWrite (BitVec.ofNat 27 a) 4 v = ({ s with overrun := true }, .done) := by
  have hblock : s.blocks (.reg r) = true := by simp [State.blocks, Target.always, hbusy, halways]
  rw [State.memWrite, target?_regAt s ha h4 hr]
  simp [hblock]

end

/-! ### The register map (R31) -/

theorem regAt_of_le {a : Nat} (h : 0x038 ≤ a) : regAt a = bankAt a := by
  unfold regAt
  repeat rw [if_neg (by omega)]

theorem regAt_len (i : Fin 4) : regAt (0x040 + 4 * i) = .len i := by revert i; decide

theorem regAt_bsStart (k : Fin 4) : regAt (0x060 + 8 * k) = .bsStart k := by revert k; decide

theorem regAt_bsEnd (k : Fin 4) : regAt (0x064 + 8 * k) = .bsEnd k := by revert k; decide

theorem regAt_freq (v : Byte) : regAt (0x400 + 4 * v.toNat) = .freq v := by
  have hv := v.isLt
  rw [regAt_of_le (by omega), bankAt, if_neg (by omega), if_neg (by omega), if_pos (by omega),
    Nat.add_sub_cancel_left, Nat.mul_div_cancel_left _ (by decide), BitVec.ofNat_toNat, BitVec.setWidth_eq]

theorem regAt_codeLen (v : Byte) : regAt (0x800 + 4 * v.toNat) = .codeLen v := by
  have hv := v.isLt
  rw [regAt_of_le (by omega), bankAt, if_neg (by omega), if_neg (by omega), if_neg (by omega), if_pos (by omega),
    Nat.add_sub_cancel_left, Nat.mul_div_cancel_left _ (by decide), BitVec.ofNat_toNat, BitVec.setWidth_eq]

theorem regAt_codeBits (v : Byte) {w : Nat} (hw : w < 8) : regAt (0x2000 + 32 * v.toNat + 4 * w) = .codeBits v w := by
  have hv := v.isLt
  have hsym : (0x2000 + 32 * v.toNat + 4 * w - 0x2000) / 32 = v.toNat := by omega
  have hword : (0x2000 + 32 * v.toNat + 4 * w - 0x2000) / 4 % 8 = w := by omega
  rw [regAt_of_le (by omega), bankAt, if_neg (by omega), if_neg (by omega), if_neg (by omega), if_neg (by omega),
    if_pos (by omega), hsym, hword, BitVec.ofNat_toNat, BitVec.setWidth_eq]

theorem regAt_reserved {a : Nat} (h : 0x038 ≤ a ∧ a < 0x040 ∨ 0x050 ≤ a ∧ a < 0x060 ∨ 0x080 ≤ a ∧ a < 0x400 ∨
    0xC00 ≤ a ∧ a < 0x2000) : regAt a = .reserved := by
  rw [regAt_of_le (by omega), bankAt, if_neg (by omega), if_neg (by omega), if_neg (by omega), if_neg (by omega),
    if_neg (by omega)]

/-- Settles O50: each bank's offsets, then the reads through `memRead_reg`. -/
theorem registerMap : Obligations.RegisterMap := by
  refine ⟨by decide, fun i => ⟨regAt_len i, regAt_bsStart i, regAt_bsEnd i⟩, fun v => ⟨regAt_freq v, regAt_codeLen v⟩,
    fun v w => regAt_codeBits v, fun a _ => regAt_reserved, ?_, fun s => ⟨rfl, rfl⟩,
    fun s addr ha h4 => ⟨target?_reg s ha h4, rfl, fun v => rfl⟩, fun s => ?_, fun s hidle => ?_⟩
  · intro s v k u w r hr
    simp only [List.mem_cons, List.not_mem_nil, or_false] at hr
    rcases hr with rfl | rfl | rfl | rfl | rfl | rfl | rfl | rfl | rfl | rfl | rfl | rfl <;> rfl
  · have hread {a : Nat} {r : Reg} (ha : a < 0x4000) (h4 : a % 4 = 0) (hr : regAt a = r) (h : r.always = true) :=
      memRead_reg (s := s) ha h4 hr (.inr h)
    exact ⟨hread (r := .id) (by decide) rfl rfl rfl, hread (r := .version) (by decide) rfl rfl rfl,
      hread (r := .paramBuf) (by decide) rfl rfl rfl, hread (r := .paramBs) (by decide) rfl rfl rfl⟩
  · have hread {a : Nat} {r : Reg} (ha : a < 0x4000) (h4 : a % 4 = 0) (hr : regAt a = r) :=
      memRead_reg ha h4 hr (.inl hidle)
    refine ⟨hread (r := .result) (by decide) rfl rfl, hread (r := .arg) (by decide) rfl rfl,
      hread (r := .primary) (by decide) rfl rfl, hread (r := .rpos) (by decide) rfl rfl, fun i => ⟨?_, ?_, ?_, rfl⟩,
      fun u => hread (by have := u.isLt; omega) (by omega) (regAt_freq u)⟩
    · exact hread (by omega) (by omega) (regAt_len i)
    · have hstart : BitVec.ofNat 32 (s.startPos i) = s.readReg (.bsStart i) := BitVec.ofNat_toNat _ _
      rw [hstart]
      exact hread (by omega) (by omega) (regAt_bsStart i)
    · exact hread (by omega) (by omega) (regAt_bsEnd i)

/-- Settles O54: `memWrite_reg` at each register's offset, then the register's write rule. -/
theorem hostRegisterWrites : Obligations.HostRegisterWrites := by
  intro s v hidle
  have hwrite {a : Nat} {r : Reg} (ha : a < 0x4000) (h4 : a % 4 = 0) (hr : regAt a = r) :=
    memWrite_reg v ha h4 hr (.inl hidle)
  refine ⟨hwrite (r := .arg) (by decide) rfl rfl, hwrite (r := .primary) (by decide) rfl rfl,
    hwrite (r := .rpos) (by decide) rfl rfl, fun i => ⟨s.writeLen i v, ?_, ?_, ?_, ?_, fun k hk => ?_⟩,
    fun u => ⟨s.writeFreq u v, ?_, rfl, fun u' => freq_writeFreq s u u' v⟩⟩
  · exact hwrite (by omega) (by omega) (regAt_len i)
  · unfold State.writeLen
    split <;> rfl
  · simp [len_writeLen]
  · exact fun k j => byteAt_writeLen s i k v j
  · simp [len_writeLen, Ne.symm hk]
  · exact hwrite (by have := u.isLt; omega) (by omega) (regAt_freq u)

/-- Settles O55: a CMD write issues the word while idle, and is blocked while a command is in flight. -/
theorem cmdWriteIssues : Obligations.CmdWriteIssues := by
  intro s w
  refine ⟨fun hidle => ⟨?_, ?_⟩, fun w₀ hlatch => ?_⟩
  · exact memWrite_reg (r := .cmd) w (by decide) rfl rfl (.inl hidle)
  · exact congrArg Prod.snd (memRead_reg (r := .cmd) (by decide) rfl rfl (.inl hidle))
  · exact memWrite_blocked (r := .cmd) w (by decide) rfl rfl (by simp [State.busy, hlatch]) rfl

/-! ### The code registers (R43, R50, R51) -/

/-- The bits of a number written out from its bits. -/
theorem testBit_bits (n : Nat) (f : Nat → Bool) {b : Nat} (h : b < n) :
    ((List.range n).foldr (fun b a => (f b).toNat + 2 * a) 0).testBit b = f b := by
  induction n generalizing f b with
  | zero => exact absurd h (Nat.not_lt_zero b)
  | succ n ih =>
    rw [List.range_succ_eq_map, List.foldr_cons, List.foldr_map]
    have hlow := Bool.toNat_lt (f 0)
    cases b with
    | zero => cases f 0 <;> simp [Nat.testBit_zero]
    | succ b =>
      rw [Nat.testBit_succ, Nat.add_mul_div_left _ _ (by decide), Nat.div_eq_of_lt hlow, Nat.zero_add]
      exact ih (fun b => f (b + 1)) (by omega)

theorem getLsbD_wordOfBits (f : Nat → Bool) {b : Nat} (h : b < 32) : (wordOfBits f).getLsbD b = f b := by
  rw [wordOfBits, BitVec.getLsbD_ofNat, testBit_bits 32 f h]
  simp [h]

theorem codeLenWord_of_none {s : State} {v : Byte} (h : s.codeOf v = none) : s.codeLenWord v = 0 := by
  simp [State.codeLenWord, h]

theorem codeBitsWord_of_none {s : State} {v : Byte} (h : s.codeOf v = none) (w : Nat) : s.codeBitsWord v w = 0 := by
  apply BitVec.eq_of_getLsbD_eq
  intro b hb
  simp [State.codeBitsWord, getLsbD_wordOfBits _ hb, h]

theorem codeOf_of_invalid {s : State} (h : s.hufValid = false) (v : Byte) : s.codeOf v = none := by
  simp [State.codeOf, State.validTree, h]

theorem nsymWord_of_invalid {s : State} (h : s.hufValid = false) : s.nsymWord = 0 := by
  simp [State.nsymWord, State.validTree, h]

/-- Settles O59: the registers are views of the code of each symbol, and a built tree's sizes fit them. -/
theorem codeRegistersShowCodes : Obligations.CodeRegistersShowCodes := by
  intro s v h
  refine ⟨fun hv => ?_, fun t hv ht => ?_⟩
  · have hnone := codeOf_of_invalid hv v
    exact ⟨nsymWord_of_invalid hv, codeLenWord_of_none hnone, codeBitsWord_of_none hnone⟩
  · have hvalid : s.validTree = some t := by simp [State.validTree, hv, ht]
    have hcode : s.codeOf v = t.code v := by simp [State.codeOf, hvalid]
    have built : buildTree s.freq = some t := (h.tree hv).2.symm.trans ht
    refine ⟨?_, fun hnone => ?_, fun p hp => ?_⟩
    · have hle := buildTree_leaves_le built
      show s.nsymWord.toNat = t.leaves
      simp only [State.nsymWord, hvalid, Option.map_some, Option.getD_some, BitVec.toNat_ofNat]
      omega
    · have hnone := hcode.trans hnone
      exact ⟨codeLenWord_of_none hnone, codeBitsWord_of_none hnone⟩
    · obtain ⟨hpos, hle⟩ := code_length_bounds built hp
      refine ⟨?_, hpos, hle, fun w b hb => ?_⟩
      · show (s.codeLenWord v).toNat = p.length
        simp only [State.codeLenWord, hcode, hp, Option.map_some, Option.getD_some, BitVec.toNat_ofNat]
        omega
      · show (s.codeBitsWord v w).getLsbD b = _
        rw [State.codeBitsWord, getLsbD_wordOfBits _ hb, hcode, hp, Option.getD_some]

/-! ### Register values after reset (R56) -/

/-- A state as a reset leaves it, whatever the host does next. -/
def State.afterReset (b c : Word) (d : Nat) (next : List Input) : State :=
  { State.resetWith b c d with inputs := next }

theorem readReg_afterReset (b c : Word) (d : Nat) (next : List Input) {r : Reg}
    (hr : r ∉ [Reg.id, .version, .paramBuf, .paramBs]) : (State.afterReset b c d next).readReg r = 0 := by
  cases r with
  | id | version | paramBuf | paramBs => simp at hr
  | cmd | status | result | arg | primary | rpos | ctrl | irq | freq | reserved => rfl
  | errcode =>
    show (0 : Byte).setWidth 32 <<< 8 ||| (0 : Byte).setWidth 32 = (0 : Word)
    decide
  | nsym => exact nsymWord_of_invalid rfl
  | codeLen v => exact codeLenWord_of_none (codeOf_of_invalid rfl v)
  | codeBits v w => exact codeBitsWord_of_none (codeOf_of_invalid rfl v) w
  | len i => exact congrArg Buffer.len (bufAt_resetWith b c d i)
  | bsStart k => exact congrArg Bitstream.start (streamAt_resetWith b c d k)
  | bsEnd k =>
    have hk : (State.afterReset b c d next).streamAt k = ⟨0, []⟩ := streamAt_resetWith b c d k
    simp [State.readReg, State.endPos, State.startPos, State.seq, hk]

theorem eq_afterReset {t : State} (h : t = State.reset ∨ ∃ s : State, t = s.hardReset ∨ t = s.softReset) :
    ∃ b c d next, t = State.afterReset b c d next := by
  rcases h with rfl | ⟨s, rfl | rfl⟩ <;> exact ⟨_, _, _, _, rfl⟩

/-- Settles O57: the three resets leave states of one form, read register by register. -/
theorem resetRegisterValues : Obligations.ResetRegisterValues := by
  refine ⟨rfl, rfl, fun s => ⟨rfl, rfl, rfl, rfl⟩, fun t ht => ?_⟩
  obtain ⟨b, c, d, next, rfl⟩ := eq_afterReset ht
  exact ⟨rfl, rfl, rfl, rfl, rfl, rfl, rfl, fun r => readReg_afterReset b c d next⟩

end Sys2Proof.Machine

/-! ## Proofs about memory: the bus accesses, the buffer windows, and what a command leaves alone -/

namespace Sys2Proof.Machine

/-! ### Bus errors and blocked accesses (R83, R85, R86, R90) -/

section
variable {s : State} {addr : Addr} {n : Nat} {t : Target}

/-- The legal accesses of R81 and R83: both directions of the address map. -/
theorem target?_eq_none_iff : s.target? addr n = none ↔
    ¬ ((addr.toNat < 0x4000 ∧ n = 4 ∧ addr.toNat % 4 = 0) ∨
      ∃ (i : Fin 4) (j : Nat), addr.toNat = 0x01000000 * (i + 1) + j ∧ j < 0x01000000 ∧
        j + n ≤ s.bufBytes.toNat ∧ (n = 1 ∨ n = 2 ∨ n = 4) ∧ addr.toNat % n = 0) := by
  constructor
  · rintro hnone (⟨ha, rfl, h4⟩ | ⟨i, j, ha, hj, hb, hn, hm⟩)
    · simp [target?_reg s ha h4] at hnone
    · simp [target?_window s i ha hj hb hn hm] at hnone
  · intro hillegal
    by_contra hsome
    obtain ⟨t, ht⟩ := Option.ne_none_iff_exists'.1 hsome
    rcases target?_cases ht with ⟨ha, hn, h4, -⟩ | ⟨i, j, ha, hj, hb, hn, hm, -⟩
    · exact hillegal (.inl ⟨ha, hn, h4⟩)
    · exact hillegal (.inr ⟨i, j, ha, hj, hb, hn, hm⟩)

theorem memRead_of_illegal (h : s.target? addr n = none) : s.memRead addr n = (s, .busErr) := by
  simp [State.memRead, h]

theorem memWrite_of_illegal (v : Word) (h : s.target? addr n = none) : s.memWrite addr n v = (s, .busErr) := by
  simp [State.memWrite, h]

theorem memRead_busErr_iff : (s.memRead addr n).2 = .busErr ↔ s.target? addr n = none := by
  rcases memRead_cases s addr n with ⟨h, e⟩ | ⟨t, h, ⟨-, -, e⟩ | ⟨-, e⟩⟩ <;> simp [h, e]

theorem memWrite_busErr_iff {v : Word} : (s.memWrite addr n v).2 = .busErr ↔ s.target? addr n = none := by
  rcases memWrite_cases s addr n v with ⟨h, e⟩ | ⟨t, h, ⟨-, -, e⟩ | ⟨-, e⟩⟩ <;> simp [h, e]

theorem blocks_eq_true (hbusy : s.busy = true) (halways : t.always = false) : s.blocks t = true := by
  simp [State.blocks, hbusy, halways]

theorem blocks_eq_false (h : s.busy = false ∨ t.always = true) : s.blocks t = false := by
  rcases h with h | h <;> simp [State.blocks, h]

theorem memRead_of_blocks (ht : s.target? addr n = some t) (h : s.blocks t = true) :
    s.memRead addr n = ({ s with overrun := true }, .data 0) := by
  simp [State.memRead, ht, h]

theorem memWrite_of_blocks (v : Word) (ht : s.target? addr n = some t) (h : s.blocks t = true) :
    s.memWrite addr n v = ({ s with overrun := true }, .done) := by
  simp [State.memWrite, ht, h]

theorem memRead_of_accessible (ht : s.target? addr n = some t) (h : s.blocks t = false) :
    s.memRead addr n = (s, .data (s.readTarget n t)) := by
  simp [State.memRead, ht, h]

theorem memWrite_of_accessible (v : Word) (ht : s.target? addr n = some t) (h : s.blocks t = false) :
    s.memWrite addr n v = (s.writeTarget n v t, .done) := by
  simp [State.memWrite, ht, h]

/-- The ALWAYS set, listed (R90). -/
theorem always_iff_mem (t : Target) : t.always = true ↔
    t ∈ [.reg .id, .reg .version, .reg .paramBuf, .reg .paramBs, .reg .status, .reg .errcode, .reg .ctrl,
      .reg .irq] := by
  cases t with
  | reg r => cases r <;> simp [Target.always, Reg.always]
  | window i j => simp [Target.always]

end

/-- Settles O51: a bus error is an access that reaches no target, and such an access is answered from the state
as it is. -/
theorem busErrorChangesNothing : Obligations.BusErrorChangesNothing := by
  intro s addr n v
  refine ⟨memRead_busErr_iff.trans target?_eq_none_iff, memWrite_busErr_iff.trans memRead_busErr_iff.symm,
    fun herr => ?_⟩
  have hnone := memRead_busErr_iff.1 herr
  exact ⟨congrArg Prod.fst (memRead_of_illegal hnone), congrArg Prod.fst (memWrite_of_illegal v hnone)⟩

/-- Settles O52: the target is blocked exactly when BUSY = 1 and it is outside the ALWAYS set. -/
theorem busyBlocksAccess : Obligations.BusyBlocksAccess := by
  intro s addr n v t ht
  refine ⟨fun hbusy houtside => ?_, fun haccess => ?_⟩
  · have hblock := blocks_eq_true hbusy (Bool.eq_false_iff.2 fun h => houtside ((always_iff_mem t).1 h))
    exact ⟨memRead_of_blocks ht hblock, memWrite_of_blocks v ht hblock⟩
  · have hfree := blocks_eq_false (haccess.imp_right (always_iff_mem t).2)
    exact ⟨memRead_of_accessible ht hfree, memWrite_of_accessible v ht hfree⟩

/-! ### The buffer windows (R82, R84) -/

/-- The number whose base-256 digits are the bytes, lowest address lowest: what `leWord` makes a word of (R84). -/
def leNat (b : List Byte) : Nat := b.foldr (fun c a => c.toNat + 256 * a) 0

theorem leNat_cons (c : Byte) (b : List Byte) : leNat (c :: b) = c.toNat + 256 * leNat b := rfl

theorem leNat_lt (b : List Byte) : leNat b < 2 ^ (8 * b.length) := by
  induction b with
  | nil => decide
  | cons c b ih =>
    have hc := c.isLt
    rw [leNat_cons, List.length_cons, Nat.mul_succ, Nat.pow_add]
    omega

theorem leNat_byte (b : List Byte) (k : Nat) : leNat b / 2 ^ (8 * k) % 256 = (b.getD k 0).toNat := by
  induction b generalizing k with
  | nil => simp [leNat]
  | cons c b ih =>
    have hc := c.isLt
    cases k with
    | zero => rw [leNat_cons]; simp; omega
    | succ k =>
      have hshift : leNat (c :: b) / 256 = leNat b := by rw [leNat_cons]; omega
      rw [Nat.mul_succ, Nat.add_comm, Nat.pow_add, ← Nat.div_div_eq_div_mul, hshift, ih k, List.getD_cons_succ]

theorem toNat_leWord {b : List Byte} (h : b.length ≤ 4) : (leWord b).toNat = leNat b := by
  have hfits : 2 ^ (8 * b.length) ≤ 2 ^ 32 := Nat.pow_le_pow_right (by decide) (by omega)
  exact Nat.mod_eq_of_lt (lt_of_lt_of_le (leNat_lt b) hfits)

/-- Byte k of the bus data is the k-th byte in address order (R84). -/
theorem extractLsb'_leWord {b : List Byte} (h : b.length ≤ 4) (k : Nat) :
    (leWord b).extractLsb' (8 * k) 8 = b.getD k 0 := by
  apply BitVec.eq_of_toNat_eq
  rw [BitVec.extractLsb'_toNat, Nat.shiftRight_eq_div_pow, toNat_leWord h]
  exact leNat_byte b k

theorem bytesAt_getD (s : State) (i : Fin 4) (j : Nat) {n k : Nat} (h : k < n) :
    (s.bytesAt i j n).getD k 0 = s.byteAt i (j + k) := by
  simp [State.bytesAt, List.getD_eq_getElem?_getD, h]

theorem leBytes_getD (v : Word) {n k : Nat} (h : k < n) : (leBytes v n).getD k 0 = v.extractLsb' (8 * k) 8 := by
  simp [List.getD_eq_getElem?_getD, leBytes_getElem? v h]

theorem pokeBytes_keepsBuffer (s : State) {i i' : Fin 4} (j : Nat) (x : List Byte) (h : i' ≠ i) :
    KeepsBuffer i' s (s.pokeBytes i j x) :=
  keepsBuffer_of_bufAt (by simp [bufAt_pokeBytes, Ne.symm h])

section
variable {s : State} {addr : Addr} {n : Nat} {i : Fin 4} {j : Nat}

theorem window_address (ht : s.target? addr n = some (.window i j)) :
    addr.toNat = 0x01000000 * (i.val + 1) + j ∧ n ≤ 4 := by
  rcases target?_cases ht with ⟨-, -, -, h⟩ | ⟨_, _, ha, -, -, hn, -, h⟩ <;> cases h
  exact ⟨ha, by omega⟩

theorem memRead_window (hidle : s.busy = false) (ht : s.target? addr n = some (.window i j)) :
    s.memRead addr n = (s, .data (leWord (s.bytesAt i j n))) :=
  memRead_of_accessible ht (blocks_eq_false (.inl hidle))

theorem memWrite_window (v : Word) (hidle : s.busy = false) (ht : s.target? addr n = some (.window i j)) :
    s.memWrite addr n v = (s.pokeBytes i j (leBytes v n), .done) :=
  memWrite_of_accessible v ht (blocks_eq_false (.inl hidle))

/-- The access that wrote the bytes reads them back: BUSY and the address map are as before (R82). -/
theorem memRead_pokeBytes (v : Word) (hidle : s.busy = false) (ht : s.target? addr n = some (.window i j)) :
    (s.pokeBytes i j (leBytes v n)).memRead addr n =
      (s.pokeBytes i j (leBytes v n), .data (BitVec.ofNat 32 (v.toNat % 2 ^ (8 * n)))) := by
  have hbytes := bytesAt_pokeBytes_self s i j (leBytes v n)
  rw [leBytes_length] at hbytes
  rw [memRead_window (s := s.pokeBytes i j (leBytes v n)) hidle ht, hbytes, leWord_leBytes]

end

/-- Settles O53: the address fixes window and byte, a read is `leWord` of the bytes there, and a write is
`pokeBytes` of `leBytes`. -/
theorem windowWriteThenRead : Obligations.WindowWriteThenRead := by
  refine ⟨buf_getElem?, fun s addr n i j => target?_window s i, fun s addr n v i j hidle ht => ?_⟩
  obtain ⟨haddr, hn⟩ := window_address ht
  have hlen : (s.bytesAt i j n).length ≤ 4 := by rwa [bytesAt_length]
  refine ⟨haddr, ⟨leWord (s.bytesAt i j n), memRead_window hidle ht, ?_, fun k hk => ?_⟩,
    s.pokeBytes i j (leBytes v n), memWrite_window v hidle ht, rfl, fun k hk => ?_, fun k hk => ?_,
    len_pokeBytes s i i j _, fun i' => pokeBytes_keepsBuffer s j _, memRead_pokeBytes v hidle ht⟩
  · rw [toNat_leWord hlen]
    simpa using leNat_lt (s.bytesAt i j n)
  · rw [extractLsb'_leWord hlen, bytesAt_getD s i j hk]
  · rw [byteAt_pokeBytes, leBytes_length, if_pos (by omega), Nat.add_sub_cancel_left, leBytes_getD v hk]
  · rw [byteAt_pokeBytes, leBytes_length, if_neg (by omega)]

/-! ### A command's destination (R46, R89) -/

/-- Every buffer and every bitstream but the command's destination is as it was. -/
structure KeepsOthers (i : Instr) (s t : State) : Prop where
  buffers : ∀ b, bufDest i ≠ some b → t.bufAt b = s.bufAt b
  streams : ∀ k, streamDest i ≠ some k → t.streamAt k = s.streamAt k

theorem ne_of_index?_idx_ne {d k : Fin 4} (h : index? (idx d) ≠ some k) : d ≠ k := by
  rintro rfl
  exact h (index?_idx d)

theorem streamAt_putSeq_ne (s : State) {d k : Fin 4} (p : Word) (x : List Bool) (h : d ≠ k) :
    (s.putSeq d p x).streamAt k = s.streamAt k := by simp [h]

theorem bufAt_scratch_ne (s : State) {d b : Fin 4} (h : d ≠ b) : (s.scratch d).bufAt b = s.bufAt b := by simp [h]

theorem succeeds_keepsOthers {s : State} {i : Instr} {e : Effect} (rule : Succeeds s i e) :
    KeepsOthers i s e.state := by
  cases rule with
  | nop | bsPopsEmpty | bsGet | bsReadEnd | recReadEnd | hufCount | hufBuild =>
    exact ⟨fun _ _ => rfl, fun _ _ => rfl⟩
  | bsClear | bsAppend | bsCat | bsPop | bsPops | bsRev | bsRead | hufEnc =>
    exact ⟨fun _ _ => rfl, fun k hk => streamAt_putSeq_ne s _ _ (ne_of_index?_idx_ne hk)⟩
  | recRead d r p =>
    exact ⟨fun _ _ => rfl, fun k hk =>
      streamAt_putSeq_ne (s.setFreqs (entryFreq p.entries)) _ _ (ne_of_index?_idx_ne hk)⟩
  | bsWrite | bwtFwd | bwtInv | mtfEnc | mtfDec | rleEnc | rleDec | hufDec | recWrite =>
    exact ⟨fun b hb => bufAt_setBuf_ne s _ (ne_of_index?_idx_ne hb), fun _ _ => rfl⟩

theorem exec_keepsOthers {i : Instr} {s t : State} (hexec : exec i s = .next t) : KeepsOthers i s t := by
  cases ends_of_exec hexec with
  | failed c u before =>
    rcases before with rfl | ⟨d, hd, rfl⟩
    · exact ⟨fun _ _ => rfl, fun _ _ => rfl⟩
    · exact ⟨fun b hb => bufAt_scratch_ne s (by rintro rfl; exact hb hd), fun _ _ => rfl⟩
  | succeeded e rule =>
    have h := succeeds_keepsOthers rule
    exact ⟨h.buffers, h.streams⟩

/-- Settles O45: no buffer's memory and no bitstream is written but the destination's, whether the command fails or
not. -/
theorem onlyDestinationChanges : Obligations.OnlyDestinationChanges := by
  intro i s t hexec
  obtain ⟨hbufs, hstreams⟩ := exec_keepsOthers hexec
  exact ⟨fun b hb => keepsBuffer_of_bufAt (hbufs b hb), fun k hk => keepsStream_of_streamAt (hstreams k hk)⟩

/-! ### OVERRUN and the command in flight (R90, R91, R312) -/

/-- What a blocked access leaves (R90). -/
def State.markOverrun (s : State) : State := { s with overrun := true }

/-- The same writes, made to a state that has OVERRUN set. -/
def Effect.markOverrun (e : Effect) : Effect := { e with state := e.state.markOverrun }

section
variable {op : Byte} {s : State}

theorem finish_markOverrun (op : Byte) (u : State) (r : Except CmdError Effect) :
    finish op u.markOverrun (Effect.markOverrun <$> r) = (finish op u r).markOverrun := by
  cases r <;> rfl

theorem runOne_markOverrun {x : OpIdx} {f g : Fin 4 → Except CmdError Effect}
    (hbody : ∀ k, g k = Effect.markOverrun <$> f k) :
    runOne op x s.markOverrun g = (runOne op x s f).markOverrun := by
  unfold runOne
  cases index? x with
  | none => rfl
  | some k => simp only [hbody, finish_markOverrun]

theorem runTwo_markOverrun {rd rs : OpIdx} {f g : Fin 4 → Fin 4 → Except CmdError Effect}
    (hbody : ∀ d r, g d r = Effect.markOverrun <$> f d r) :
    runTwo op rd rs s.markOverrun g = (runTwo op rd rs s f).markOverrun := by
  unfold runTwo
  cases index? rd with
  | none => rfl
  | some d =>
    cases index? rs with
    | none => rfl
    | some r => simp only [hbody, finish_markOverrun]

theorem runToBuf_markOverrun {rd rs : OpIdx} {f g : Fin 4 → Fin 4 → Except CmdError Effect}
    (hbody : ∀ d r, g d r = Effect.markOverrun <$> f d r) :
    runToBuf op rd rs s.markOverrun g = (runToBuf op rd rs s f).markOverrun := by
  unfold runToBuf
  cases index? rd with
  | none => rfl
  | some d =>
    cases index? rs with
    | none => rfl
    | some r =>
      simp only [hbody]
      exact finish_markOverrun op (s.scratch d) (f d r)

end

theorem bind_markOverrun {α : Type} {x : Except CmdError α} {f g : α → Except CmdError Effect}
    (h : ∀ a, g a = Effect.markOverrun <$> f a) : (x >>= g) = Effect.markOverrun <$> (x >>= f) := by
  rw [map_bind, funext h]

theorem ite_markOverrun {c : Prop} [Decidable c] {x y x' y' : Except CmdError Effect}
    (hx : x' = Effect.markOverrun <$> x) (hy : y' = Effect.markOverrun <$> y) :
    (if c then x' else y') = Effect.markOverrun <$> (if c then x else y) := by
  rw [hx, hy, apply_ite (Effect.markOverrun <$> ·)]

@[simp] theorem seq_markOverrun (s : State) (k : Fin 4) : s.markOverrun.seq k = s.seq k := rfl
@[simp] theorem buf_markOverrun (s : State) (i : Fin 4) : s.markOverrun.buf i = s.buf i := rfl
@[simp] theorem freq_markOverrun (s : State) : s.markOverrun.freq = s.freq := rfl

/-- No command reads OVERRUN or writes it: what a command computes and what it writes are the same, whatever OVERRUN
is. -/
theorem exec_markOverrun (i : Instr) (s : State) :
    ∃ t, exec i s = .next t ∧ exec i s.markOverrun = .next t.markOverrun := by
  cases i with
  | nop => exact ⟨_, rfl, rfl⟩
  | bsClear | bsPop | bsGet | hufCount =>
    exact ⟨_, rfl, congrArg Host.Outcome.next (runOne_markOverrun fun _ => rfl)⟩
  | bsAppend =>
    exact ⟨_, rfl, congrArg Host.Outcome.next (runOne_markOverrun fun _ => bind_markOverrun fun _ => rfl)⟩
  | bsPops =>
    refine ⟨_, rfl, congrArg Host.Outcome.next (runOne_markOverrun fun d => ?_)⟩
    rw [seq_markOverrun]
    cases s.seq d <;> rfl
  | bsRev => exact ⟨_, rfl, congrArg Host.Outcome.next (runTwo_markOverrun fun _ _ => rfl)⟩
  | bsCat =>
    exact ⟨_, rfl, congrArg Host.Outcome.next (runTwo_markOverrun fun _ _ => bind_markOverrun fun _ => rfl)⟩
  | bsRead | recRead =>
    exact ⟨_, rfl, congrArg Host.Outcome.next (runTwo_markOverrun fun _ _ => bind_markOverrun fun _ =>
      ite_markOverrun rfl (bind_markOverrun fun _ => rfl))⟩
  | hufBuild =>
    refine ⟨_, rfl, congrArg Host.Outcome.next ?_⟩
    rw [freq_markOverrun]
    cases buildTree s.freq <;> rfl
  | hufEnc =>
    refine ⟨_, rfl, congrArg Host.Outcome.next (runTwo_markOverrun fun d r => bind_markOverrun fun t => ?_)⟩
    rw [buf_markOverrun]
    cases encodeBytes t (s.buf r) with
    | none => rfl
    | some y => exact bind_markOverrun fun _ => rfl
  | mtfEnc | mtfDec => exact ⟨_, rfl, congrArg Host.Outcome.next (runToBuf_markOverrun fun _ _ => rfl)⟩
  | bsWrite | bwtFwd | rleEnc | recWrite =>
    exact ⟨_, rfl, congrArg Host.Outcome.next (runToBuf_markOverrun fun _ _ => bind_markOverrun fun _ => rfl)⟩
  | bwtInv | rleDec =>
    exact ⟨_, rfl, congrArg Host.Outcome.next (runToBuf_markOverrun fun _ _ =>
      bind_markOverrun fun _ => bind_markOverrun fun _ => rfl)⟩
  | hufDec =>
    exact ⟨_, rfl, congrArg Host.Outcome.next (runToBuf_markOverrun fun _ _ =>
      bind_markOverrun fun _ => bind_markOverrun fun _ => bind_markOverrun fun _ => rfl)⟩

theorem engineStep_markOverrun {s t : State} (hstep : engineStep s = .next t) :
    engineStep s.markOverrun = .next t.markOverrun := by
  rcases engineStep_cases s with ⟨hidle, e⟩ | ⟨w, hw, ⟨i, hd, e⟩ | ⟨c, hd, e⟩⟩ <;> rw [e] at hstep
  · cases hstep; exact engineStep_idle hidle
  · obtain ⟨t', ht', hmark⟩ := exec_markOverrun i s
    cases ht'.symm.trans hstep
    exact (engineStep_ok (s := s.markOverrun) hw hd).trans hmark
  · cases hstep; exact engineStep_error (s := s.markOverrun) hw hd

/-- Settles O60: a blocked access leaves the state with OVERRUN set, which the engine's step carries along. -/
theorem blockedAccessDoesNotDisturb : Obligations.BlockedAccessDoesNotDisturb := by
  intro s u addr n v t hbusy ht halways hstep
  have hblock := blocks_eq_true hbusy halways
  rw [memRead_of_blocks ht hblock, memWrite_of_blocks v ht hblock]
  exact ⟨engineStep_markOverrun hstep, engineStep_markOverrun hstep⟩

end Sys2Proof.Machine

/-! ## Proofs about the command word: encoding, the opcode table, the words and operands that are refused -/

namespace Sys2Proof

/-! ### Decoding and encoding (R110, R111) -/

theorem decode_encode (i : Instr) : decode (encode i) = .ok i := by
  obtain ⟨r, hrow, -, hmake, hrd, hrs, himm⟩ := rowOf_opcode i
  rw [decode_ok_iff, encode, opField_enc, rdField_enc, rsField_enc, immField_enc, rsvField_enc]
  exact ⟨r, hrow, rfl, hrd, hrs, himm, hmake.symm⟩

/-- The command of a word has the word's own fields. -/
theorem fields_of_decode {w : Word} {i : Instr} (h : decode w = .ok i) :
    i.opcode = opField w ∧ i.rd = rdField w ∧ i.rs = rsField w ∧ i.imm = immField w := by
  obtain ⟨r, hrow, -, hrd, hrs, himm, rfl⟩ := decode_ok_iff.1 h
  obtain ⟨hmem, hop⟩ := rowOf_some hrow
  rw [← hop]
  exact opTable_make hmem _ _ _ hrd hrs himm

theorem opcode_of_decode {w : Word} {i : Instr} (h : decode w = .ok i) : i.opcode = opField w :=
  (fields_of_decode h).1

theorem encode_of_decode {w : Word} {i : Instr} (h : decode w = .ok i) : encode i = w := by
  obtain ⟨hop, hrd, hrs, himm⟩ := fields_of_decode h
  obtain ⟨-, -, hrsv, -⟩ := decode_ok_iff.1 h
  rw [encode, hop, hrd, hrs, himm, enc_fields hrsv]

/-- Settles O2: the row of a command's opcode makes the command again from its fields, and a word that decodes is
nothing but its fields. -/
theorem decodeEncodeInverse : Obligations.DecodeEncodeInverse :=
  ⟨decode_encode, fun _ _ => encode_of_decode⟩

/-- Settles O1: each word runs through the checks of R111, to its command or to the check it fails. -/
theorem specWordsDecode : Obligations.SpecWordsDecode := by
  unfold Obligations.SpecWordsDecode
  decide

/-! ### The match and mask columns of the opcode table (R116) -/

/-- The mask of a row, computed from its operand fields: every bit but those of the fields the row uses. -/
def OpRow.mask (r : OpRow) : Word :=
  ~~~enc 0 (if r.rd = .unused then 0 else 15) (if r.rs = .unused then 0 else 15) r.imm

/-- The columns as the spec writes them are those computed from the decoder's rows. -/
theorem tableRows_eq : tableRows = opTable.map fun r => (r.opcode, enc r.opcode 0 0 false, r.mask) := by
  decide

theorem opTable_opcode_inj {r r' : OpRow} (h : r ∈ opTable) (h' : r' ∈ opTable)
    (e : r.opcode = r'.opcode) : r = r' :=
  List.inj_on_of_nodup_map (f := OpRow.opcode) (by decide) h h' e

theorem rowOf_of_mem {r : OpRow} (h : r ∈ opTable) : rowOf r.opcode = some r := by
  cases hrow : rowOf r.opcode with
  | none => simpa using List.find?_eq_none.1 hrow r h
  | some r' =>
    obtain ⟨hmem, hop⟩ := rowOf_some hrow
    rw [opTable_opcode_inj hmem h hop]

theorem eq_iff_fields {v w : Word} : v = w ↔ opField v = opField w ∧ rdField v = rdField w ∧
    rsField v = rsField w ∧ immField v = immField w ∧ rsvField v = rsvField w :=
  ⟨by rintro rfl; exact ⟨rfl, rfl, rfl, rfl, rfl⟩, fun ⟨h0, h1, h2, h3, h4⟩ => word_ext h0 h1 h2 h3 h4⟩

theorem extractLsb'_andNot {k n : Nat} (w m : Word) (h : k + n ≤ 32) :
    (w &&& ~~~m).extractLsb' k n = w.extractLsb' k n &&& ~~~m.extractLsb' k n := by
  apply BitVec.eq_of_getLsbD_eq
  intro i hi
  simp [hi, show k + i < 32 by omega]

/-- What a field keeps under a mask that is clear exactly where the row uses the field. -/
theorem and_not_ite_eq_zero_iff {unused : Prop} [Decidable unused] (x : OpIdx) :
    x &&& ~~~(if unused then 0#4 else 15#4) = 0#4 ↔ (unused → x = 0#4) := by
  by_cases h : unused
  · simp only [h, if_true, BitVec.not_zero, BitVec.and_allOnes, true_imp_iff]
  · simp [h]

/-- `w & mask = match` asks of each field of `w` what the checks of R111 ask of it. -/
theorem and_mask_eq_iff {w : Word} {r : OpRow} : w &&& r.mask = enc r.opcode 0 0 false ↔
    opField w = r.opcode ∧ (r.rd = .unused → rdField w = 0) ∧ (r.rs = .unused → rsField w = 0) ∧
      (r.imm = false → immField w = false) ∧ rsvField w = 0 := by
  have hop (m : Word) : opField (w &&& ~~~m) = opField w &&& ~~~opField m := extractLsb'_andNot w m (by decide)
  have hrd (m : Word) : rdField (w &&& ~~~m) = rdField w &&& ~~~rdField m := extractLsb'_andNot w m (by decide)
  have hrs (m : Word) : rsField (w &&& ~~~m) = rsField w &&& ~~~rsField m := extractLsb'_andNot w m (by decide)
  have hrsv (m : Word) : rsvField (w &&& ~~~m) = rsvField w &&& ~~~rsvField m := extractLsb'_andNot w m (by decide)
  have himm (m : Word) : immField (w &&& ~~~m) = (immField w && !immField m) := by simp [immField]
  rw [eq_iff_fields, OpRow.mask, hop, hrd, hrs, himm, hrsv]
  simp only [opField_enc, rdField_enc, rsField_enc, immField_enc, rsvField_enc, BitVec.ofNat_eq_ofNat, BitVec.not_zero,
    BitVec.and_allOnes, and_not_ite_eq_zero_iff]
  cases r.imm <;> simp

/-- The words that select a row are those that decode to a command with its opcode. -/
theorem selects_iff_decode {r : OpRow} (h : r ∈ opTable) (w : Word) : w &&& r.mask = enc r.opcode 0 0 false ↔
    ∃ i, decode w = .ok i ∧ i.opcode = r.opcode := by
  rw [and_mask_eq_iff]
  constructor
  · rintro ⟨hop, hrd, hrs, himm, hrsv⟩
    have hok := decode_ok_iff.2 ⟨r, hop ▸ rowOf_of_mem h, hrsv, hrd, hrs, himm, rfl⟩
    exact ⟨_, hok, (opcode_of_decode hok).trans hop⟩
  · rintro ⟨i, hok, hi⟩
    have hop : opField w = r.opcode := (opcode_of_decode hok).symm.trans hi
    obtain ⟨r', hrow, hrsv, hrd, hrs, himm, -⟩ := decode_ok_iff.1 hok
    rw [hop, rowOf_of_mem h] at hrow
    cases hrow
    exact ⟨hop, hrd, hrs, himm, hrsv⟩

theorem tableRow_selects_iff_decode {row : Byte × Word × Word} (h : row ∈ tableRows) (w : Word) :
    w &&& row.2.2 = row.2.1 ↔ ∃ i, decode w = .ok i ∧ i.opcode = row.1 := by
  rw [tableRows_eq, List.mem_map] at h
  obtain ⟨r, hmem, rfl⟩ := h
  exact selects_iff_decode hmem w

theorem opcode_mem_tableRows (i : Instr) : ∃ row ∈ tableRows, row.1 = i.opcode := by
  obtain ⟨r, hrow, hop, -⟩ := rowOf_opcode i
  rw [tableRows_eq]
  exact ⟨_, List.mem_map_of_mem (rowOf_some hrow).1, hop⟩

/-! ### Commands with an index above 3 (R113) -/

theorem legal_zero : OpIdx.legal 0#4 = true := rfl

theorem wellFormed_eq (i : Instr) : i.wellFormed = (OpIdx.legal i.rd && OpIdx.legal i.rs) := by
  cases i <;> simp [Instr.wellFormed, Instr.rd, Instr.rs, legal_zero]

theorem wellFormed_eq_false_of_index {i : Instr} (h : i.rd.toNat > 3 ∨ i.rs.toNat > 3) : i.wellFormed = false := by
  rw [wellFormed_eq, Bool.and_eq_false_iff]
  exact h.imp (fun hd => decide_eq_false (by omega)) fun hr => decide_eq_false (by omega)

namespace Machine

section
variable {op : Byte} {s : State}

theorem runOne_of_illegal {x : OpIdx} {f : Fin 4 → Except CmdError Effect} (h : OpIdx.legal x = false) :
    runOne op x s f = s.complete op (some .operand) false 0 := by
  rcases runOne_cases op x s f with ⟨-, e⟩ | ⟨k, hk, -⟩
  · exact e
  · simp [index?_eq_none.2 h] at hk

theorem runTwo_of_illegal {rd rs : OpIdx} {f : Fin 4 → Fin 4 → Except CmdError Effect}
    (h : (OpIdx.legal rd && OpIdx.legal rs) = false) :
    runTwo op rd rs s f = s.complete op (some .operand) false 0 := by
  rcases runTwo_cases op rd rs s f with ⟨-, e⟩ | ⟨d, r, hd, hr, -⟩
  · exact e
  · rw [Bool.and_eq_false_iff, ← index?_eq_none, ← index?_eq_none] at h
    simp [hd, hr] at h

/-- ERR_OPERAND completes from the state before the command, or from its scratch form once RD names a buffer (R279). -/
theorem runToBuf_of_illegal {rd rs : OpIdx} {f : Fin 4 → Fin 4 → Except CmdError Effect}
    (h : (OpIdx.legal rd && OpIdx.legal rs) = false) :
    runToBuf op rd rs s f = ((index? rd).elim s s.scratch).complete op (some .operand) false 0 := by
  rcases runToBuf_cases op rd rs s f with ⟨hd, e⟩ | ⟨d, hd, -, e⟩ | ⟨d, r, hd, hr, -⟩
  · rw [hd]; exact e
  · rw [hd]; exact e
  · rw [Bool.and_eq_false_iff, ← index?_eq_none, ← index?_eq_none] at h
    simp [hd, hr] at h

end

theorem exec_of_not_wellFormed {i : Instr} (s : State) (h : i.wellFormed = false) :
    exec i s = .next (((bufDest i).elim s s.scratch).complete i.opcode (some .operand) false 0) := by
  cases i with
  | nop | hufBuild => cases h
  | bsClear | bsAppend | bsPop | bsPops | bsGet | hufCount =>
    exact congrArg Host.Outcome.next (runOne_of_illegal h)
  | bsCat | bsRev | bsRead | hufEnc | recRead => exact congrArg Host.Outcome.next (runTwo_of_illegal h)
  | bsWrite | bwtFwd | bwtInv | mtfEnc | mtfDec | rleEnc | rleDec | hufDec | recWrite =>
    exact congrArg Host.Outcome.next (runToBuf_of_illegal h)

/-- Settles O5: the operand form of the command refuses the index, before the command's own rule is looked at. -/
theorem indexAboveThreeRefused : Obligations.IndexAboveThreeRefused := by
  intro i s h
  refine ⟨_, exec_of_not_wellFormed s h, complete_fails _ _ _ _ _, fun hnone => ?_, fun d hd => ?_⟩
  · rw [hnone]; exact keepsAll_complete s _ _ _ _
  · rw [hd]; exact keepsOnFailure_scratch s d _ _ _ _

/-- Settles O3: the mask of a row covers exactly the fields the decoder checks, and a command with an index above 3
decodes like any other before it is refused. -/
theorem tableRowsSelectCommands : Obligations.TableRowsSelectCommands := by
  refine ⟨fun row hrow w => tableRow_selects_iff_decode hrow w, opcode_mem_tableRows, ?_⟩
  intro s w i hlatch hinputs hdecode hindex
  obtain ⟨t, hexec, hfails, -⟩ := indexAboveThreeRefused i s (wellFormed_eq_false_of_index hindex)
  exact ⟨t, by rw [step_engine hinputs, engineStep_ok hlatch hdecode, hexec], hfails⟩

/-! ### Words that are no command (R117) -/

/-- A word is refused once no command of its opcode can be its meaning. -/
theorem decode_error_of_opcode_ne {w : Word} (h : ∀ i, decode w = .ok i → i.opcode ≠ opField w) :
    ∃ e, decode w = .error e := by
  cases hdecode : decode w with
  | error e => exact ⟨e, rfl⟩
  | ok i => exact absurd (opcode_of_decode hdecode) (h i hdecode)

/-- Settles O4: a command's word has an opcode of the table and selects its row; any other word completes with
ERR_ILLEGAL on the state as it was. -/
theorem illegalWordRefused : Obligations.IllegalWordRefused := by
  refine ⟨by decide +kernel, ?_, ?_, ?_⟩
  · refine fun w hop => decode_error_of_opcode_ne fun i _ heq => ?_
    obtain ⟨row, hrow, hi⟩ := opcode_mem_tableRows i
    exact hop row hrow (heq.symm.trans hi.symm)
  · intro row hrow w hop hmask
    refine decode_error_of_opcode_ne fun i hdecode heq => ?_
    exact hmask ((tableRow_selects_iff_decode hrow w).2 ⟨i, hdecode, heq.trans hop⟩)
  · intro s w e hlatch hinputs hdecode
    exact ⟨_, (step_engine hinputs).trans (engineStep_error hlatch hdecode), complete_fails _ _ _ _ _,
      keepsAll_complete _ _ _ _ _⟩

end Machine
end Sys2Proof

/-! ## Proofs about the Bitstream commands and their serialized form (R140 to R151) -/

namespace Sys2Proof.Machine

/-! ### Running a command whose operands exist -/

section
variable {α : Type} {bad : Bool} {c : CmdError} {f : Unit → Except CmdError α}

theorem refuseIf_pass (h : bad = false) : (refuseIf bad c >>= f) = f () := by
  subst h; rfl

theorem refuseIf_raise (h : bad = true) : (refuseIf bad c >>= f) = .error c := by
  subst h; rfl

end

section
variable {op : Byte} {s : State} {c : CmdError} {e : Effect}

theorem runOne_ok {k : Fin 4} {f : Fin 4 → Except CmdError Effect} (h : f k = .ok e) :
    (.next (runOne op (idx k) s f) : Host.Outcome State Fault Refusal) =
      .next (e.state.complete op none e.eof e.result) := by
  rw [runOne_idx, h, finish_ok]

theorem runOne_error {k : Fin 4} {f : Fin 4 → Except CmdError Effect} (h : f k = .error c) :
    (.next (runOne op (idx k) s f) : Host.Outcome State Fault Refusal) =
      .next (s.complete op (some c) false 0) := by
  rw [runOne_idx, h, finish_error]

variable {d r : Fin 4} {f : Fin 4 → Fin 4 → Except CmdError Effect}

theorem runTwo_ok (h : f d r = .ok e) :
    (.next (runTwo op (idx d) (idx r) s f) : Host.Outcome State Fault Refusal) =
      .next (e.state.complete op none e.eof e.result) := by
  rw [runTwo_idx, h, finish_ok]

theorem runTwo_error (h : f d r = .error c) :
    (.next (runTwo op (idx d) (idx r) s f) : Host.Outcome State Fault Refusal) =
      .next (s.complete op (some c) false 0) := by
  rw [runTwo_idx, h, finish_error]

theorem runToBuf_ok (h : f d r = .ok e) :
    (.next (runToBuf op (idx d) (idx r) s f) : Host.Outcome State Fault Refusal) =
      .next (e.state.complete op none e.eof e.result) := by
  rw [runToBuf_idx, h, finish_ok]

theorem runToBuf_error (h : f d r = .error c) :
    (.next (runToBuf op (idx d) (idx r) s f) : Host.Outcome State Fault Refusal) =
      .next ((s.scratch d).complete op (some c) false 0) := by
  rw [runToBuf_idx, h, finish_error]

end

theorem needTree_of_validTree {s : State} {t : HuffTree} (h : s.validTree = some t) : s.needTree = .ok t := by
  simp [State.needTree, h]

/-- A command whose success rule holds does what the rule says: with `exec_ends`, the rules are exactly the ways a
command succeeds. -/
theorem exec_of_succeeds {s : State} {i : Instr} {e : Effect} (rule : Succeeds s i e) :
    exec i s = .next (e.state.complete i.opcode none e.eof e.result) := by
  cases rule with
  | nop => rfl
  | bsClear | bsPop | bsGet | hufCount => exact runOne_ok rfl
  | bsAppend d b room => exact runOne_ok (refuseIf_pass (beq_false_of_ne room))
  | bsPopsEmpty d empty => exact runOne_ok (by rw [empty])
  | bsPops d b x bits => exact runOne_ok (by rw [bits])
  | bsRev => exact runTwo_ok rfl
  | bsCat d r fits => exact runTwo_ok (refuseIf_pass (decide_eq_false (not_lt.2 fits)))
  | bsReadEnd d r atEnd | recReadEnd d r atEnd =>
    exact runTwo_ok ((refuseIf_pass (decide_eq_false (not_lt.2 atEnd.le))).trans (if_pos atEnd))
  | bsRead d r x used before parsed | recRead d r p before parsed =>
    refine runTwo_ok ((refuseIf_pass (decide_eq_false (not_lt.2 before.le))).trans ((if_neg before.ne).trans ?_))
    rw [parsed]; rfl
  | mtfEnc | mtfDec => exact runToBuf_ok rfl
  | bsWrite d r fits | rleEnc d r fits | recWrite d r fits =>
    exact runToBuf_ok (refuseIf_pass (decide_eq_false (not_lt.2 fits)))
  | bwtFwd d r nonempty => exact runToBuf_ok (refuseIf_pass (List.isEmpty_eq_false_iff.2 nonempty))
  | bwtInv d r inRange =>
    have nonempty : s.buf r ≠ [] := List.ne_nil_of_length_pos (by omega)
    exact runToBuf_ok ((refuseIf_pass (List.isEmpty_eq_false_iff.2 nonempty)).trans
      (refuseIf_pass (decide_eq_false (not_le.2 inRange))))
  | rleDec d r x expanded fits =>
    refine runToBuf_ok ?_
    rw [expanded]
    exact refuseIf_pass (decide_eq_false (not_lt.2 fits))
  | hufBuild t built =>
    show Host.Outcome.next (finish _ s _) = _
    rw [built]; rfl
  | hufEnc d r t y ready encoded fits =>
    refine runTwo_ok ?_
    simp only [needTree_of_validTree ready, bind, Except.bind, encoded]
    exact refuseIf_pass (decide_eq_false (not_lt.2 fits))
  | hufDec d r t x ready walked fits =>
    refine runToBuf_ok ?_
    simp only [needTree_of_validTree ready, bind, Except.bind, walked]
    exact refuseIf_pass (decide_eq_false (not_lt.2 fits))

section
variable {i : Instr} {s : State} {op : Byte}

/-- A command that completes from the state before it, with code OK, changes nothing else. -/
theorem exists_completes {eof : Bool} {res : Word} (h : exec i s = .next (s.complete op none eof res)) :
    ∃ t, exec i s = .next t ∧ Completes op res eof t ∧ KeepsAll s t :=
  ⟨_, h, complete_completes s op eof res, keepsAll_complete s op none eof res⟩

/-- A command that completes from the state before it, with an error, changes nothing else (R279). -/
theorem exists_fails {c : CmdError} (h : exec i s = .next (s.complete op (some c) false 0)) :
    ∃ t, exec i s = .next t ∧ FailsWith op c t ∧ KeepsAll s t :=
  ⟨_, h, complete_fails s op c false 0, keepsAll_complete s op (some c) false 0⟩

end

/-! ### Bitstreams after a write and a completion (R11, R45) -/

section
variable (s : State) (k : Fin 4)

@[simp] theorem seq_complete (op : Byte) (c : Option CmdError) (e : Bool) (r : Word) :
    (s.complete op c e r).seq k = s.seq k := rfl
@[simp] theorem startPos_complete (op : Byte) (c : Option CmdError) (e : Bool) (r : Word) :
    (s.complete op c e r).startPos k = s.startPos k := rfl
@[simp] theorem endPos_complete (op : Byte) (c : Option CmdError) (e : Bool) (r : Word) :
    (s.complete op c e r).endPos k = s.endPos k := rfl

@[simp] theorem seq_setSeq_self (x : List Bool) : (s.setSeq k x).seq k = x := seq_putSeq_self s k 0 x
@[simp] theorem startPos_setSeq_self (x : List Bool) : (s.setSeq k x).startPos k = 0 :=
  startPos_putSeq_self s k 0 x
@[simp] theorem endPos_setSeq_self (x : List Bool) : (s.setSeq k x).endPos k = x.length :=
  (endPos_putSeq_self s k 0 x).trans (Nat.zero_add _)

@[simp] theorem seq_appendSeq_self (y : List Bool) : (s.appendSeq k y).seq k = s.seq k ++ y :=
  seq_putSeq_self s k _ _
@[simp] theorem startPos_appendSeq_self (y : List Bool) : (s.appendSeq k y).startPos k = s.startPos k :=
  startPos_putSeq_self s k _ _
@[simp] theorem endPos_appendSeq_self (y : List Bool) : (s.appendSeq k y).endPos k = s.endPos k + y.length := by
  simp [State.appendSeq, State.endPos, State.startPos, Nat.add_assoc]

theorem endPos_sub_startPos : s.endPos k - s.startPos k = (s.seq k).length := Nat.add_sub_cancel_left ..

theorem putSeq_self : s.putSeq k (s.streamAt k).start (s.seq k) = s := by
  have hset : s.streams.set k (s.streams.get k) = s.streams := Vector.set_getElem_self k.isLt
  show { s with streams := s.streams.set k (s.streams.get k) } = s
  rw [hset]

end

/-- The new length of a stream that is still within its capacity fits RESULT (R6, R45). -/
theorem toNat_ofNat_seq_length {s : State} (h : s.Inv) (k : Fin 4) {n : Nat}
    (hn : s.startPos k + n ≤ s.bsCapBits.toNat) : (BitVec.ofNat 32 n).toNat = n :=
  Nat.mod_eq_of_lt (by have := h.bsCapBits_le; omega)

/-! ### BS_CLEAR, BS_APPEND and BS_CAT (R140 to R142) -/

/-- Settles O8: BS_CLEAR is SetSeq of the empty sequence. -/
theorem bsClearEmpties : Obligations.BsClearEmpties := by
  intro s d
  exact ⟨rfl, _, exec_of_succeeds (.bsClear d), complete_completes _ _ _ _, by simp, by simp, by simp,
    keepsBut_putSeq s d _ _ _ _ _ _⟩

theorem exec_bsAppend_of_full {s : State} {d : Fin 4} (b : Bool) (full : s.endPos d = s.bsCapBits.toNat) :
    exec (.bsAppend (idx d) b) s = .next (s.complete Opcode.bsAppend (some .bsFull) false 0) :=
  runOne_error (refuseIf_raise (beq_iff_eq.2 full))

/-- Settles O9: below the capacity the success rule appends one bit at END. -/
theorem bsAppendPushesBit : Obligations.BsAppendPushesBit := by
  intro s d b h
  refine ⟨rfl, fun full => exists_fails (exec_bsAppend_of_full b full), fun room => ?_⟩
  refine ⟨_, exec_of_succeeds (.bsAppend d b room), ?_, ?_, by simp, by simp, by simp,
    keepsBut_putSeq s d _ _ _ _ _ _⟩
  · rw [endPos_sub_startPos, seq_complete, seq_appendSeq_self, List.length_append]
    exact complete_completes _ _ _ _
  · have hle := h.streams d
    refine toNat_ofNat_seq_length h d ?_
    rw [State.endPos] at hle room
    omega

theorem exec_bsCat_of_full {s : State} {d r : Fin 4} (full : s.endPos d + (s.seq r).length > s.bsCapBits.toNat) :
    exec (.bsCat (idx d) (idx r)) s = .next (s.complete Opcode.bsCat (some .bsFull) false 0) :=
  runTwo_error (refuseIf_raise (decide_eq_true full))

/-- Settles O10: when the bits fit, the success rule appends the source's old bits at END. -/
theorem bsCatAppendsStream : Obligations.BsCatAppendsStream := by
  intro s d r h
  refine ⟨rfl, fun full => exists_fails (exec_bsCat_of_full full), fun fits => ?_⟩
  refine ⟨_, exec_of_succeeds (.bsCat d r fits), ?_, ?_, by simp, by simp, by simp,
    keepsBut_putSeq s d _ _ _ _ _ _⟩
  · rw [endPos_sub_startPos, seq_complete, seq_appendSeq_self, List.length_append]
    exact complete_completes _ _ _ _
  · refine toNat_ofNat_seq_length h d ?_
    rw [State.endPos] at fits
    omega

/-! ### BS_POP and BS_POPS (R143, R144) -/

theorem exec_bsPop_of_empty {s : State} {d : Fin 4} (empty : s.seq d = []) :
    exec (.bsPop (idx d)) s = .next (s.complete Opcode.bsPop none false Config.noneValue) := by
  have hsame := putSeq_self s d
  rw [empty] at hsame
  rw [exec_of_succeeds (.bsPop d), empty, List.dropLast_nil, hsame]
  rfl

/-- Settles O11: the last bit is the one after `dropLast`; an empty stream is written back as it was. -/
theorem bsPopReturnsLastBit : Obligations.BsPopReturnsLastBit := by
  intro s d
  refine ⟨rfl, fun empty => exists_completes (exec_bsPop_of_empty empty), fun x b bits => ?_⟩
  have hend : s.endPos d = s.startPos d + (x.length + 1) := by
    rw [State.endPos, bits, List.length_append, List.length_singleton]
  have hexec := exec_of_succeeds (s := s) (.bsPop d)
  rw [bits, List.dropLast_concat, List.getLast?_concat] at hexec
  exact ⟨_, hexec, complete_completes _ _ _ _, seq_putSeq_self s d _ x, startPos_putSeq_self s d _ x,
    (endPos_putSeq_self s d _ x).trans (by rw [hend]; rfl), keepsBut_putSeq s d _ _ _ _ _ _⟩

/-- Settles O12: the invariant keeps START + 1 within END, so it does not wrap. -/
theorem bsPopsReturnsFirstBit : Obligations.BsPopsReturnsFirstBit := by
  intro s d h
  refine ⟨rfl, fun empty => exists_completes (exec_of_succeeds (.bsPopsEmpty d empty)), fun b x bits => ?_⟩
  have hend : s.endPos d = s.startPos d + (x.length + 1) := by rw [State.endPos, bits, List.length_cons]
  have hstart : ((s.streamAt d).start + 1).toNat = s.startPos d + 1 := by
    have := h.streams d
    have := s.bsCapBits.isLt
    exact Nat.mod_eq_of_lt (by show s.startPos d + 1 < 2 ^ 32; omega)
  exact ⟨_, exec_of_succeeds (.bsPops d b x bits), complete_completes _ _ _ _, seq_putSeq_self s d _ x,
    (startPos_putSeq_self s d _ x).trans hstart,
    (endPos_putSeq_self s d _ x).trans (by rw [hstart, hend]; omega), keepsBut_putSeq s d _ _ _ _ _ _⟩

/-! ### BS_REV and BS_GET (R145, R146, R150) -/

/-- Settles O13: BS_REV is SetSeq of the source's reversed bits. -/
theorem bsRevReverses : Obligations.BsRevReverses := by
  intro s d r
  refine ⟨rfl, _, exec_of_succeeds (.bsRev d r), complete_completes _ _ _ _, by simp, by simp, fun j hj => ?_,
    keepsBut_putSeq s d _ _ _ _ _ _⟩
  rw [seq_complete, seq_setSeq_self, List.getElem?_reverse hj]

/-- Settles O14: the index is within the bits, or there is no value. -/
theorem bsGetReadsBit : Obligations.BsGetReadsBit := by
  intro s r
  refine ⟨rfl, fun h => exists_completes ?_, fun h => exists_completes ?_⟩ <;>
    rw [exec_of_succeeds (.bsGet r)]
  · rw [List.getElem?_eq_getElem h]; rfl
  · rw [List.getElem?_eq_none h]; rfl

theorem seq_of_exec_bsRev {s t : State} {d r : Fin 4} (h : exec (.bsRev (idx d) (idx r)) s = .next t) :
    t.seq d = (s.seq r).reverse := by
  cases (exec_of_succeeds (.bsRev d r)).symm.trans h
  simp

theorem result_of_exec_bsGet {s t : State} {r : Fin 4} (h : exec (.bsGet (idx r)) s = .next t) :
    t.result = bitResult (s.seq r)[s.arg.toNat]? := by
  cases (exec_of_succeeds (.bsGet r)).symm.trans h
  rfl

/-- Setting ARG leaves the bitstreams alone, so BS_GET reads the same bits at the given index (R38, R146). -/
theorem result_of_exec_bsGet_arg {s t : State} {r : Fin 4} {a : Word}
    (h : exec (.bsGet (idx r)) { s with arg := a } = .next t) : t.result = bitResult (s.seq r)[a.toNat]? :=
  result_of_exec_bsGet h

/-- Settles O18: bit i of the reverse is bit |x| − 1 − i, and the reverse is as long as x. -/
theorem reverseLaws : Obligations.ReverseLaws := by
  intro s t d r hrev
  have hseq := seq_of_exec_bsRev hrev
  refine ⟨fun e u hback => ?_, fun i u v hi hu hv hlen => ?_, fun a u v ha hu hv => ⟨?_, ?_⟩⟩
  · rw [seq_of_exec_bsRev hback, hseq, List.reverse_reverse]
  · have toNat_index {j : Nat} (hj : j < (s.seq r).length) : (BitVec.ofNat 32 j).toNat = j :=
      Nat.mod_eq_of_lt (lt_of_lt_of_le hj hlen)
    rw [result_of_exec_bsGet_arg hu, result_of_exec_bsGet_arg hv, hseq, toNat_index hi, toNat_index (by omega),
      List.getElem?_reverse hi]
  · rw [result_of_exec_bsGet_arg hu, hseq, List.getElem?_eq_none (by rwa [List.length_reverse])]; rfl
  · rw [result_of_exec_bsGet_arg hv, List.getElem?_eq_none ha]; rfl

/-! ### The serialized form (R147) -/

theorem take_ser (x : List Bool) : (ser x).take 4 = be32 (BitVec.ofNat 32 x.length) := rfl

theorem drop_ser (x : List Bool) : (ser x).drop 4 = pack x := rfl

/-- Unpacking takes the packed bits back, whatever the padding is (R147). -/
theorem unpack_pack (x : List Bool) : unpack (pack x) x.length = x := by
  apply List.ext_getElem?
  intro j
  by_cases hj : j < x.length
  · rw [unpack_getElem? _ hj, pack_bit x (by omega) (Nat.mod_lt j (by decide)), Nat.div_add_mod,
      List.getD_eq_getElem _ _ hj, List.getElem?_eq_getElem hj]
  · rw [List.getElem?_eq_none (by rw [unpack_length]; omega), List.getElem?_eq_none (by omega)]

/-- Settles O15: the header is four bytes, and the data bytes after it are `pack`. -/
theorem serializedForm : Obligations.SerializedForm := by
  refine ⟨fun v => ⟨rfl, fromBe_be32 v⟩, fun v => ⟨rfl, fromBe_be16 v⟩, fun x => ?_⟩
  exact ⟨ser_length x, take_ser x, fun m b hm hb => by rw [drop_ser, pack_bit x hm hb],
    fun p n => ⟨unpack_length p n, fun j hj => unpack_getElem? p hj⟩, unpack_pack x⟩

/-! ### BS_WRITE (R148) -/

section
variable (s : State) (i : Fin 4) (y : List Byte)

/-- The bytes below the old LEN stand where they were (R89). -/
theorem byteAt_appendBuf_of_lt {j : Nat} (h : j < (s.len i).toNat) :
    (s.appendBuf i y).byteAt i j = s.byteAt i j := by
  have hold : (s.buf i ++ y)[j]? = some (s.byteAt i j) := by
    rw [List.getElem?_append_left (by rwa [buf_length]), buf_getElem?, if_pos h]
  simp [State.appendBuf, State.byteAt, Memory.lookup_ofSeq, hold]

variable {s i y} (fits : (s.len i).toNat + y.length < 2 ^ 32)
include fits

theorem buf_appendBuf_self : (s.appendBuf i y).buf i = s.buf i ++ y :=
  buf_setBuf_self s i (by rwa [List.length_append, buf_length])

theorem toNat_len_appendBuf_self : ((s.appendBuf i y).len i).toNat = (s.len i).toNat + y.length := by
  rw [← buf_length, buf_appendBuf_self fits, List.length_append, buf_length]

end

theorem exec_bsWrite_of_full {s : State} {d r : Fin 4}
    (full : (s.len d).toNat + (ser (s.seq r)).length > s.bufBytes.toNat) :
    exec (.bsWrite (idx d) (idx r)) s =
      .next ((s.scratch d).complete Opcode.bsWrite (some .bufFull) false 0) :=
  runToBuf_error (refuseIf_raise (decide_eq_true full))

/-- Settles O16: when the bytes fit BUF_BYTES, the success rule appends them to the buffer. -/
theorem bsWriteAppendsSerialized : Obligations.BsWriteAppendsSerialized := by
  intro s d r
  refine ⟨rfl, fun full => ?_, fun fits => ?_⟩
  · exact ⟨_, exec_bsWrite_of_full full, complete_fails _ _ _ _ _, keepsOnFailure_scratch s d _ _ _ _⟩
  · have hlt := lt_of_le_of_lt fits s.bufBytes.isLt
    exact ⟨_, exec_of_succeeds (.bsWrite d r fits), complete_completes _ _ _ _, toNat_len_appendBuf_self hlt,
      buf_appendBuf_self hlt, fun j hj => byteAt_appendBuf_of_lt s d _ hj, keepsBut_setBuf s d _ _ _ _ _⟩

/-! ### BS_READ (R149) -/

/-- The parse of R149 as one equation: its checks in order. -/
theorem readStream_eq (cap : Nat) (m : List Byte) : readStream cap m =
    if m.length < 4 then .error .truncated
    else if fromBe (m.take 4) > cap then .error .malformed
    else if m.length - 4 < ceil8 (fromBe (m.take 4)) then .error .truncated
    else .ok (unpack ((m.drop 4).take (ceil8 (fromBe (m.take 4)))) (fromBe (m.take 4)),
      4 + ceil8 (fromBe (m.take 4))) := by
  rcases readStream_cases cap m with ⟨h4, e⟩ | ⟨h4, hcap, e⟩ | ⟨h4, hcap, hdata, e⟩ | ⟨h4, hcap, hdata, e⟩
  · rw [e, if_pos h4]
  · rw [e, if_neg (not_lt.2 h4), if_pos hcap]
  · rw [e, if_neg (not_lt.2 h4), if_neg (not_lt.2 hcap), if_pos hdata]
  · rw [e, if_neg (not_lt.2 h4), if_neg (not_lt.2 hcap), if_neg (not_lt.2 hdata)]

theorem exec_bsRead_of_beyond {s : State} (d : Fin 4) {r : Fin 4} (beyond : s.rpos.toNat > (s.len r).toNat) :
    exec (.bsRead (idx d) (idx r)) s = .next (s.complete Opcode.bsRead (some .operand) false 0) :=
  runTwo_error (refuseIf_raise (decide_eq_true beyond))

theorem exec_bsRead_of_error {s : State} (d : Fin 4) {r : Fin 4} {c : CmdError}
    (before : s.rpos.toNat < (s.len r).toNat)
    (failed : readStream s.bsCapBits.toNat ((s.buf r).drop s.rpos.toNat) = .error c) :
    exec (.bsRead (idx d) (idx r)) s = .next (s.complete Opcode.bsRead (some c) false 0) := by
  refine runTwo_error ((refuseIf_pass (decide_eq_false (not_lt.2 before.le))).trans ((if_neg before.ne).trans ?_))
  rw [failed]; rfl

/-- What BS_READ keeps when it writes a stream and RPOS. -/
theorem keepsRest_setSeq_rpos (s : State) (d : Fin 4) (x : List Bool) (p : Word) (op : Byte) (r : Word) :
    KeepsRest [] [d] s (State.complete { s.setSeq d x with rpos := p } op none false r) where
  host := ⟨rfl, rfl, rfl, rfl, rfl, rfl, rfl⟩
  buffers _ _ := ⟨rfl, fun _ => rfl⟩
  streams k hk := keepsStream_of_streamAt (streamAt_putSeq_ne s 0 x fun h => hk (by simp [h]))

/-- Settles O17: the checks of RPOS, then those of `readStream` on the bytes that remain. -/
theorem bsReadParsesStream : Obligations.BsReadParsesStream := by
  intro s d r
  refine ⟨rfl, fun beyond => exists_fails (exec_bsRead_of_beyond d beyond),
    fun atEnd => exists_completes (exec_of_succeeds (.bsReadEnd d r atEnd)), ?_⟩
  rintro p m n rfl before rfl rfl
  have hparse := readStream_eq s.bsCapBits.toNat ((s.buf r).drop s.rpos.toNat)
  rw [ceil8] at hparse
  refine ⟨fun short => ?_, fun h4 above => ?_, fun h4 hcap missing => ?_, fun h4 hcap present => ?_⟩
  · rw [if_pos short] at hparse
    exact exists_fails (exec_bsRead_of_error d before hparse)
  · rw [if_neg (not_lt.2 h4), if_pos above] at hparse
    exact exists_fails (exec_bsRead_of_error d before hparse)
  · rw [if_neg (not_lt.2 h4), if_neg (not_lt.2 hcap), if_pos missing] at hparse
    exact exists_fails (exec_bsRead_of_error d before hparse)
  · rw [if_neg (not_lt.2 h4), if_neg (not_lt.2 hcap), if_neg (not_lt.2 present)] at hparse
    refine ⟨_, exec_of_succeeds (.bsRead d r _ _ before hparse), complete_completes _ _ _ _,
      seq_setSeq_self s d _, startPos_setSeq_self s d _, ?_, ?_, rfl, ⟨rfl, rfl, rfl⟩,
      keepsRest_setSeq_rpos s d _ _ _ _⟩
    · exact (endPos_setSeq_self s d _).trans (unpack_length _ _)
    · have hlen := (s.len r).isLt
      rw [List.length_drop, buf_length] at h4 present
      rw [Nat.add_assoc]
      exact Nat.mod_eq_of_lt (by omega)

/-! ### BS_WRITE, then BS_READ (R151) -/

/-- Settles O19: the bytes from the old LEN on are the serialized stream, which BS_READ's rule parses back. -/
theorem streamWriteReadRoundTrip : Obligations.StreamWriteReadRoundTrip := by
  intro s t d r e h hwrite hok
  by_cases fits : (s.len d).toNat + (ser (s.seq r)).length ≤ s.bufBytes.toNat
  · obtain ⟨t', ht', hcompl, hlen, hbuf, -, hkeep⟩ := (bsWriteAppendsSerialized s d r).2.2 fits
    cases ht'.symm.trans hwrite
    have hcap := h.seq_length_le r
    have hser := ser_length (s.seq r)
    have hbytes : (t.buf d).drop (s.len d).toNat = ser (s.seq r) := by
      rw [hbuf, List.drop_left' (buf_length s d)]
    have hheader : (s.seq r).length = fromBe ((ser (s.seq r)).take 4) := by
      rw [take_ser, fromBe_be32]
      exact (Nat.mod_eq_of_lt (lt_of_le_of_lt hcap s.bsCapBits.isLt)).symm
    obtain ⟨-, -, -, hread⟩ := bsReadParsesStream { t with rpos := s.len d } e d
    have before : (s.len d).toNat < (t.len d).toNat := by omega
    obtain ⟨-, -, -, hparse⟩ := hread _ (ser (s.seq r)) _ rfl before hbytes.symm hheader
    obtain ⟨u, hu, hcompl', hseq, -, -, hrpos, -⟩ := hparse (by omega)
      (by rw [← hkeep.rest.host.bsCapBits] at hcap; exact hcap) (by omega)
    refine ⟨u, hu, hcompl'.err, hcompl'.eof, ?_, ?_, ?_⟩
    · rw [hseq, drop_ser, ← pack_length, List.take_length, unpack_pack]
    · rw [hcompl'.result, hcompl.result, hser]
    · apply BitVec.eq_of_toNat_eq
      rw [hrpos, hlen, hser, Nat.add_assoc]
  · cases (exec_bsWrite_of_full (not_le.1 fits)).symm.trans hwrite
    cases hok

end Sys2Proof.Machine

/-! ## Proofs about the Burrows-Wheeler commands (R170 to R177) -/

namespace Sys2Proof.Machine

/-! ### Rotations (R170) -/

/-- The last byte of a rotation: the one BWT_FWD writes for it (R171). -/
def lastByte (w : List Byte) : Byte := w.getD (w.length - 1) 0

/-- The rotation one to the right: the last byte comes to the front. -/
def shiftRight (w : List Byte) : List Byte := lastByte w :: w.dropLast

theorem dropLast_append_lastByte {w : List Byte} (h : w ≠ []) : w.dropLast ++ [lastByte w] = w := by
  have hlast : lastByte w = w.getLast h := by
    rw [lastByte, List.getLast_eq_getElem, List.getD_eq_getElem]
  rw [hlast, List.dropLast_concat_getLast h]

theorem shiftRight_eq_rotate {w : List Byte} (h : w ≠ []) : shiftRight w = w.rotate (w.length - 1) := by
  have hsplit := dropLast_append_lastByte h
  have hrot := List.rotate_append_length_eq w.dropLast [lastByte w]
  rw [hsplit, List.length_dropLast] at hrot
  exact hrot.symm

theorem rot_eq_rotate {x : List Byte} {i : Nat} (h : i ≤ x.length) : rot x i = x.rotate i :=
  (List.rotate_eq_drop_append_take h).symm

@[simp] theorem rot_zero (x : List Byte) : rot x 0 = x := by simp [rot]

theorem rot_length {x : List Byte} {i : Nat} (h : i ≤ x.length) : (rot x i).length = x.length := by
  rw [rot_eq_rotate h, List.length_rotate]

theorem rot_getElem? {x : List Byte} {i j : Nat} (hi : i ≤ x.length) (hj : j < x.length) :
    (rot x i)[j]? = x[(i + j) % x.length]? := by
  rw [rot_eq_rotate hi, List.getElem?_rotate hj, Nat.add_comm]

theorem lastByte_rot {x : List Byte} {i : Nat} (h : i < x.length) :
    lastByte (rot x i) = x.getD ((i + x.length - 1) % x.length) 0 := by
  rw [lastByte, rot_length h.le, List.getD_eq_getElem?_getD, rot_getElem? h.le (by omega),
    List.getD_eq_getElem?_getD, Nat.add_sub_assoc (by omega)]

theorem map_rotate_range {x : List Byte} (h : x ≠ []) : (List.range x.length).map x.rotate = x.cyclicPermutations := by
  apply List.ext_getElem
  · simp [List.length_cyclicPermutations_of_ne_nil x h]
  · simp

/-! ### The sorted order (R170, R171) -/

theorem mem_rotOrder {x : List Byte} {i : Nat} : i ∈ rotOrder x ↔ i < x.length := by
  rw [(rotOrder_perm x).mem_iff, List.mem_range]

theorem rotLe_iff {x : List Byte} {i j : Nat} :
    rotLe x i j = true ↔ rot x i < rot x j ∨ rot x i = rot x j ∧ i ≤ j := by
  simp [rotLe]

theorem rotLe_total (x : List Byte) : Std.Total fun i j => rotLe x i j = true where
  total i j := by
    simp only [rotLe_iff]
    rcases Std.lt_trichotomy (rot x i) (rot x j) with h | h | h
    · exact .inl (.inl h)
    · exact (Nat.le_total i j).imp (fun hij => .inr ⟨h, hij⟩) fun hji => .inr ⟨h.symm, hji⟩
    · exact .inr (.inl h)

theorem rotLe_trans (x : List Byte) : IsTrans Nat fun i j => rotLe x i j = true where
  trans i j k := by
    simp only [rotLe_iff]
    rintro (hij | ⟨hij, hi⟩) (hjk | ⟨hjk, hj⟩)
    · exact .inl (List.lt_trans hij hjk)
    · exact .inl (hjk ▸ hij)
    · exact .inl (hij ▸ hjk)
    · exact .inr ⟨hij.trans hjk, hi.trans hj⟩

/-- The offsets stand strictly in the order of (rotation, offset): sorted, and no offset twice (R170). -/
theorem rotOrder_pairwise (x : List Byte) :
    (rotOrder x).Pairwise fun i j => rot x i < rot x j ∨ rot x i = rot x j ∧ i < j := by
  have := rotLe_total x
  have := rotLe_trans x
  have hsorted : (rotOrder x).Pairwise fun i j => rotLe x i j = true := List.pairwise_insertionSort _ _
  have hnodup : (rotOrder x).Pairwise (· ≠ ·) := (rotOrder_perm x).nodup_iff.2 List.nodup_range
  refine hsorted.imp₂ (fun i j hle hne => ?_) hnodup
  exact (rotLe_iff.1 hle).imp_right fun ⟨h, hij⟩ => ⟨h, lt_of_le_of_ne hij hne⟩

theorem bwtPrimary_lt {x : List Byte} (h : x ≠ []) : bwtPrimary x < x.length := by
  rw [← rotOrder_length x]
  exact List.idxOf_lt_length_of_mem (mem_rotOrder.2 (List.length_pos_iff.2 h))

/-- PRIMARY is the position of offset 0 (R171). -/
theorem rotOrder_bwtPrimary {x : List Byte} (h : x ≠ []) : (rotOrder x)[bwtPrimary x]? = some 0 :=
  List.getElem?_idxOf (mem_rotOrder.2 (List.length_pos_iff.2 h))

/-- The rotations in sorted order. -/
def sortedRotations (x : List Byte) : List (List Byte) := (rotOrder x).map (rot x)

theorem map_rot_sorted {x : List Byte} {τ : List Nat}
    (h : τ.Pairwise fun i j => rot x i < rot x j ∨ rot x i = rot x j) : (τ.map (rot x)).Pairwise (· ≤ ·) :=
  List.pairwise_map.2 (h.imp fun hij => hij.elim Std.le_of_lt fun heq => heq ▸ List.le_refl _)

theorem sortedRotations_sorted (x : List Byte) : (sortedRotations x).Pairwise (· ≤ ·) :=
  map_rot_sorted ((rotOrder_pairwise x).imp fun h => h.imp_right And.left)

/-- Whatever an order does with equal rotations, the sorted sequence of rotations is the same (R177). -/
theorem map_rot_eq_sortedRotations {x : List Byte} {τ : List Nat} (perm : τ.Perm (List.range x.length))
    (sorted : τ.Pairwise fun i j => rot x i < rot x j ∨ rot x i = rot x j) : τ.map (rot x) = sortedRotations x :=
  List.Perm.eq_of_pairwise (fun _ _ _ _ => List.le_antisymm) (map_rot_sorted sorted) (sortedRotations_sorted x)
    ((perm.trans (rotOrder_perm x).symm).map _)

theorem length_of_mem_sortedRotations {x w : List Byte} (h : w ∈ sortedRotations x) : w.length = x.length := by
  obtain ⟨i, hi, rfl⟩ := List.mem_map.1 h
  exact rot_length (mem_rotOrder.1 hi).le

/-- The bytes before the offsets of an order are the last bytes of their rotations (R171). -/
theorem map_getD_eq_map_lastByte {x : List Byte} {τ : List Nat} (perm : τ.Perm (List.range x.length)) :
    τ.map (fun i => x.getD ((i + x.length - 1) % x.length) 0) = (τ.map (rot x)).map lastByte := by
  rw [List.map_map]
  exact List.map_congr_left fun i hi => (lastByte_rot (List.mem_range.1 (perm.mem_iff.1 hi))).symm

theorem bwtBytes_eq_map_lastByte (x : List Byte) : bwtBytes x = (sortedRotations x).map lastByte :=
  map_getD_eq_map_lastByte (rotOrder_perm x)

theorem sortedRotations_perm {x : List Byte} (h : x ≠ []) : (sortedRotations x).Perm x.cyclicPermutations := by
  have hmap : sortedRotations x = (rotOrder x).map x.rotate :=
    List.map_congr_left fun i hi => rot_eq_rotate (mem_rotOrder.1 hi).le
  rw [hmap, ← map_rotate_range h]
  exact (rotOrder_perm x).map _

/-- Turning every rotation one to the right gives the same rotations again, in another order. -/
theorem map_shiftRight_perm {x : List Byte} (h : x ≠ []) :
    ((sortedRotations x).map shiftRight).Perm (sortedRotations x) := by
  have hshift : x.cyclicPermutations.map shiftRight = x.cyclicPermutations.rotate (x.length - 1) := by
    rw [← List.cyclicPermutations_rotate, ← map_rotate_range h, ← map_rotate_range (by simpa using h),
      List.map_map, List.length_rotate]
    refine List.map_congr_left fun i _ => ?_
    rw [Function.comp_apply, shiftRight_eq_rotate (by simpa using h), List.length_rotate, List.rotate_rotate,
      List.rotate_rotate, Nat.add_comm]
  have hperm := ((sortedRotations_perm h).map shiftRight).trans (hshift ▸ List.rotate_perm _ _)
  exact hperm.trans (sortedRotations_perm h).symm

/-! ### The next index of the reconstruction (R174) -/

theorem exists_append_of_getElem? {α : Type} {L : List α} {k : Nat} {a : α} (h : L[k]? = some a) :
    ∃ A B, L = A ++ a :: B ∧ A.length = k := by
  obtain ⟨hk, rfl⟩ := List.getElem?_eq_some_iff.1 h
  exact ⟨L.take k, L.drop (k + 1), by rw [List.getElem_cons_drop, List.take_append_drop],
    List.length_take_of_le hk.le⟩

theorem countP_beq_add_countP_lt (A : List Byte) (c : Byte) :
    A.countP (· == c) + A.countP (· < c) = A.countP (· ≤ c) := by
  induction A with
  | nil => rfl
  | cons a A ih =>
    simp only [List.countP_cons, ← ih]
    rcases Std.lt_trichotomy a c with h | rfl | h
    · simp [h, Std.le_of_lt h, Std.ne_of_lt h]; omega
    · simp [BitVec.lt_irrefl]; omega
    · simp [Std.not_le.2 h, Std.not_lt.2 (Std.le_of_lt h), (Std.ne_of_lt h).symm]

/-- rank + nlt counts the symbols before the position that are not greater, and those after it that are smaller. -/
theorem bwtNext_append (A B : List Byte) (c : Byte) :
    bwtNext (A ++ c :: B) A.length = A.countP (· ≤ c) + B.countP (· < c) := by
  have hc : (A ++ c :: B).getD A.length 0 = c := by simp
  rw [bwtNext, bwtRank, bwtNlt, hc, List.take_left, List.countP_append, List.countP_cons_of_neg (by simp),
    ← Nat.add_assoc, countP_beq_add_countP_lt]

/-- Every index stays below n (R174). -/
theorem bwtNext_lt {t : List Byte} {k : Nat} (h : k < t.length) : bwtNext t k < t.length := by
  obtain ⟨c, hc⟩ : ∃ c, t[k]? = some c := ⟨_, List.getElem?_eq_getElem h⟩
  obtain ⟨A, B, rfl, rfl⟩ := exists_append_of_getElem? hc
  have hA : A.countP (· ≤ c) ≤ A.length := List.countP_le_length
  have hB : B.countP (· < c) ≤ B.length := List.countP_le_length
  rw [bwtNext_append, List.length_append, List.length_cons]
  omega

/-! ### The last-to-first mapping (R176, R177) -/

/-- In a sorted list, what stands at position k is known from how many elements are below it. -/
theorem getElem?_of_countP {L : List (List Byte)} {v : List Byte} {k : Nat} (sorted : L.Pairwise (· ≤ ·))
    (below : L.countP (· < v) ≤ k) (upTo : k < L.countP (· ≤ v)) : L[k]? = some v := by
  obtain ⟨u, hu⟩ : ∃ u, L[k]? = some u :=
    ⟨_, List.getElem?_eq_getElem (lt_of_lt_of_le upTo List.countP_le_length)⟩
  obtain ⟨A, B, rfl, rfl⟩ := exists_append_of_getElem? hu
  obtain ⟨-, hB, hA⟩ := List.pairwise_append.1 sorted
  rw [List.countP_append] at below upTo
  rcases Std.lt_trichotomy u v with h | rfl | h
  · have hall : A.countP (· < v) = A.length := List.countP_eq_length.2 fun a ha =>
      decide_eq_true (Std.lt_of_le_of_lt (hA a ha u List.mem_cons_self) h)
    rw [hall, List.countP_cons_of_pos (by simpa using h)] at below
    omega
  · exact hu
  · have hnone : (u :: B).countP (· ≤ v) = 0 := List.countP_eq_zero.2 fun b hb => by
      have hub : u ≤ b := (List.mem_cons.1 hb).elim (fun e => e ▸ List.le_refl _) (List.rel_of_pairwise_cons hB)
      simpa using Std.lt_of_lt_of_le h hub
    have hle : A.countP (· ≤ v) ≤ A.length := List.countP_le_length
    omega

/-- Bytes after two sequences of one length do not change their order when it is strict. -/
theorem append_lt_append {u v : List Byte} (y z : List Byte) (hlen : u.length = v.length) (h : u < v) :
    u ++ y < v ++ z := by
  induction u generalizing v with
  | nil =>
    rw [List.length_nil] at hlen
    rw [List.length_eq_zero_iff.1 hlen.symm] at h
    exact absurd h (List.lt_irrefl _)
  | cons a u ih =>
    cases v with
    | nil => cases hlen
    | cons b v =>
      simp only [List.cons_append, List.cons_lt_cons_iff] at h ⊢
      exact h.imp_right fun ⟨hab, huv⟩ => ⟨hab, ih (Nat.succ.inj hlen) huv⟩

/-- Rotations in order are still in order without their last bytes. -/
theorem dropLast_le_dropLast {u v : List Byte} (hlen : u.length = v.length) (h : u ≤ v) :
    u.dropLast ≤ v.dropLast := by
  refine Std.not_lt.1 fun hlt => Std.not_lt.2 h ?_
  have hu : u ≠ [] := by rintro rfl; cases v <;> simp at hlen hlt
  have hv : v ≠ [] := by rintro rfl; exact hu (List.length_eq_zero_iff.1 hlen)
  rw [← dropLast_append_lastByte hu, ← dropLast_append_lastByte hv]
  exact append_lt_append _ _ (by simp [hlen]) hlt

section
variable {u v : List Byte}

theorem lastByte_le_of_shiftRight_lt (h : shiftRight u < shiftRight v) : lastByte u ≤ lastByte v :=
  (List.cons_lt_cons_iff.1 h).elim Std.le_of_lt fun ⟨heq, _⟩ => heq ▸ BitVec.le_refl _

theorem shiftRight_le_of_lastByte_lt (h : lastByte u < lastByte v) : shiftRight u ≤ shiftRight v :=
  List.cons_le_cons_iff.2 (.inl h)

variable (hlen : u.length = v.length) (huv : u ≤ v)
include hlen huv

theorem shiftRight_le_of_lastByte_le (h : lastByte u ≤ lastByte v) : shiftRight u ≤ shiftRight v :=
  by
  rcases Std.lt_trichotomy (lastByte u) (lastByte v) with hlt | heq | hgt
  · exact shiftRight_le_of_lastByte_lt hlt
  · exact List.cons_le_cons_iff.2 (.inr ⟨heq, dropLast_le_dropLast hlen huv⟩)
  · exact absurd hgt (Std.not_lt.2 h)

theorem lastByte_lt_of_shiftRight_lt (h : shiftRight v < shiftRight u) : lastByte v < lastByte u :=
  (List.cons_lt_cons_iff.1 h).resolve_right fun ⟨_, hlt⟩ => Std.not_lt.2 (dropLast_le_dropLast hlen huv) hlt

end

theorem bwtNext_map_lastByte (A B : List (List Byte)) (w : List Byte) :
    bwtNext ((A ++ w :: B).map lastByte) A.length =
      A.countP (lastByte · ≤ lastByte w) + B.countP (lastByte · < lastByte w) := by
  have hnext := bwtNext_append (A.map lastByte) (B.map lastByte) (lastByte w)
  rwa [List.length_map, ← List.map_cons, ← List.map_append, List.countP_map, List.countP_map] at hnext

/-- The index after the position of w lies where w, turned one to the right, belongs among all the elements so
turned: those before w with no greater last byte come first, then those after w with a smaller one. -/
theorem bwtNext_between {A B : List (List Byte)} {w : List Byte} (sorted : (A ++ w :: B).Pairwise (· ≤ ·))
    (hlen : ∀ u ∈ A ++ w :: B, u.length = w.length) :
    (A ++ w :: B).countP (shiftRight · < shiftRight w) ≤ bwtNext ((A ++ w :: B).map lastByte) A.length ∧
    bwtNext ((A ++ w :: B).map lastByte) A.length < (A ++ w :: B).countP (shiftRight · ≤ shiftRight w) := by
  obtain ⟨-, hB, hA⟩ := List.pairwise_append.1 sorted
  have hbefore (a) (ha : a ∈ A) : a.length = w.length ∧ a ≤ w :=
    ⟨hlen a (by simp [ha]), hA a ha w List.mem_cons_self⟩
  have hafter (b) (hb : b ∈ B) : w.length = b.length ∧ w ≤ b :=
    ⟨(hlen b (by simp [hb])).symm, List.rel_of_pairwise_cons hB hb⟩
  rw [bwtNext_map_lastByte, List.countP_append, List.countP_append, List.countP_cons_of_neg (by simp [List.lt_irrefl]),
    List.countP_cons_of_pos (by simp)]
  constructor
  · refine Nat.add_le_add (List.countP_mono_left fun a _ h => ?_) (List.countP_mono_left fun b hb h => ?_)
    · exact decide_eq_true (lastByte_le_of_shiftRight_lt (of_decide_eq_true h))
    · exact decide_eq_true (lastByte_lt_of_shiftRight_lt (hafter b hb).1 (hafter b hb).2 (of_decide_eq_true h))
  · refine Nat.lt_succ_of_le
      (Nat.add_le_add (List.countP_mono_left fun a ha h => ?_) (List.countP_mono_left fun b _ h => ?_))
    · exact decide_eq_true (shiftRight_le_of_lastByte_le (hbefore a ha).1 (hbefore a ha).2 (of_decide_eq_true h))
    · exact decide_eq_true (shiftRight_le_of_lastByte_lt (of_decide_eq_true h))

/-- The last-to-first mapping: from the position of a rotation the recurrence goes to a position of the rotation one
to the right of it, also when rotations are equal (R174, R177). -/
theorem sortedRotations_bwtNext {x w : List Byte} {q : Nat} (h : (sortedRotations x)[q]? = some w) :
    (sortedRotations x)[bwtNext (bwtBytes x) q]? = some (shiftRight w) := by
  have hmem := List.mem_of_getElem? h
  have hx : x ≠ [] := by rintro rfl; cases hmem
  have hsorted := sortedRotations_sorted x
  have hlen (u) (hu : u ∈ sortedRotations x) : u.length = w.length := by
    rw [length_of_mem_sortedRotations hu, length_of_mem_sortedRotations hmem]
  have hcount (p : List Byte → Bool) : (sortedRotations x).countP p = (sortedRotations x).countP (p ∘ shiftRight) := by
    rw [← (map_shiftRight_perm hx).countP_eq p, List.countP_map]
  have hbetween : (sortedRotations x).countP (shiftRight · < shiftRight w) ≤ bwtNext (bwtBytes x) q ∧
      bwtNext (bwtBytes x) q < (sortedRotations x).countP (shiftRight · ≤ shiftRight w) := by
    rw [bwtBytes_eq_map_lastByte]
    obtain ⟨A, B, hsplit, rfl⟩ := exists_append_of_getElem? h
    rw [hsplit] at hsorted hlen ⊢
    exact bwtNext_between hsorted hlen
  obtain ⟨below, upTo⟩ := hbetween
  exact getElem?_of_countP hsorted ((hcount (· < shiftRight w)).trans_le below)
    (upTo.trans_eq (hcount (· ≤ shiftRight w)).symm)

/-- Unwinding k steps from the position of a rotation places its last k bytes. -/
theorem bwtUnwind_bwtBytes {x w : List Byte} {k q : Nat} (out : List Byte) (hk : k ≤ x.length)
    (h : (sortedRotations x)[q]? = some w) : bwtUnwind (bwtBytes x) k q out = w.drop (x.length - k) ++ out := by
  have hlen := length_of_mem_sortedRotations (List.mem_of_getElem? h)
  induction k generalizing q w out with
  | zero => simp [bwtUnwind, ← hlen]
  | succ k ih =>
    have hnext := sortedRotations_bwtNext h
    have hw : w ≠ [] := List.length_pos_iff.1 (by omega)
    have hbyte : (bwtBytes x).getD q 0 = lastByte w := by
      simp [bwtBytes_eq_map_lastByte, h]
    have hstep : w.drop (x.length - (k + 1)) = (shiftRight w).drop (x.length - k) ++ [lastByte w] := by
      conv_lhs => rw [← dropLast_append_lastByte hw]
      rw [List.drop_append_of_le_length (by simp; omega), shiftRight,
        show x.length - k = x.length - (k + 1) + 1 by omega, List.drop_succ_cons]
    rw [bwtUnwind, hbyte, ih _ (by omega) hnext (length_of_mem_sortedRotations (List.mem_of_getElem? hnext)), hstep,
      List.append_assoc, List.singleton_append]

/-- The inverse from any position gives the rotation that stands there (R174). -/
theorem bwtInverse_bwtBytes {x : List Byte} {q i : Nat} (h : (rotOrder x)[q]? = some i) :
    bwtInverse (bwtBytes x) q = rot x i := by
  have hrot : (sortedRotations x)[q]? = some (rot x i) := by rw [sortedRotations, List.getElem?_map, h]; rfl
  rw [bwtInverse, bwtBytes_length, bwtUnwind_bwtBytes [] le_rfl hrot]
  simp

/-- Settles O23: the sorted rotations are the same list for every order, and the inverse gives the rotation at its
starting position. -/
theorem bwtTieBreakIndependence : Obligations.BwtTieBreakIndependence := by
  refine fun x => ⟨fun τ perm sorted => ?_, fun q i hq hi => (bwtInverse_bwtBytes hq).trans hi⟩
  rw [map_getD_eq_map_lastByte perm, map_rot_eq_sortedRotations perm sorted, bwtBytes_eq_map_lastByte]

/-! ### BWT_FWD and BWT_INV (R172, R175, R176) -/

theorem exec_bwtFwd_of_empty {s : State} (d : Fin 4) {r : Fin 4} (empty : s.buf r = []) :
    exec (.bwtFwd (idx d) (idx r)) s = .next ((s.scratch d).complete Opcode.bwtFwd (some .precond) false 0) :=
  runToBuf_error (refuseIf_raise (List.isEmpty_iff.2 empty))

theorem exec_bwtInv_of_empty {s : State} (d : Fin 4) {r : Fin 4} (empty : s.buf r = []) :
    exec (.bwtInv (idx d) (idx r)) s = .next ((s.scratch d).complete Opcode.bwtInv (some .precond) false 0) :=
  runToBuf_error (refuseIf_raise (List.isEmpty_iff.2 empty))

theorem exec_bwtInv_of_beyond {s : State} (d : Fin 4) {r : Fin 4} (nonempty : s.buf r ≠ [])
    (beyond : s.primary.toNat ≥ (s.buf r).length) :
    exec (.bwtInv (idx d) (idx r)) s = .next ((s.scratch d).complete Opcode.bwtInv (some .malformed) false 0) :=
  runToBuf_error ((refuseIf_pass (List.isEmpty_eq_false_iff.2 nonempty)).trans
    (refuseIf_raise (decide_eq_true beyond)))

/-- PRIMARY is below the length of a buffer, so it fits its register (R172). -/
theorem toNat_ofNat_bwtPrimary {s : State} {r : Fin 4} (nonempty : s.buf r ≠ []) :
    (BitVec.ofNat 32 (bwtPrimary (s.buf r))).toNat = bwtPrimary (s.buf r) :=
  Nat.mod_eq_of_lt ((bwtPrimary_lt nonempty).trans (buf_length_lt s r))

/-- A buffer that takes a block as long as another buffer's takes it whole, and its LEN (R11). -/
theorem buf_len_setBuf_of_length {s : State} (d : Fin 4) {r : Fin 4} {y : List Byte}
    (h : y.length = (s.buf r).length) : (s.setBuf d y).buf d = y ∧ (s.setBuf d y).len d = s.len r := by
  refine ⟨buf_setBuf_self s d (h ▸ buf_length_lt s r), ?_⟩
  rw [len_setBuf_self, h, buf_length, BitVec.ofNat_toNat, BitVec.setWidth_eq]

/-- What BWT_FWD leaves besides its registers (R172). -/
theorem keepsRest_setBuf_primary (s : State) (d : Fin 4) (y : List Byte) (q : Word) (op : Byte) (r : Word) :
    KeepsRest [d] [] s (State.complete { s.setBuf d y with primary := q } op none false r) where
  host := ⟨rfl, rfl, rfl, rfl, rfl, rfl, rfl⟩
  buffers i hi :=
    have hkeep := (keepsBut_setBuf s d y op none false r).rest.buffers i hi
    ⟨hkeep.len, hkeep.byte⟩
  streams _ _ := ⟨rfl, rfl, rfl⟩

/-- Settles O20: σ is `rotOrder`, and q the place of offset 0 in it. -/
theorem bwtFwdSortsRotations : Obligations.BwtFwdSortsRotations := by
  refine ⟨fun x i hi => ⟨rot_length hi.le, fun j hj => rot_getElem? hi.le hj⟩, fun s d r => ⟨rfl, fun empty => ?_, ?_⟩⟩
  · exact ⟨_, exec_bwtFwd_of_empty d empty, complete_fails _ _ _ _ _, keepsOnFailure_scratch s d _ _ _ _⟩
  · rintro x n rfl rfl nonempty
    obtain ⟨hbuf, hlen⟩ := buf_len_setBuf_of_length d (bwtBytes_length (s.buf r))
    exact ⟨_, rotOrder (s.buf r), bwtPrimary (s.buf r), exec_of_succeeds (.bwtFwd d r nonempty), rotOrder_perm _,
      rotOrder_pairwise _, bwtPrimary_lt nonempty, rotOrder_bwtPrimary nonempty, hbuf, hlen,
      toNat_ofNat_bwtPrimary nonempty, complete_completes _ _ _ _, rfl, ⟨rfl, rfl, rfl⟩,
      keepsRest_setBuf_primary s d _ _ _ _⟩

/-- The k-th index of the reconstruction from p (R174). -/
def bwtPos (t : List Byte) (p k : Nat) : Nat := (bwtNext t)^[k] p

theorem bwtPos_succ (t : List Byte) (p k : Nat) : bwtPos t p (k + 1) = bwtNext t (bwtPos t p k) :=
  Function.iterate_succ_apply' ..

theorem bwtPos_lt {t : List Byte} {p : Nat} (h : p < t.length) (k : Nat) : bwtPos t p k < t.length := by
  induction k with
  | zero => exact h
  | succ k ih => rw [bwtPos_succ]; exact bwtNext_lt ih

theorem bwtUnwind_eq (t : List Byte) (k p : Nat) (out : List Byte) :
    bwtUnwind t k p out = ((List.range k).map fun j => t.getD (bwtPos t p j) 0).reverse ++ out := by
  induction k generalizing p out with
  | zero => rfl
  | succ k ih =>
    rw [bwtUnwind, ih, List.range_succ_eq_map, List.map_cons, List.map_map, List.reverse_cons, List.append_assoc]
    rfl

/-- The symbols at the indices are placed right to left (R174). -/
theorem bwtInverse_getElem? {t : List Byte} {p k : Nat} (h : k < t.length) :
    (bwtInverse t p)[t.length - 1 - k]? = some (t.getD (bwtPos t p k) 0) := by
  rw [bwtInverse, bwtUnwind_eq, List.append_nil, List.getElem?_reverse (by simp; omega), List.length_map,
    List.length_range, List.getElem?_map, List.getElem?_range (by omega),
    show t.length - 1 - (t.length - 1 - k) = k by omega, Option.map_some]

/-- Settles O21: the positions are those of `bwtPos`. -/
theorem bwtInvReconstructs : Obligations.BwtInvReconstructs := by
  refine fun s d r => ⟨rfl, fun empty => ?_, fun nonempty beyond => ?_, ?_⟩
  · exact ⟨_, exec_bwtInv_of_empty d empty, complete_fails _ _ _ _ _, keepsOnFailure_scratch s d _ _ _ _⟩
  · exact ⟨_, exec_bwtInv_of_beyond d nonempty beyond, complete_fails _ _ _ _ _, keepsOnFailure_scratch s d _ _ _ _⟩
  · rintro x n rfl rfl inRange
    obtain ⟨hbuf, hlen⟩ := buf_len_setBuf_of_length d (bwtInverse_length (s.buf r) s.primary.toNat)
    refine ⟨_, bwtPos (s.buf r) s.primary.toNat, exec_of_succeeds (.bwtInv d r inRange), rfl, bwtPos_succ _ _,
      fun k hk => ⟨bwtPos_lt inRange k, ?_⟩, hlen, complete_completes _ _ _ _, keepsBut_setBuf s d _ _ _ _ _⟩
    exact (congrArg (·[_]?) hbuf).trans (bwtInverse_getElem? hk)

theorem buf_primary_of_exec_bwtFwd {s t : State} {d r : Fin 4} (nonempty : s.buf r ≠ [])
    (h : exec (.bwtFwd (idx d) (idx r)) s = .next t) :
    t.buf d = bwtBytes (s.buf r) ∧ t.primary.toNat = bwtPrimary (s.buf r) := by
  cases (exec_of_succeeds (.bwtFwd d r nonempty)).symm.trans h
  exact ⟨(buf_len_setBuf_of_length d (bwtBytes_length (s.buf r))).1, toNat_ofNat_bwtPrimary nonempty⟩

/-- Settles O22: PRIMARY is the position of offset 0, and the inverse from there gives rotation 0, the block. -/
theorem bwtRoundTrip : Obligations.BwtRoundTrip := by
  intro s t d r e nonempty hfwd
  obtain ⟨hbuf, hprimary⟩ := buf_primary_of_exec_bwtFwd nonempty hfwd
  have inRange : t.primary.toNat < (t.buf d).length := by
    rw [hbuf, hprimary, bwtBytes_length]; exact bwtPrimary_lt nonempty
  obtain ⟨hinv, -⟩ := buf_len_setBuf_of_length e (bwtInverse_length (t.buf d) t.primary.toNat)
  refine ⟨_, exec_of_succeeds (.bwtInv e d inRange), rfl, hinv.trans ?_⟩
  rw [hbuf, hprimary, bwtInverse_bwtBytes (rotOrder_bwtPrimary nonempty), rot_zero]

end Sys2Proof.Machine

/-! ## Proofs about the move-to-front commands (R190 to R193) -/

namespace Sys2Proof.Machine

/-! ### The MTF list (R190) -/

theorem moveToFront_append_cons {a b : List Byte} {c : Byte} (h : (a ++ c :: b).Nodup) :
    moveToFront (a ++ c :: b) c = c :: (a ++ b) := by
  have hc : c ∉ a := fun ha => (List.nodup_cons.1 (List.nodup_middle.1 h)).1 (List.mem_append_left b ha)
  rw [moveToFront, List.erase_append_right _ hc, List.erase_cons_head]

section
variable {M : List Byte} (h : M.Perm allBytes)
include h

/-- Every byte stands in the list, so moving any byte keeps it a permutation of 0..255 (R193). -/
theorem moveToFront_perm_allBytes (c : Byte) : (moveToFront M c).Perm allBytes :=
  (moveToFront_perm (h.mem_iff.2 (mem_allBytes c))).trans h

theorem foldl_moveToFront_perm_allBytes (x : List Byte) : (x.foldl moveToFront M).Perm allBytes := by
  induction x generalizing M with
  | nil => exact h
  | cons c x ih => exact ih (moveToFront_perm_allBytes h c)

/-- The rank of a byte is below 256, so it fits a byte (R191). -/
theorem toNat_ofNat_idxOf (c : Byte) : (BitVec.ofNat 8 (M.idxOf c)).toNat = M.idxOf c := by
  have hlt := List.idxOf_lt_length_of_mem (h.mem_iff.2 (mem_allBytes c))
  rw [h.length_eq, allBytes_length] at hlt
  exact Nat.mod_eq_of_lt hlt

theorem getElem?_rank (c : Byte) : M[(BitVec.ofNat 8 (M.idxOf c)).toNat]? = some c := by
  rw [toNat_ofNat_idxOf h, List.getElem?_idxOf (h.mem_iff.2 (mem_allBytes c))]

/-- Every byte value is a legal rank, because the list has 256 entries (R192). -/
theorem getElem?_eq_some_getD_of_rank (k : Byte) : M[k.toNat]? = some (M.getD k.toNat 0) := by
  have hlt : k.toNat < M.length := by rw [h.length_eq, allBytes_length]; exact k.isLt
  rw [List.getElem?_eq_getElem hlt, List.getD_eq_getElem _ _ hlt]

/-- Decoding a rank gives its byte back, so encoder and decoder move the same byte to the front (R193). -/
theorem mtfDecodeFrom_mtfEncodeFrom (x : List Byte) : mtfDecodeFrom M (mtfEncodeFrom M x) = x := by
  induction x generalizing M with
  | nil => rfl
  | cons c x ih =>
    have hbyte : M.getD (BitVec.ofNat 8 (M.idxOf c)).toNat 0 = c := by
      rw [List.getD_eq_getElem?_getD, getElem?_rank h, Option.getD_some]
    rw [mtfEncodeFrom, mtfDecodeFrom, hbyte, ih (moveToFront_perm_allBytes h c)]

end

theorem mtfDecode_mtfEncode (x : List Byte) : mtfDecode (mtfEncode x) = x :=
  mtfDecodeFrom_mtfEncodeFrom (List.Perm.refl _) x

/-! ### The bytes written (R191, R192) -/

/-- Output byte j is the rank of input byte j in the list after the input bytes before it. -/
theorem mtfEncodeFrom_getElem? {M x : List Byte} {j : Nat} {c : Byte} (h : x[j]? = some c) :
    (mtfEncodeFrom M x)[j]? = some (BitVec.ofNat 8 (((x.take j).foldl moveToFront M).idxOf c)) := by
  induction x generalizing M j with
  | nil => cases h
  | cons b x ih =>
    cases j with
    | zero => cases h; rfl
    | succ j => exact ih h

/-- Output byte j is the entry at input byte j of the list after the output bytes before it. -/
theorem mtfDecodeFrom_getElem? {M y : List Byte} {j : Nat} {k : Byte} (h : y[j]? = some k) :
    (mtfDecodeFrom M y)[j]? = some ((((mtfDecodeFrom M y).take j).foldl moveToFront M).getD k.toNat 0) := by
  induction y generalizing M j with
  | nil => cases h
  | cons r y ih =>
    cases j with
    | zero => cases h; rfl
    | succ j => exact ih h

/-! ### MTF_ENC and MTF_DEC (R191 to R193) -/

/-- Settles O24: output byte j is a rank in a permutation of 0..255, which therefore holds source byte j there. -/
theorem mtfEncWritesRanks : Obligations.MtfEncWritesRanks := by
  refine ⟨fun _ _ _ => moveToFront_append_cons, fun s d r => ?_⟩
  obtain ⟨hbuf, hlen⟩ := buf_len_setBuf_of_length d (mtfEncode_length (s.buf r))
  refine ⟨rfl, _, exec_of_succeeds (.mtfEnc d r), complete_completes _ _ _ _, hlen, fun j hj => ?_,
    keepsBut_setBuf s d _ _ _ _ _⟩
  have hsource := List.getElem?_eq_getElem hj
  exact ⟨_, _, hsource, (congrArg (·[j]?) hbuf).trans (mtfEncodeFrom_getElem? hsource),
    getElem?_rank (foldl_moveToFront_perm_allBytes (List.Perm.refl _) _) _⟩

/-- Settles O25: the list after the output bytes before j has an entry at every rank, and that entry is written. -/
theorem mtfDecReadsRanks : Obligations.MtfDecReadsRanks := by
  intro s d r
  obtain ⟨hbuf, hlen⟩ := buf_len_setBuf_of_length d (mtfDecode_length (s.buf r))
  refine ⟨rfl, _, exec_of_succeeds (.mtfDec d r), complete_completes _ _ _ _, hlen, fun j hj => ?_,
    keepsBut_setBuf s d _ _ _ _ _⟩
  have hrank := List.getElem?_eq_getElem hj
  refine ⟨_, _, hrank, (congrArg (·[j]?) hbuf).trans (mtfDecodeFrom_getElem? hrank), ?_⟩
  exact (congrArg (fun y => ((y.take j).foldl moveToFront allBytes)[_]?) hbuf).trans
    (getElem?_eq_some_getD_of_rank (foldl_moveToFront_perm_allBytes (List.Perm.refl _) _) _)

theorem buf_of_exec_mtfEnc {s t : State} {d r : Fin 4} (h : exec (.mtfEnc (idx d) (idx r)) s = .next t) :
    t.buf d = mtfEncode (s.buf r) := by
  cases (exec_of_succeeds (.mtfEnc d r)).symm.trans h
  exact (buf_len_setBuf_of_length d (mtfEncode_length (s.buf r))).1

/-- Settles O26: the list stays a permutation of the first one, and so the decoder undoes the encoder. -/
theorem mtfRoundTrip : Obligations.MtfRoundTrip := by
  refine ⟨rfl, foldl_moveToFront_perm_allBytes (List.Perm.refl _), fun s t d r e henc => ?_⟩
  obtain ⟨hdec, -⟩ := buf_len_setBuf_of_length e (mtfDecode_length (t.buf d))
  refine ⟨_, exec_of_succeeds (.mtfDec e d), rfl, hdec.trans ?_⟩
  rw [buf_of_exec_mtfEnc henc, mtfDecode_mtfEncode]

end Sys2Proof.Machine

/-! ## Proofs about the run-length commands (R200 to R205) -/

namespace Sys2Proof.Machine

/-! ### The maximal runs, and induction along them (R201) -/

theorem head?_runs (x : List Byte) : (runs x).head?.map Prod.fst = x.head? := by
  cases x with
  | nil => rfl
  | cons c x =>
    unfold runs
    split
    · split <;> rfl
    · rfl

theorem runs_cons_of_ne {c : Byte} {y : List Byte} (h : y.head? ≠ some c) : runs (c :: y) = (c, 1) :: runs y := by
  rw [← head?_runs] at h
  rw [runs]
  split
  · next d L rest hruns =>
    rw [hruns] at h ⊢
    exact if_neg fun hcd => h (congrArg some hcd.symm)
  · next hruns => rw [hruns]

theorem runs_cons_of_runs {c : Byte} {L : Nat} {x : List Byte} {rest : List (Byte × Nat)}
    (h : runs x = (c, L) :: rest) : runs (c :: x) = (c, L + 1) :: rest := by
  rw [runs, h]
  exact if_pos rfl

theorem runs_replicate_append {c : Byte} {y : List Byte} (h : y.head? ≠ some c) (L : Nat) :
    runs (List.replicate (L + 1) c ++ y) = (c, L + 1) :: runs y := by
  induction L with
  | zero => exact runs_cons_of_ne h
  | succ L ih => exact runs_cons_of_runs ih

theorem exists_run (c : Byte) (x : List Byte) :
    ∃ L y, 0 < L ∧ y.head? ≠ some c ∧ c :: x = List.replicate L c ++ y := by
  induction x with
  | nil => exact ⟨1, [], by decide, nofun, rfl⟩
  | cons b x ih =>
    by_cases hb : b = c
    · subst hb
      obtain ⟨L, y, -, hy, hx⟩ := ih
      exact ⟨L + 1, y, L.succ_pos, hy, congrArg (b :: ·) hx⟩
    · exact ⟨1, b :: x, by decide, fun h => hb (Option.some.inj h), rfl⟩

/-- The count byte's value for a run of L copies, L >= 4 (R201). -/
def runCount (L : Nat) : Nat := min (L - 4) 255

theorem runCount_le_255 (L : Nat) : runCount L ≤ 255 := Nat.min_le_right _ _

theorem copies_add_runCount {L : Nat} (h : 4 ≤ L) : 4 + runCount L + (L - 4 - runCount L) = L := by
  have hle : runCount L ≤ L - 4 := Nat.min_le_left _ _
  omega

/-- Induction along the groups that R201 encodes: up to three copies that end a run, or four copies and the ones
counted after them. -/
theorem runInduction {P : List Byte → Prop} (nil : P [])
    (short : ∀ (c : Byte) (L : Nat) (y : List Byte), 0 < L → L < 4 → y.head? ≠ some c → P y →
      P (List.replicate L c ++ y))
    (long : ∀ (c : Byte) (L : Nat) (y : List Byte), 4 ≤ L → y.head? ≠ some c →
      P (List.replicate (L - 4 - runCount L) c ++ y) → P (List.replicate L c ++ y)) (x : List Byte) : P x := by
  induction hn : x.length using Nat.strongRecOn generalizing x with
  | ind n ih =>
    cases x with
    | nil => exact nil
    | cons c x =>
      obtain ⟨L, y, hL, hy, hx⟩ := exists_run c x
      rw [hx] at hn ⊢
      rw [List.length_append, List.length_replicate] at hn
      by_cases h4 : L < 4
      · exact short c L y hL h4 hy (ih _ (by omega) y rfl)
      · have shorter : (List.replicate (L - 4 - runCount L) c ++ y).length < n := by
          rw [List.length_append, List.length_replicate]; omega
        exact long c L y (not_lt.1 h4) hy (ih _ shorter _ rfl)

/-! ### The encoder (R201) -/

section
variable {L : Nat} (c : Byte) (fuel : Nat)

theorem rleRun_succ_of_lt (h : L < 4) : rleRun c (fuel + 1) L = List.replicate L c := if_neg (not_le.2 h)

theorem rleRun_succ_of_ge (h : 4 ≤ L) : rleRun c (fuel + 1) L =
    List.replicate 4 c ++ [BitVec.ofNat 8 (runCount L)] ++ rleRun c fuel (L - 4 - runCount L) := if_pos h

/-- Any fuel that covers the run gives the same encoding. -/
theorem rleRun_eq_of_le {fuel : Nat} (h : L ≤ fuel) : rleRun c fuel L = rleRun c L L := by
  induction fuel using Nat.strongRecOn generalizing L with
  | ind fuel ih =>
    obtain _ | L := L
    · cases fuel <;> rfl
    · obtain ⟨fuel, rfl⟩ := Nat.exists_eq_succ_of_ne_zero (show fuel ≠ 0 by omega)
      by_cases h4 : 4 ≤ L + 1
      · rw [rleRun_succ_of_ge c fuel h4, rleRun_succ_of_ge c L h4, ih fuel (by omega) (by omega),
          ih L (by omega) (by omega)]
      · rw [rleRun_succ_of_lt c fuel (not_le.1 h4), rleRun_succ_of_lt c L (not_le.1 h4)]

end

theorem rleRun_short {L : Nat} (c : Byte) (h : L < 4) : rleRun c L L = List.replicate L c := by
  cases L with
  | zero => rfl
  | succ L => exact rleRun_succ_of_lt c L h

theorem rleRun_long {L : Nat} (c : Byte) (h : 4 ≤ L) :
    rleRun c L L = List.replicate 4 c ++ [BitVec.ofNat 8 (runCount L)] ++
      rleRun c (L - 4 - runCount L) (L - 4 - runCount L) := by
  rw [← rleRun_eq_of_le c (L.le_succ), rleRun_succ_of_ge c L h, rleRun_eq_of_le c (by omega)]

section
variable {c : Byte} {L : Nat} {y : List Byte} (h : y.head? ≠ some c)
include h

theorem rle_run : rle (List.replicate L c ++ y) = rleRun c L L ++ rle y := by
  cases L with
  | zero => rfl
  | succ L => rw [rle, runs_replicate_append h, List.flatMap_cons, rle]

theorem rle_short (hL : L < 4) : rle (List.replicate L c ++ y) = List.replicate L c ++ rle y := by
  rw [rle_run h, rleRun_short c hL]

theorem rle_long (hL : 4 ≤ L) :
    rle (List.replicate L c ++ y) = List.replicate 4 c ++ [BitVec.ofNat 8 (runCount L)] ++
      rle (List.replicate (L - 4 - runCount L) c ++ y) := by
  rw [rle_run h, rle_run h, rleRun_long c hL, List.append_assoc]

end

/-- Settles O27: a run of 4 or more and a shorter one are the two cases of `rleRun`. -/
theorem rleEncodesRuns : Obligations.RleEncodesRuns := by
  refine ⟨rfl, fun c L y _ h => ?_⟩
  split
  · next hL => exact rle_long h hL
  · next hL => exact rle_short h (not_le.1 hL)

/-- A run of exactly 4 grows by a quarter, and no other grows by more (R202). -/
theorem rle_length_le (x : List Byte) : 4 * (rle x).length ≤ 5 * x.length := by
  induction x using runInduction with
  | nil => exact le_rfl
  | short c L y _ hL h ih =>
    simp only [rle_short h hL, List.length_append, List.length_replicate]
    omega
  | long c L y hL h ih =>
    have hcopies := copies_add_runCount hL
    simp only [rle_long h hL, List.length_append, List.length_replicate, List.length_singleton] at ih ⊢
    omega

/-! ### The decoder (R203, R204) -/

section
variable {p c : Byte} {n : Nat} {y : List Byte}

/-- A literal that does not complete a group of four is copied. -/
theorem unrleFrom_literal {m : Nat} (count : (if n > 0 ∧ c = p then n + 1 else 1) = m) (h : m ≠ 4) :
    unrleFrom p n (c :: y) = (unrleFrom c m y).map (c :: ·) := by
  subst count
  rw [unrleFrom.eq_def]
  exact if_neg h

/-- The fourth equal literal takes the count byte with it, and counting restarts. -/
theorem unrleFrom_fourth (k : Byte) :
    unrleFrom c 3 (c :: k :: y) = (unrleFrom c 0 y).map fun x => c :: (List.replicate k.toNat c ++ x) :=
  if_pos (if_pos ⟨by decide, rfl⟩)

theorem unrleFrom_fourth_end : unrleFrom c 3 [c] = .error .malformed :=
  if_pos (if_pos ⟨by decide, rfl⟩)

/-- Nothing is counted before the start, after a count byte, or before a different byte. -/
theorem unrleFrom_restart (h : n = 0 ∨ y.head? ≠ some p) : unrleFrom p n y = unrle y := by
  cases y with
  | nil => rfl
  | cons b y =>
    have hrun : ¬ (n > 0 ∧ b = p) := by
      rintro ⟨hn, rfl⟩
      exact h.elim hn.ne' fun hne => hne rfl
    exact (unrleFrom_literal (if_neg hrun) (by decide)).trans
      (unrleFrom_literal (if_neg fun ⟨hpos, _⟩ => lt_irrefl 0 hpos) (by decide)).symm

/-- Up to three equal literals are copied and counted. -/
theorem unrle_replicate_append (h : n < 4) :
    unrle (List.replicate n c ++ y) = (unrleFrom c n y).map (List.replicate n c ++ ·) := by
  induction n generalizing y with
  | zero =>
    rw [unrleFrom_restart (.inl rfl)]
    exact (LawfulFunctor.id_map (unrle y)).symm
  | succ n ih =>
    have count : (if n > 0 ∧ c = c then n + 1 else 1) = n + 1 := by
      cases n <;> simp
    rw [List.replicate_succ', List.append_assoc, List.singleton_append, ih (by omega),
      unrleFrom_literal count (by omega)]
    cases unrleFrom c (n + 1) y <;> simp [Except.map]

end

theorem unrle_short {c : Byte} {n : Nat} {y : List Byte} (hn : n < 4) (h : y.head? ≠ some c) :
    unrle (List.replicate n c ++ y) = (unrle y).map (List.replicate n c ++ ·) := by
  rw [unrle_replicate_append hn, unrleFrom_restart (.inr h)]

theorem unrle_counted (c k : Byte) (y : List Byte) :
    unrle (List.replicate 4 c ++ k :: y) = (unrle y).map (List.replicate (4 + k.toNat) c ++ ·) := by
  have h := unrle_replicate_append (c := c) (n := 3) (y := c :: k :: y) (by decide)
  rw [unrleFrom_fourth, unrleFrom_restart (.inl rfl)] at h
  refine h.trans ?_
  rw [List.replicate_add]
  cases unrle y <;> rfl

theorem unrle_four_end (c : Byte) : unrle (List.replicate 4 c) = .error .malformed := by
  have h := unrle_replicate_append (c := c) (n := 3) (y := [c]) (by decide)
  rwa [unrleFrom_fourth_end] at h

theorem error_of_bind {α β : Type} {x : Except CmdError α} {f : α → Except CmdError β} {e : CmdError}
    (h : (x >>= f) = .error e) (hf : ∀ a, f a ≠ .error e) : x = .error e := by
  cases x with
  | error c => exact congrArg _ (Except.error.inj h)
  | ok a => exact absurd h (hf a)

theorem unrleFrom_error {p : Byte} {n : Nat} {y : List Byte} {e : CmdError} (h : unrleFrom p n y = .error e) :
    e = .malformed := by
  fun_induction unrleFrom p n y with
  | case1 => cases h
  | case2 => cases h; rfl
  | case3 p n c run fourth k y ih => exact ih (error_of_bind h nofun)
  | case4 p n c y run other ih => exact ih (error_of_bind h nofun)

/-! ### The decoder undoes the encoder (R205) -/

theorem head?_rle (x : List Byte) : (rle x).head? = x.head? := by
  induction x using runInduction with
  | nil => rfl
  | short c L y hpos hL h _ =>
    obtain ⟨L, rfl⟩ := Nat.exists_eq_succ_of_ne_zero hpos.ne'
    rw [rle_short h hL]; rfl
  | long c L y hL h _ =>
    obtain ⟨L, rfl⟩ := Nat.exists_eq_succ_of_ne_zero (show L ≠ 0 by omega)
    rw [rle_long h hL]; rfl

theorem toNat_ofNat_runCount (L : Nat) : (BitVec.ofNat 8 (runCount L)).toNat = runCount L :=
  Nat.mod_eq_of_lt (Nat.lt_succ_of_le (runCount_le_255 L))

theorem unrle_rle (x : List Byte) : unrle (rle x) = .ok x := by
  induction x using runInduction with
  | nil => rfl
  | short c L y _ hL h ih =>
    rw [rle_short h hL, unrle_short hL (by rwa [head?_rle]), ih]; rfl
  | long c L y hL h ih =>
    rw [rle_long h hL, List.append_assoc, List.singleton_append, unrle_counted, ih, toNat_ofNat_runCount, Except.map,
      ← List.append_assoc, ← List.replicate_add, copies_add_runCount hL]

/-- Bytes that decode to z are the encoding of nothing but z. -/
theorem rle_ne_of_unrle {x y z : List Byte} (h : unrle y = .ok z) (hz : rle z ≠ y) : rle x ≠ y := by
  rintro rfl
  cases (unrle_rle x).symm.trans h
  exact hz rfl

/-! ### RLE_ENC and RLE_DEC (R202, R203, R205) -/

section
variable {s : State} {r : Fin 4} (d : Fin 4)

/-- A buffer takes every block that fits its capacity, and its LEN (R11, R40). -/
theorem buf_len_setBuf_of_fits {x : List Byte} (fits : x.length ≤ s.bufBytes.toNat) :
    (s.setBuf d x).buf d = x ∧ ((s.setBuf d x).len d).toNat = x.length := by
  have hbuf := buf_setBuf_self s d (lt_of_le_of_lt fits s.bufBytes.isLt)
  exact ⟨hbuf, by rw [← buf_length, hbuf]⟩

theorem exec_rleEnc_of_full (full : (rle (s.buf r)).length > s.bufBytes.toNat) :
    exec (.rleEnc (idx d) (idx r)) s = .next ((s.scratch d).complete Opcode.rleEnc (some .bufFull) false 0) :=
  runToBuf_error (refuseIf_raise (decide_eq_true full))

theorem exec_rleDec_of_error {c : CmdError} (failed : unrle (s.buf r) = .error c) :
    exec (.rleDec (idx d) (idx r)) s = .next ((s.scratch d).complete Opcode.rleDec (some c) false 0) :=
  runToBuf_error (by rw [failed]; rfl)

theorem exec_rleDec_of_full {x : List Byte} (expanded : unrle (s.buf r) = .ok x)
    (full : x.length > s.bufBytes.toNat) :
    exec (.rleDec (idx d) (idx r)) s = .next ((s.scratch d).complete Opcode.rleDec (some .bufFull) false 0) :=
  runToBuf_error (by rw [expanded]; exact refuseIf_raise (decide_eq_true full))

end

/-- Settles O28: the success rule writes `rle` of the source, or the check of its length refuses it. -/
theorem rleEncWritesRuns : Obligations.RleEncWritesRuns := by
  intro s d r
  have hbound := rle_length_le (s.buf r)
  refine ⟨rfl, by omega, fun full => ?_, fun fits => ?_⟩
  · exact ⟨_, exec_rleEnc_of_full d full, complete_fails _ _ _ _ _, keepsOnFailure_scratch s d _ _ _ _⟩
  · obtain ⟨hbuf, hlen⟩ := buf_len_setBuf_of_fits d fits
    exact ⟨_, exec_of_succeeds (.rleEnc d r fits), complete_completes _ _ _ _, hbuf, hlen,
      keepsBut_setBuf s d _ _ _ _ _⟩

/-- Settles O29: the groups are read by the rules of `unrleFrom`, and the command checks the result's length only
after `unrle` has raised no error. -/
theorem rleDecExpandsRuns : Obligations.RleDecExpandsRuns := by
  refine ⟨rfl, fun _ _ _ _ hk h => unrle_short hk h, unrle_counted, unrle_four_end, fun s d r => ⟨rfl, ?_, ?_, ?_⟩⟩
  · intro c failed
    obtain rfl := unrleFrom_error failed
    exact ⟨rfl, _, exec_rleDec_of_error d failed, complete_fails _ _ _ _ _, keepsOnFailure_scratch s d _ _ _ _⟩
  · intro x expanded full
    exact ⟨_, exec_rleDec_of_full d expanded full, complete_fails _ _ _ _ _, keepsOnFailure_scratch s d _ _ _ _⟩
  · intro x expanded fits
    obtain ⟨hbuf, hlen⟩ := buf_len_setBuf_of_fits d fits
    exact ⟨_, exec_of_succeeds (.rleDec d r x expanded fits), complete_completes _ _ _ _, hbuf, hlen,
      keepsBut_setBuf s d _ _ _ _ _⟩

theorem buf_of_exec_rleEnc {s t : State} {d r : Fin 4} (h : exec (.rleEnc (idx d) (idx r)) s = .next t)
    (hok : t.err = false) : t.buf d = rle (s.buf r) ∧ t.bufBytes = s.bufBytes := by
  by_cases fits : (rle (s.buf r)).length ≤ s.bufBytes.toNat
  · cases (exec_of_succeeds (.rleEnc d r fits)).symm.trans h
    exact ⟨(buf_len_setBuf_of_fits d fits).1, rfl⟩
  · cases (exec_rleEnc_of_full d (not_le.1 fits)).symm.trans h
    cases hok

/-- Settles O30: the decoder reads each group the encoder wrote; so the bytes of the counterexample, which decode to a
run of eight, could only be that run's encoding, whose count byte is 4. -/
theorem rleRoundTrip : Obligations.RleRoundTrip := by
  have hdecodes : unrle [7, 7, 7, 7, 0, 7, 7, 7, 7, 0] = .ok (List.replicate 8 7) := by decide
  refine ⟨unrle_rle, fun s t d r e henc hok fits => ?_, ⟨_, hdecodes⟩, fun x => ?_⟩
  · obtain ⟨hbuf, hcap⟩ := buf_of_exec_rleEnc henc hok
    have expanded : unrle (t.buf d) = .ok (s.buf r) := by rw [hbuf, unrle_rle]
    rw [← hcap] at fits
    exact ⟨_, exec_of_succeeds (.rleDec e d _ expanded fits), rfl, (buf_len_setBuf_of_fits e fits).1⟩
  · exact rle_ne_of_unrle hdecodes (by decide)

end Sys2Proof.Machine

/-! ## Proofs about the Huffman commands (R216 to R226) -/

namespace Sys2Proof.Machine

/-! ### What Build keeps of the counts (R217, R219) -/

/-- A measure that adds up over the children of every new node adds up over the whole of a merge. -/
theorem mergeTrees_additive {α : Type} [AddCommMonoid α] {f : HuffTree → α}
    (hf : ∀ a b, f (a.join b) = f a + f b) {fuel : Nat} {L : List HuffTree} {t : HuffTree}
    (h : mergeTrees fuel L = some t) : f t = (L.map f).sum := by
  induction fuel, L using mergeTrees.induct with
  | case1 => simp [mergeTrees] at h
  | case2 fuel u =>
    obtain rfl : u = t := by simpa [mergeTrees] using h
    simp
  | case3 => simp [mergeTrees] at h
  | case4 fuel a b L ih =>
    rw [ih h, ((insertNode_perm (a.join b) L).map f).sum_eq, List.map_cons, List.sum_cons, hf]
    simp [add_assoc]

/-- The symbols with a nonzero count (R215), in ascending order. -/
def countedSymbols (F : Byte → Word) : List Byte := allBytes.filter fun v => F v != 0

theorem mem_countedSymbols {F : Byte → Word} {v : Byte} : v ∈ countedSymbols F ↔ F v ≠ 0 := by
  simp [countedSymbols, mem_allBytes]

theorem countedSymbols_nodup (F : Byte → Word) : (countedSymbols F).Nodup := allBytes_nodup.filter _

theorem sortedLeaves_perm (F : Byte → Word) :
    (sortedLeaves F).Perm ((countedSymbols F).map fun v => .leaf v (F v).toNat) :=
  List.perm_insertionSort _ _

section
variable {F : Byte → Word} {t : HuffTree} (built : buildTree F = some t)
include built

theorem buildTree_additive {α : Type} [AddCommMonoid α] {f : HuffTree → α}
    (hf : ∀ a b, f (a.join b) = f a + f b) :
    f t = ((countedSymbols F).map fun v => f (.leaf v (F v).toNat)).sum := by
  rw [mergeTrees_additive hf built, ((sortedLeaves_perm F).map f).sum_eq, List.map_map]
  rfl

theorem buildTree_leaves : t.leaves = (countedSymbols F).length := by
  rw [buildTree_additive built join_leaves]
  simp [HuffTree.leaves]

end

/-! ### The symbols and the paths of a tree (R220) -/

/-- The symbols at the leaves of a tree, from left to right. -/
def HuffTree.symbols : HuffTree → List Byte
  | .leaf u _ => [u]
  | .node l r _ => l.symbols ++ r.symbols

@[simp] theorem symbols_leaf (u : Byte) (w : Nat) : (HuffTree.leaf u w).symbols = [u] := rfl
@[simp] theorem symbols_node (l r : HuffTree) (w : Nat) :
    (HuffTree.node l r w).symbols = l.symbols ++ r.symbols := rfl

/-- The leaves of a built tree are the symbols with a nonzero count, each once. -/
theorem buildTree_symbols {F : Byte → Word} {t : HuffTree} (built : buildTree F = some t) :
    t.symbols.Perm (countedSymbols F) := by
  have hadd := buildTree_additive (f := fun t => (t.symbols : Multiset Byte)) built fun _ _ => rfl
  rw [← Multiset.coe_eq_coe, hadd]
  exact Multiset.sum_map_singleton (countedSymbols F : Multiset Byte)

theorem buildTree_symbols_nodup {F : Byte → Word} {t : HuffTree} (built : buildTree F = some t) :
    t.symbols.Nodup :=
  (buildTree_symbols built).nodup_iff.2 (countedSymbols_nodup F)

section
variable {l r : HuffTree} {w : Nat} {v : Byte} {p : List Bool}

theorem path_leaf (u : Byte) : (HuffTree.leaf u w).path v = if u = v then some [] else none := rfl

theorem path_node_of_left (h : l.path v = some p) : (HuffTree.node l r w).path v = some (false :: p) := by
  simp [HuffTree.path, h]

theorem path_node_of_not_left (h : l.path v = none) :
    (HuffTree.node l r w).path v = (r.path v).map (true :: ·) := by
  simp [HuffTree.path, h]

end

theorem path_eq_none_iff {t : HuffTree} {v : Byte} : t.path v = none ↔ v ∉ t.symbols := by
  induction t with
  | leaf u w => simp [path_leaf, eq_comm]
  | node l r w hl hr =>
    cases h : l.path v with
    | none => simp [path_node_of_not_left h, hl.1 h, hr]
    | some p =>
      have hmem : v ∈ l.symbols := not_not.1 (mt hl.2 (Option.ne_none_iff_exists'.2 ⟨p, h⟩))
      simp [path_node_of_left h, hmem]

theorem mem_symbols_of_path {t : HuffTree} {v : Byte} {p : List Bool} (h : t.path v = some p) : v ∈ t.symbols :=
  not_not.1 (mt path_eq_none_iff.2 (Option.ne_none_iff_exists'.2 ⟨p, h⟩))

theorem code_leaf (u v : Byte) (w : Nat) : (HuffTree.leaf u w).code v = if u = v then some [false] else none := rfl

theorem code_node (l r : HuffTree) (w : Nat) (v : Byte) :
    (HuffTree.node l r w).code v = (HuffTree.node l r w).path v := rfl

theorem code_eq_none_iff {t : HuffTree} {v : Byte} : t.code v = none ↔ v ∉ t.symbols := by
  cases t with
  | leaf u w => simp [code_leaf, eq_comm]
  | node l r w => exact path_eq_none_iff

/-- The symbols with a code are those with a nonzero count. -/
theorem code_eq_none_iff_of_built {F : Byte → Word} {t : HuffTree} (built : buildTree F = some t) {v : Byte} :
    t.code v = none ↔ F v = 0 := by
  rw [code_eq_none_iff, (buildTree_symbols built).mem_iff, mem_countedSymbols, not_not]

/-! ### Paths as edge sequences (R220) -/

@[simp] theorem followEdges_nil (t : HuffTree) : followEdges t [] = some t := by cases t <;> rfl

@[simp] theorem followEdges_leaf_cons (v : Byte) (w : Nat) (b : Bool) (p : List Bool) :
    followEdges (.leaf v w) (b :: p) = none := rfl

@[simp] theorem followEdges_node_cons (l r : HuffTree) (w : Nat) (b : Bool) (p : List Bool) :
    followEdges (.node l r w) (b :: p) = followEdges (if b then r else l) p := rfl

theorem followEdges_append (t : HuffTree) (p q : List Bool) :
    followEdges t (p ++ q) = (followEdges t p).bind fun n => followEdges n q := by
  induction p generalizing t with
  | nil => simp
  | cons b p ih =>
    cases t with
    | leaf v w => rfl
    | node l r w => exact ih _

/-- Each edge leaves at least one leaf aside. -/
theorem followEdges_leaves_le {t n : HuffTree} {p : List Bool} (h : followEdges t p = some n) :
    p.length + n.leaves ≤ t.leaves := by
  induction p generalizing t with
  | nil =>
    obtain rfl : t = n := by simpa using h
    simp
  | cons b p ih =>
    cases t with
    | leaf v w => cases h
    | node l r w =>
      have hchild := ih h
      have := l.leaves_pos
      have := r.leaves_pos
      rw [HuffTree.leaves, List.length_cons]
      cases b
      · rw [if_neg Bool.false_ne_true] at hchild; omega
      · rw [if_pos rfl] at hchild; omega

theorem eq_nil_of_followEdges_self {t : HuffTree} {p : List Bool} (h : followEdges t p = some t) : p = [] :=
  List.length_eq_zero_iff.1 (by have := followEdges_leaves_le h; omega)

theorem followEdges_of_path {t : HuffTree} {v : Byte} {p : List Bool} (h : t.path v = some p) :
    ∃ w, followEdges t p = some (.leaf v w) := by
  induction t generalizing p with
  | leaf u w =>
    rw [path_leaf] at h
    split at h
    · next huv => cases h; exact ⟨w, by rw [huv, followEdges_nil]⟩
    · cases h
  | node l r w hl hr =>
    cases hleft : l.path v with
    | some q =>
      cases (path_node_of_left hleft).symm.trans h
      exact hl hleft
    | none =>
      obtain ⟨q, hq, rfl⟩ := Option.map_eq_some_iff.1 ((path_node_of_not_left hleft).symm.trans h)
      exact hr hq

theorem mem_symbols_of_followEdges {t : HuffTree} {v : Byte} {w : Nat} {p : List Bool}
    (h : followEdges t p = some (.leaf v w)) : v ∈ t.symbols := by
  induction t generalizing p with
  | leaf u w' => cases p <;> simp_all
  | node l r w' hl hr =>
    match p with
    | [] => cases h
    | false :: p => exact List.mem_append_left _ (hl h)
    | true :: p => exact List.mem_append_right _ (hr h)

theorem path_of_followEdges {t : HuffTree} (distinct : t.symbols.Nodup) {v : Byte} {w : Nat} {p : List Bool}
    (h : followEdges t p = some (.leaf v w)) : t.path v = some p := by
  induction t generalizing p with
  | leaf u w' =>
    cases p with
    | nil => cases h; simp [path_leaf]
    | cons b p => cases h
  | node l r w' hl hr =>
    obtain ⟨hnl, hnr, hdisj⟩ := List.nodup_append'.1 distinct
    match p with
    | [] => cases h
    | false :: p => exact path_node_of_left (hl hnl h)
    | true :: p =>
      have hright := hr hnr h
      have hleft := path_eq_none_iff.2 (hdisj.symm (mem_symbols_of_followEdges h))
      simp [path_node_of_not_left hleft, hright]

theorem path_eq_some_iff {t : HuffTree} (distinct : t.symbols.Nodup) {v : Byte} {p : List Bool} :
    t.path v = some p ↔ ∃ w, followEdges t p = some (.leaf v w) :=
  ⟨followEdges_of_path, fun ⟨_, h⟩ => path_of_followEdges distinct h⟩

/-! ### The codes (R220) -/

theorem two_le_leaves_node (l r : HuffTree) (w : Nat) : 2 ≤ (HuffTree.node l r w).leaves :=
  Nat.add_le_add l.leaves_pos r.leaves_pos

/-- Settles O34: in a tree of two or more leaves `code` is `path`, the edges followed to a leaf. -/
theorem codesFollowPaths : Obligations.CodesFollowPaths := by
  intro F t built
  refine ⟨fun v => ?_, buildTree_leaves built, fun v p => code_length_bounds built, fun many v p => ?_, ?_⟩
  · rw [Option.isSome_iff_ne_none, ne_eq, code_eq_none_iff_of_built built]
  · cases t with
    | leaf u w => exact absurd many (Nat.not_succ_le_self 1)
    | node l r w => exact path_eq_some_iff (buildTree_symbols_nodup built)
  · rintro u w rfl v p
    simp [code_leaf, eq_comm]

/-! ### The encoder (R222) -/

theorem encodeBytes_cons_eq_some {t : HuffTree} {c : Byte} {x : List Byte} {y : List Bool} :
    encodeBytes t (c :: x) = some y ↔ ∃ p z, t.code c = some p ∧ encodeBytes t x = some z ∧ p ++ z = y := by
  rw [encodeBytes]
  cases t.code c <;> cases encodeBytes t x <;> simp

theorem encodeBytes_eq_some_iff {t : HuffTree} {x : List Byte} {y : List Bool} :
    encodeBytes t x = some y ↔ (∀ c ∈ x, t.code c ≠ none) ∧ y = x.flatMap fun c => (t.code c).getD [] := by
  induction x generalizing y with
  | nil => simp [encodeBytes, eq_comm]
  | cons c x ih =>
    rw [encodeBytes_cons_eq_some]
    constructor
    · rintro ⟨p, z, hp, hz, rfl⟩
      obtain ⟨hx, rfl⟩ := ih.1 hz
      simp_all
    · rintro ⟨hcoded, rfl⟩
      obtain ⟨hc, hx⟩ := List.forall_mem_cons.1 hcoded
      obtain ⟨p, hp⟩ := Option.ne_none_iff_exists'.1 hc
      exact ⟨p, _, hp, ih.2 ⟨hx, rfl⟩, by simp [hp]⟩

theorem encodeBytes_eq_none_iff {t : HuffTree} {x : List Byte} :
    encodeBytes t x = none ↔ ∃ c ∈ x, t.code c = none := by
  rw [← not_iff_not, ← ne_eq, Option.ne_none_iff_exists']
  simp [encodeBytes_eq_some_iff]

/-! ### The walk (R224) -/

theorem ok_map_cons_iff {v : Byte} {r : Except CmdError (List Byte)} {x : List Byte} :
    (r >>= fun z => (pure (v :: z) : Except CmdError (List Byte))) = .ok x ↔ ∃ z, r = .ok z ∧ x = v :: z := by
  cases r <;> simp [bind, Except.bind, pure, Except.pure, eq_comm]

theorem encodeBytes_leaf_cons {v c : Byte} {w : Nat} {x : List Byte} {y : List Bool} :
    encodeBytes (.leaf v w) (c :: x) = some y ↔ c = v ∧ ∃ z, encodeBytes (.leaf v w) x = some z ∧ y = false :: z := by
  rw [encodeBytes_cons_eq_some]
  simp [code_leaf, eq_comm]

theorem walkLeaf_eq_ok_iff {v : Byte} {w : Nat} {x : List Byte} {y : List Bool} :
    walkLeaf v y = .ok x ↔ encodeBytes (.leaf v w) x = some y := by
  induction x generalizing y with
  | nil =>
    match y with
    | [] => simp [walkLeaf, encodeBytes]
    | true :: y => simp [walkLeaf, encodeBytes]
    | false :: y => simp only [walkLeaf, ok_map_cons_iff]; simp [encodeBytes]
  | cons c x ih =>
    rw [encodeBytes_leaf_cons]
    match y with
    | [] => simp [walkLeaf]
    | true :: y => simp [walkLeaf]
    | false :: y => simp only [walkLeaf, ok_map_cons_iff]; simp [ih, and_left_comm]

/-- A walk that stands at n, reached from the root by the bits p, has read the code words of its output in full. -/
theorem encodeBytes_of_walkNode {root n : HuffTree} {p y : List Bool} {x : List Byte}
    (internal : ∀ v, root.code v = root.path v) (distinct : root.symbols.Nodup)
    (reached : followEdges root p = some n) (walked : walkNode root n y = .ok x) :
    encodeBytes root x = some (p ++ y) := by
  fun_induction walkNode root n y generalizing p x with
  | case1 =>
    cases walked
    simp [eq_nil_of_followEdges_self reached, encodeBytes]
  | case2 | case3 => cases walked
  | case4 l r w b y v w' child ih =>
    obtain ⟨z, hz, rfl⟩ := ok_map_cons_iff.1 walked
    have hleaf : followEdges root (p ++ [b]) = some (.leaf v w') := by
      simp [followEdges_append, reached, child]
    refine encodeBytes_cons_eq_some.2 ⟨p ++ [b], y, ?_, ih (followEdges_nil root) hz, by simp⟩
    rw [internal]
    exact path_of_followEdges distinct hleaf
  | case5 l r w b y l' r' w' child ih =>
    have hnode : followEdges root (p ++ [b]) = some (.node l' r' w') := by
      simp [followEdges_append, reached, child]
    simpa using ih hnode walked

/-- A walk from an internal node along the edges to a leaf writes its symbol and restarts at the root. -/
theorem walkNode_append {root n : HuffTree} {v : Byte} {w : Nat} {p : List Bool} (y : List Bool)
    (edges : p ≠ []) (reached : followEdges n p = some (.leaf v w)) :
    walkNode root n (p ++ y) = (walkNode root root y >>= fun x => pure (v :: x)) := by
  induction p generalizing n with
  | nil => exact absurd rfl edges
  | cons b p ih =>
    match n with
    | .leaf u w' => cases reached
    | .node l r w' =>
      rw [List.cons_append, walkNode]
      rw [followEdges_node_cons] at reached
      generalize (if b then r else l) = child at reached
      match child, p with
      | .leaf u w'', [] => cases reached; rfl
      | .leaf u w'', b' :: p => cases reached
      | .node l' r' w'', [] => cases reached
      | .node l' r' w'', b' :: p => exact ih (List.cons_ne_nil _ _) reached

theorem walkNode_of_encodeBytes {l r : HuffTree} {w : Nat} {x : List Byte} {y : List Bool}
    (encoded : encodeBytes (.node l r w) x = some y) : walkNode (.node l r w) (.node l r w) y = .ok x := by
  induction x generalizing y with
  | nil => cases encoded; simp [walkNode]
  | cons c x ih =>
    obtain ⟨p, z, hp, hz, rfl⟩ := encodeBytes_cons_eq_some.1 encoded
    obtain ⟨w', hleaf⟩ := followEdges_of_path (t := .node l r w) hp
    have edges : p ≠ [] := List.ne_nil_of_length_pos (HuffTree.path_node_length_pos (w := w) hp)
    rw [walkNode_append z edges hleaf, ih hz]
    rfl

/-- The walk is the inverse of the encoder, for every tree without a repeated symbol. -/
theorem walk_eq_ok_iff {t : HuffTree} (distinct : t.symbols.Nodup) {x : List Byte} {y : List Bool} :
    walk t y = .ok x ↔ encodeBytes t x = some y := by
  cases t with
  | leaf v w => exact walkLeaf_eq_ok_iff
  | node l r w =>
    exact ⟨fun h => encodeBytes_of_walkNode (code_node l r w) distinct (followEdges_nil _) h, walkNode_of_encodeBytes⟩

theorem walkLeaf_error {v : Byte} {y : List Bool} {c : CmdError} (h : walkLeaf v y = .error c) : c = .badCode := by
  fun_induction walkLeaf v y with
  | case1 => cases h
  | case2 => cases h; rfl
  | case3 y ih => exact ih (error_of_bind h nofun)

theorem walkNode_error {root n : HuffTree} {y : List Bool} {c : CmdError} (h : walkNode root n y = .error c) :
    c = .badCode := by
  fun_induction walkNode root n y with
  | case1 => cases h
  | case2 | case3 => cases h; rfl
  | case4 l r w b y v w' child ih => exact ih (error_of_bind h nofun)
  | case5 l r w b y l' r' w' child ih => exact ih h

theorem walk_error {t : HuffTree} {y : List Bool} {c : CmdError} (h : walk t y = .error c) : c = .badCode := by
  cases t with
  | leaf v w => exact walkLeaf_error h
  | node l r w => exact walkNode_error h

/-- Settles O38: a built tree has each symbol once, so the walk inverts the encoder, which concatenates codes. -/
theorem walkInvertsCodes : Obligations.WalkInvertsCodes := by
  intro F t built y
  exact ⟨fun x => (walk_eq_ok_iff (buildTree_symbols_nodup built)).trans encodeBytes_eq_some_iff, fun c => walk_error⟩

/-! ### No code word begins another, and the Kraft sum (R225) -/

theorem eq_of_followEdges_isPrefix {t : HuffTree} {u v : Byte} {w w' : Nat} {p q : List Bool}
    (hu : followEdges t p = some (.leaf u w)) (hv : followEdges t q = some (.leaf v w')) (h : p <+: q) : u = v := by
  obtain ⟨z, rfl⟩ := h
  rw [followEdges_append, hu, Option.bind_some] at hv
  cases z with
  | nil => cases hv; rfl
  | cons b z => cases hv

theorem eq_of_code_isPrefix {t : HuffTree} {u v : Byte} {p q : List Bool} (hu : t.code u = some p)
    (hv : t.code v = some q) (h : p <+: q) : u = v := by
  cases t with
  | leaf c w => simp_all [code_leaf]
  | node l r w =>
    obtain ⟨_, hu⟩ := followEdges_of_path hu
    obtain ⟨_, hv⟩ := followEdges_of_path hv
    exact eq_of_followEdges_isPrefix hu hv h

theorem sum_allBytes_ite (u : Byte) (n : Nat) : (allBytes.map fun v => if u = v then n else 0).sum = n := by
  rw [← List.sum_toFinset _ allBytes_nodup, Finset.sum_ite_eq, if_pos (List.mem_toFinset.2 (mem_allBytes u))]

/-- The share of the Kraft sum that a code word has, in units of 2^-n; nothing for a symbol without a code. -/
def kraftShare (n : Nat) (p : Option (List Bool)) : Nat := p.elim 0 fun p => 2 ^ (n - p.length)

theorem kraftShare_ite (n : Nat) (c : Prop) [Decidable c] (p : List Bool) :
    kraftShare n (if c then some p else none) = if c then 2 ^ (n - p.length) else 0 := by
  split <;> rfl

theorem sum_kraftShare (n : Nat) (f : Byte → Option (List Bool)) (L : List Byte) :
    ((L.filterMap f).map fun p => 2 ^ (n - p.length)).sum = (L.map fun v => kraftShare n (f v)).sum := by
  induction L with
  | nil => rfl
  | cons v L ih => cases h : f v <;> simp [h, ih, kraftShare]

theorem kraftShare_map_cons (n : Nat) (b : Bool) (p : Option (List Bool)) :
    kraftShare (n + 1) (p.map (b :: ·)) = kraftShare n p := by
  cases p <;> simp [kraftShare]

theorem kraftShare_path_node {l r : HuffTree} (disjoint : l.symbols.Disjoint r.symbols) (w n : Nat) (v : Byte) :
    kraftShare (n + 1) ((HuffTree.node l r w).path v) = kraftShare n (l.path v) + kraftShare n (r.path v) := by
  cases hleft : l.path v with
  | none =>
    rw [path_node_of_not_left hleft, kraftShare_map_cons]
    exact (Nat.zero_add _).symm
  | some p =>
    rw [path_node_of_left hleft, path_eq_none_iff.2 (disjoint (mem_symbols_of_path hleft))]
    exact kraftShare_map_cons n false (some p)

/-- The paths to the leaves use the Kraft sum up: each node halves it between its children. -/
theorem sum_kraftShare_path {t : HuffTree} (distinct : t.symbols.Nodup) {n : Nat} (hn : t.leaves ≤ n + 1) :
    (allBytes.map fun v => kraftShare n (t.path v)).sum = 2 ^ n := by
  induction t generalizing n with
  | leaf u w =>
    simp only [path_leaf, kraftShare_ite, sum_allBytes_ite, List.length_nil, Nat.sub_zero]
  | node l r w hl hr =>
    obtain ⟨hnl, hnr, disjoint⟩ := List.nodup_append'.1 distinct
    have hlpos := l.leaves_pos
    have hrpos := r.leaves_pos
    rw [HuffTree.leaves] at hn
    obtain ⟨n, rfl⟩ := Nat.exists_eq_succ_of_ne_zero (show n ≠ 0 by omega)
    simp only [Nat.succ_eq_add_one, kraftShare_path_node disjoint, List.sum_map_add]
    rw [hl hnl (by omega), hr hnr (by omega), pow_succ, Nat.mul_two]

/-- Settles O35: a code word that begins another leads to the same leaf; the Kraft sum is that of the paths, and of
the one code word [0] when there is a single leaf. -/
theorem prefixFreeAndKraft : Obligations.PrefixFreeAndKraft := by
  intro F t built
  refine ⟨fun u v p q ne hu hv h => ne (eq_of_code_isPrefix hu hv h), fun many => ?_, fun single => ?_⟩ <;>
    rw [sum_kraftShare]
  · cases t with
    | leaf u w => exact absurd many (Nat.not_succ_le_self 1)
    | node l r w => exact sum_kraftShare_path (buildTree_symbols_nodup built) (buildTree_leaves_le built)
  · cases t with
    | leaf u w =>
      simp only [code_leaf, kraftShare_ite, sum_allBytes_ite, List.length_singleton]
    | node l r w => exact absurd single (by have := two_le_leaves_node l r w; omega)

/-! ### Build (R217, R219) -/

/-- The order of the initial list: by weight, and equal weights by symbol (R219). -/
def leafBefore (F : Byte → Word) (a b : HuffTree) : Prop :=
  ∃ u v, a = .leaf u (F u).toNat ∧ b = .leaf v (F v).toNat ∧ ((F u).toNat < (F v).toNat ∨ F u = F v ∧ u < v)

theorem leafBefore_leaf {F : Byte → Word} {u v : Byte} :
    leafBefore F (.leaf u (F u).toNat) (.leaf v (F v).toNat) ↔ (F u).toNat < (F v).toNat ∨ F u = F v ∧ u < v := by
  constructor
  · rintro ⟨_, _, ⟨⟩, ⟨⟩, h⟩
    exact h
  · exact fun h => ⟨u, v, rfl, rfl, h⟩

theorem leafBefore_asymm {F : Byte → Word} {a b : HuffTree} (hab : leafBefore F a b) : ¬ leafBefore F b a := by
  obtain ⟨u, v, rfl, rfl, h⟩ := hab
  rw [leafBefore_leaf]
  bv_omega

/-- Only one list can be the initial one. -/
theorem initialLeaves_unique {F : Byte → Word} {L M : List HuffTree} (hL : initialLeaves F L)
    (hM : initialLeaves F M) : L = M := by
  have irrefl : Std.Irrefl (leafBefore F) := ⟨fun a h => leafBefore_asymm h h⟩
  have antisymm : Std.Antisymm (leafBefore F) := ⟨fun a b h h' => absurd h' (leafBefore_asymm h)⟩
  exact hL.2.eq_of_mem_iff (r := leafBefore F) hM.2 fun x => (hL.1 x).trans (hM.1 x).symm

theorem leafBefore_of_weight_le {F : Byte → Word} {u v : Byte} (huv : u < v) (h : (F u).toNat ≤ (F v).toNat) :
    leafBefore F (.leaf u (F u).toNat) (.leaf v (F v).toNat) :=
  leafBefore_leaf.2 (h.lt_or_eq.imp_right fun h => ⟨BitVec.eq_of_toNat_eq h, huv⟩)

theorem weight_le_of_leafBefore {F : Byte → Word} {a b : HuffTree} (h : leafBefore F a b) : a.weight ≤ b.weight := by
  obtain ⟨u, v, rfl, rfl, h | ⟨h, -⟩⟩ := h
  · exact h.le
  · exact (congrArg BitVec.toNat h).le

/-- The sort is stable: a leaf goes before the leaves of larger symbols that are at least as heavy. -/
theorem orderedInsert_leafBefore {F : Byte → Word} {u : Byte} {L : List HuffTree}
    (later : ∀ x ∈ L, ∃ v, x = .leaf v (F v).toNat ∧ u < v) (sorted : L.Pairwise (leafBefore F)) :
    (L.orderedInsert (fun a b => a.weight ≤ b.weight) (.leaf u (F u).toNat)).Pairwise (leafBefore F) := by
  induction L with
  | nil => exact List.pairwise_singleton _ _
  | cons x L ih =>
    obtain ⟨hx, hL⟩ := List.forall_mem_cons.1 later
    obtain ⟨hhead, htail⟩ := List.pairwise_cons.1 sorted
    rw [List.orderedInsert_cons]
    split
    · next hle =>
      refine List.pairwise_cons.2 ⟨fun y hy => ?_, sorted⟩
      obtain ⟨v, rfl, huv⟩ := later y hy
      refine leafBefore_of_weight_le huv ?_
      rcases List.mem_cons.1 hy with rfl | hy
      · exact hle
      · exact hle.trans (weight_le_of_leafBefore (hhead _ hy))
    · next hlt =>
      refine List.pairwise_cons.2 ⟨fun y hy => ?_, ih hL htail⟩
      rcases (List.mem_orderedInsert _).1 hy with rfl | hy
      · obtain ⟨v, rfl, -⟩ := hx
        exact leafBefore_leaf.2 (.inl (not_le.1 hlt))
      · exact hhead y hy

theorem insertionSort_leafBefore (F : Byte → Word) {L : List Byte} (rising : L.Pairwise (· < ·)) :
    ((L.map fun v => HuffTree.leaf v (F v).toNat).insertionSort fun a b => a.weight ≤ b.weight).Pairwise
      (leafBefore F) := by
  induction L with
  | nil => exact List.Pairwise.nil
  | cons u L ih =>
    obtain ⟨hu, hL⟩ := List.pairwise_cons.1 rising
    rw [List.map_cons, List.insertionSort_cons]
    refine orderedInsert_leafBefore (fun x hx => ?_) (ih hL)
    obtain ⟨v, hv, rfl⟩ := List.mem_map.1 ((List.mem_insertionSort _).1 hx)
    exact ⟨v, rfl, hu v hv⟩

theorem sortedLeaves_initial (F : Byte → Word) : initialLeaves F (sortedLeaves F) := by
  refine ⟨fun x => ?_, insertionSort_leafBefore F (allBytes_sorted.filter _)⟩
  rw [(sortedLeaves_perm F).mem_iff, List.mem_map]
  simp only [mem_countedSymbols, eq_comm]

/-- `insertNode` is the placement of R219: after every tree of at most the weight, before the first heavier one. -/
theorem insertNode_append {m : HuffTree} {before after : List HuffTree} (hbefore : ∀ x ∈ before, x.weight ≤ m.weight)
    (hafter : ∀ x, after.head? = some x → m.weight < x.weight) :
    insertNode m (before ++ after) = before ++ m :: after := by
  induction before with
  | nil =>
    cases after with
    | nil => rfl
    | cons x after => exact if_pos (hafter x rfl)
  | cons x before ih =>
    obtain ⟨hx, hbefore⟩ := List.forall_mem_cons.1 hbefore
    exact (if_neg (not_lt.2 hx)).trans (congrArg _ (ih hbefore))

theorem exists_placement (n : Nat) (L : List HuffTree) : ∃ before after, L = before ++ after ∧
    (∀ x ∈ before, x.weight ≤ n) ∧ ∀ x, after.head? = some x → n < x.weight := by
  induction L with
  | nil => exact ⟨[], [], rfl, nofun, nofun⟩
  | cons x L ih =>
    by_cases hx : n < x.weight
    · exact ⟨[], x :: L, rfl, nofun, by rintro _ ⟨⟩; exact hx⟩
    · obtain ⟨before, after, rfl, hbefore, hafter⟩ := ih
      exact ⟨x :: before, after, rfl, List.forall_mem_cons.2 ⟨not_lt.1 hx, hbefore⟩, hafter⟩

/-- A round of R219 is what `mergeTrees` does with its list. -/
theorem mergeRound_iff {L L' : List HuffTree} :
    mergeRound L L' ↔ ∃ a b M, L = a :: b :: M ∧ L' = insertNode (a.join b) M := by
  constructor
  · rintro ⟨a, b, before, after, rfl, hbefore, hafter, rfl⟩
    exact ⟨a, b, _, rfl, (insertNode_append hbefore hafter).symm⟩
  · rintro ⟨a, b, M, rfl, rfl⟩
    obtain ⟨before, after, rfl, hbefore, hafter⟩ := exists_placement (a.join b).weight M
    exact ⟨a, b, before, after, rfl, hbefore, hafter, insertNode_append hbefore hafter⟩

theorem mergeTrees_singleton (fuel : Nat) (t : HuffTree) : mergeTrees fuel [t] = some t := by
  cases fuel <;> rfl

theorem exists_rounds_of_mergeTrees {fuel : Nat} {L : List HuffTree} {t : HuffTree} (h : mergeTrees fuel L = some t) :
    ∃ (k : Nat) (C : Nat → List HuffTree), C 0 = L ∧ (∀ j, j < k → mergeRound (C j) (C (j + 1))) ∧ C k = [t] := by
  induction fuel, L using mergeTrees.induct with
  | case1 => simp [mergeTrees] at h
  | case2 fuel u =>
    cases (mergeTrees_singleton fuel u).symm.trans h
    exact ⟨0, fun _ => [t], rfl, nofun, rfl⟩
  | case3 => simp [mergeTrees] at h
  | case4 fuel a b L ih =>
    obtain ⟨k, C, hfirst, hrounds, hlast⟩ := ih h
    refine ⟨k + 1, Stream'.cons (a :: b :: L) C, rfl, fun j hj => ?_, hlast⟩
    cases j with
    | zero => exact mergeRound_iff.2 ⟨a, b, L, rfl, hfirst⟩
    | succ j => exact hrounds j (Nat.lt_of_succ_lt_succ hj)

theorem mergeTrees_of_rounds {k : Nat} {C : Nat → List HuffTree} {t : HuffTree}
    (rounds : ∀ j, j < k → mergeRound (C j) (C (j + 1))) (last : C k = [t]) {fuel : Nat}
    (enough : (C 0).length ≤ fuel) : mergeTrees fuel (C 0) = some t := by
  induction k generalizing C fuel with
  | zero => rw [last, mergeTrees_singleton]
  | succ k ih =>
    obtain ⟨a, b, M, hfirst, hnext⟩ := mergeRound_iff.1 (rounds 0 k.succ_pos)
    have hlen := (insertNode_perm (a.join b) M).length_eq
    rw [← hnext] at hlen
    rw [hfirst] at enough ⊢
    simp only [List.length_cons] at enough hlen
    obtain ⟨fuel, rfl⟩ := Nat.exists_eq_succ_of_ne_zero (show fuel ≠ 0 by omega)
    rw [Nat.succ_eq_add_one, mergeTrees, ← hnext]
    exact ih (C := fun j => C (j + 1)) (fun j hj => rounds (j + 1) (Nat.succ_lt_succ hj)) last (by omega)

theorem sum_countedSymbols (F : Byte → Word) :
    ((countedSymbols F).map fun v => (F v).toNat).sum = (allBytes.map fun v => (F v).toNat).sum := by
  rw [countedSymbols]
  induction allBytes with
  | nil => rfl
  | cons v L ih => by_cases h : F v = 0 <;> simp_all

theorem sum_counts_lt (F : Byte → Word) : (allBytes.map fun v => (F v).toNat).sum < 2 ^ 40 := by
  have hle := List.sum_le_card_nsmul (allBytes.map fun v => (F v).toNat) (2 ^ 32 - 1) fun n hn => by
    obtain ⟨v, -, rfl⟩ := List.mem_map.1 hn
    exact Nat.le_pred_of_lt (F v).isLt
  rw [List.length_map, allBytes_length] at hle
  exact lt_of_le_of_lt hle (by decide)

/-- Settles O33: the initial list is unique, and `mergeTrees` runs the rounds to their end; the weight is additive. -/
theorem buildFollowsRule : Obligations.BuildFollowsRule := by
  refine fun F t => ⟨⟨fun built => ?_, ?_⟩, fun built => ?_⟩
  · obtain ⟨k, C, hfirst, rounds, last⟩ := exists_rounds_of_mergeTrees built
    exact ⟨k, C, hfirst.symm ▸ sortedLeaves_initial F, rounds, last⟩
  · rintro ⟨k, C, initial, rounds, last⟩
    rw [buildTree, ← initialLeaves_unique initial (sortedLeaves_initial F)]
    exact mergeTrees_of_rounds rounds last le_rfl
  · have hweight := (buildTree_additive built join_weight).trans (sum_countedSymbols F)
    refine ⟨hweight, hweight ▸ sum_counts_lt F, fun v p hp => ?_⟩
    have hlt := HuffTree.path_length_lt hp
    have hle := buildTree_leaves_le built
    omega

theorem mergeTrees_eq_none_iff {fuel : Nat} {L : List HuffTree} (enough : L.length ≤ fuel) :
    mergeTrees fuel L = none ↔ L = [] := by
  induction fuel, L using mergeTrees.induct with
  | case1 => simp [mergeTrees]
  | case2 => simp [mergeTrees]
  | case3 => simp at enough
  | case4 fuel a b L ih =>
    have hlen := (insertNode_perm (a.join b) L).length_eq
    simp only [List.length_cons] at enough hlen
    rw [mergeTrees, ih (by omega)]
    simp [← List.length_eq_zero_iff, hlen]

/-- There is a tree exactly when some count is not 0. -/
theorem buildTree_eq_none_iff {F : Byte → Word} : buildTree F = none ↔ ∀ v, F v = 0 := by
  rw [buildTree, mergeTrees_eq_none_iff le_rfl, ← List.length_eq_zero_iff, (sortedLeaves_perm F).length_eq,
    List.length_map, List.length_eq_zero_iff, List.eq_nil_iff_forall_not_mem]
  simp only [mem_countedSymbols, not_not]

theorem exists_buildTree {F : Byte → Word} {v : Byte} (h : F v ≠ 0) : ∃ t, buildTree F = some t :=
  Option.ne_none_iff_exists'.1 fun none => h (buildTree_eq_none_iff.1 none v)

/-! ### The command HUF_COUNT (R216) -/

/-- FREQ, TREE, HUF_VALID and a completion: everything else is kept (R216, R218). -/
theorem keepsRest_huffman (s : State) (m : List (Nat × Word)) (t : Option HuffTree) (b : Bool) (op : Byte)
    (r : Word) : KeepsRest [] [] s (State.complete { s with freqs := m, tree := t, hufValid := b } op none false r) :=
  ⟨⟨rfl, rfl, rfl, rfl, rfl, rfl, rfl⟩, fun _ _ => ⟨rfl, fun _ => rfl⟩, fun _ _ => ⟨rfl, rfl, rfl⟩⟩

@[simp] theorem freq_complete (s : State) (op : Byte) (c : Option CmdError) (e : Bool) (r : Word) :
    (s.complete op c e r).freq = s.freq := rfl

theorem toNat_ofNat_count (s : State) (r : Fin 4) (v : Byte) :
    (BitVec.ofNat 32 ((s.buf r).count v)).toNat = (s.buf r).count v :=
  Nat.mod_eq_of_lt (lt_of_le_of_lt List.count_le_length (buf_length_lt s r))

/-- Settles O31: the success rule sets FREQ to the counts, which a 32-bit length keeps from wrapping. -/
theorem hufCountCounts : Obligations.HufCountCounts := by
  intro s r
  refine ⟨rfl, _, exec_of_succeeds (.hufCount r), complete_completes _ _ _ _, fun v => ?_, rfl, rfl, rfl, rfl,
    keepsRest_huffman s _ _ _ _ _⟩
  rw [freq_complete, freq_setFreqs]
  exact toNat_ofNat_count s r v

/-! ### The command HUF_BUILD (R218) -/

theorem exec_hufBuild_of_empty {s : State} (empty : buildTree s.freq = none) :
    exec .hufBuild s = .next (s.complete Opcode.hufBuild (some .precond) false 0) := by
  show Host.Outcome.next (finish _ s _) = _
  rw [empty]; rfl

/-- Settles O32: `buildTree` finds a tree exactly when a count is nonzero, with one leaf per nonzero count; in a legal
state a valid tree is that of FREQ. -/
theorem hufBuildBuildsTree : Obligations.HufBuildBuildsTree := by
  refine fun s => ⟨by decide, fun zero => ?_, fun ⟨v, hv⟩ => ?_⟩
  · have empty := buildTree_eq_none_iff.2 zero
    refine ⟨_, exec_hufBuild_of_empty empty, complete_fails _ _ _ _ _, keepsAll_complete s _ _ _ _, fun legal => ?_⟩
    have invalid : s.hufValid = false := by
      by_contra hvalid
      obtain ⟨hsome, htree⟩ := legal.tree (Bool.not_eq_false _ ▸ hvalid)
      rw [htree, empty] at hsome
      cases hsome
    exact ⟨invalid, invalid⟩
  · obtain ⟨t, built⟩ := exists_buildTree hv
    refine ⟨_, exec_of_succeeds (.hufBuild t built), ?_, rfl, rfl, built.symm, rfl, rfl, rfl, rfl,
      keepsRest_huffman s _ _ _ _ _⟩
    rw [← countedSymbols, ← buildTree_leaves built]
    exact complete_completes _ _ _ _

/-! ### The commands HUF_ENC and HUF_DEC (R222, R223) -/

theorem needTree_of_invalid {s : State} (h : s.hufValid = false) : s.needTree = .error .notReady := by
  simp [State.needTree, State.validTree, h]

theorem validTree_of_valid {s : State} {t : HuffTree} (h : s.hufValid = true) (ht : s.tree = some t) :
    s.validTree = some t := by
  simp [State.validTree, h, ht]

section
variable {s : State} {t : HuffTree} (d r : Fin 4)

theorem exec_hufEnc_of_invalid (invalid : s.hufValid = false) :
    exec (.hufEnc (idx d) (idx r)) s = .next (s.complete Opcode.hufEnc (some .notReady) false 0) :=
  runTwo_error (by rw [needTree_of_invalid invalid]; rfl)

theorem exec_hufDec_of_invalid (invalid : s.hufValid = false) :
    exec (.hufDec (idx d) (idx r)) s = .next ((s.scratch d).complete Opcode.hufDec (some .notReady) false 0) :=
  runToBuf_error (by rw [needTree_of_invalid invalid]; rfl)

variable {d r} (ready : s.validTree = some t)
include ready

theorem exec_hufEnc_of_uncoded (uncoded : encodeBytes t (s.buf r) = none) :
    exec (.hufEnc (idx d) (idx r)) s = .next (s.complete Opcode.hufEnc (some .noCode) false 0) := by
  refine runTwo_error ?_
  simp only [needTree_of_validTree ready, bind, Except.bind, uncoded]

theorem exec_hufEnc_of_full {y : List Bool} (encoded : encodeBytes t (s.buf r) = some y)
    (full : y.length > s.bsCapBits.toNat) :
    exec (.hufEnc (idx d) (idx r)) s = .next (s.complete Opcode.hufEnc (some .bsFull) false 0) := by
  refine runTwo_error ?_
  simp only [needTree_of_validTree ready, bind, Except.bind, encoded]
  exact refuseIf_raise (decide_eq_true full)

theorem exec_hufDec_of_error {c : CmdError} (failed : walk t (s.seq r) = .error c) :
    exec (.hufDec (idx d) (idx r)) s = .next ((s.scratch d).complete Opcode.hufDec (some c) false 0) := by
  refine runToBuf_error ?_
  simp only [needTree_of_validTree ready, bind, Except.bind, failed]

theorem exec_hufDec_of_full {x : List Byte} (walked : walk t (s.seq r) = .ok x)
    (full : x.length > s.bufBytes.toNat) :
    exec (.hufDec (idx d) (idx r)) s = .next ((s.scratch d).complete Opcode.hufDec (some .bufFull) false 0) := by
  refine runToBuf_error ?_
  simp only [needTree_of_validTree ready, bind, Except.bind, walked]
  exact refuseIf_raise (decide_eq_true full)

end

/-- Settles O36: the checks in their order, and the success rule writes the concatenation of the codes. -/
theorem hufEncConcatenatesCodes : Obligations.HufEncConcatenatesCodes := by
  refine fun s d r => ⟨rfl, fun invalid => exists_fails (exec_hufEnc_of_invalid d r invalid), fun t hvalid htree => ?_⟩
  have ready := validTree_of_valid hvalid htree
  refine ⟨fun uncoded => exists_fails (exec_hufEnc_of_uncoded ready (encodeBytes_eq_none_iff.2 uncoded)),
    fun y coded hy => ?_⟩
  have encoded := encodeBytes_eq_some_iff.2 ⟨coded, hy⟩
  refine ⟨fun full => exists_fails (exec_hufEnc_of_full ready encoded full), fun fits => ?_⟩
  exact ⟨_, exec_of_succeeds (.hufEnc d r t y ready encoded fits), complete_completes _ _ _ _, by simp, by simp,
    by simp, keepsBut_putSeq s d _ _ _ _ _ _⟩

/-- Settles O37: the checks in their order, and the success rule writes the output of the walk. -/
theorem hufDecWalksTree : Obligations.HufDecWalksTree := by
  refine fun s d r => ⟨rfl, fun invalid => ?_, fun t hvalid htree => ?_⟩
  · exact ⟨_, exec_hufDec_of_invalid d r invalid, complete_fails _ _ _ _ _, keepsOnFailure_scratch s d _ _ _ _⟩
  have ready := validTree_of_valid hvalid htree
  refine ⟨fun c failed => ?_, fun x walked full => ?_, fun x walked fits => ?_⟩
  · obtain rfl := walk_error failed
    exact ⟨rfl, _, exec_hufDec_of_error ready failed, complete_fails _ _ _ _ _, keepsOnFailure_scratch s d _ _ _ _⟩
  · exact ⟨_, exec_hufDec_of_full ready walked full, complete_fails _ _ _ _ _, keepsOnFailure_scratch s d _ _ _ _⟩
  · obtain ⟨hbuf, hlen⟩ := buf_len_setBuf_of_fits d fits
    exact ⟨_, exec_of_succeeds (.hufDec d r t x ready walked fits), complete_completes _ _ _ _, hbuf, hlen,
      keepsBut_setBuf s d _ _ _ _ _⟩

/-! ### HUF_BUILD, HUF_ENC, then HUF_DEC (R226) -/

/-- What HUF_BUILD leaves when some count is nonzero: the tree of FREQ, valid, and the buffers as they were. -/
theorem exec_hufBuild_of_counted {s t : State} {v : Byte} (hv : s.freq v ≠ 0) (h : exec .hufBuild s = .next t) :
    ∃ tr, buildTree s.freq = some tr ∧ t.validTree = some tr ∧ t.bufBytes = s.bufBytes ∧ ∀ i, t.buf i = s.buf i := by
  obtain ⟨tr, built⟩ := exists_buildTree hv
  cases (exec_of_succeeds (.hufBuild tr built)).symm.trans h
  exact ⟨tr, built, rfl, rfl, fun _ => rfl⟩

/-- What HUF_ENC leaves when every byte has a code and the bits fit: the encoding, and the tree as it was. -/
theorem exec_hufEnc_of_coded {s t : State} {tr : HuffTree} {k r : Fin 4} {y : List Bool} (ready : s.validTree = some tr)
    (encoded : encodeBytes tr (s.buf r) = some y) (h : exec (.hufEnc (idx k) (idx r)) s = .next t)
    (notFull : t.errCode ≠ some .bsFull) :
    t.err = false ∧ t.validTree = some tr ∧ t.seq k = y ∧ t.bufBytes = s.bufBytes := by
  by_cases fits : y.length ≤ s.bsCapBits.toNat
  · cases (exec_of_succeeds (.hufEnc k r tr y ready encoded fits)).symm.trans h
    exact ⟨rfl, ready, by simp, rfl⟩
  · cases (exec_hufEnc_of_full ready encoded (not_le.1 fits)).symm.trans h
    exact absurd rfl notFull

/-- R226 from any FREQ that counts every byte of the source. -/
theorem huffmanRoundTrip_of_freq {s t₂ t₃ : State} {r k : Fin 4} (e : Fin 4) (nonempty : s.buf r ≠ [])
    (counted : ∀ c ∈ s.buf r, s.freq c ≠ 0) (hbuild : exec .hufBuild s = .next t₂)
    (henc : exec (.hufEnc (idx k) (idx r)) t₂ = .next t₃) (notFull : t₃.errCode ≠ some .bsFull)
    (fits : (s.buf r).length ≤ s.bufBytes.toNat) :
    t₃.err = false ∧ ∃ t₄, exec (.hufDec (idx e) (idx k)) t₃ = .next t₄ ∧ t₄.err = false ∧ t₄.buf e = s.buf r := by
  obtain ⟨c, hc⟩ := List.exists_mem_of_ne_nil _ nonempty
  obtain ⟨tr, built, ready₂, hcap₂, hbuf⟩ := exec_hufBuild_of_counted (counted c hc) hbuild
  have coded : ∀ c ∈ s.buf r, tr.code c ≠ none := fun c hc => mt (code_eq_none_iff_of_built built).1 (counted c hc)
  obtain ⟨y, encoded⟩ : ∃ y, encodeBytes tr (s.buf r) = some y := ⟨_, encodeBytes_eq_some_iff.2 ⟨coded, rfl⟩⟩
  obtain ⟨hok, ready₃, hseq, hcap₃⟩ := exec_hufEnc_of_coded ready₂ ((hbuf r).symm ▸ encoded) henc notFull
  have walked := (walk_eq_ok_iff (buildTree_symbols_nodup built)).2 encoded
  rw [← hseq] at walked
  rw [← hcap₂, ← hcap₃] at fits
  exact ⟨hok, _, exec_of_succeeds (.hufDec e k tr _ ready₃ walked fits), rfl, (buf_len_setBuf_of_fits e fits).1⟩

/-- After HUF_COUNT every byte of the source has a nonzero count. -/
theorem counted_of_exec_hufCount {s t : State} {r : Fin 4} (h : exec (.hufCount (idx r)) s = .next t) :
    t.buf r = s.buf r ∧ t.bufBytes = s.bufBytes ∧ ∀ c ∈ s.buf r, t.freq c ≠ 0 := by
  cases (exec_of_succeeds (.hufCount r)).symm.trans h
  refine ⟨rfl, rfl, fun c hc zero => ?_⟩
  rw [freq_complete, freq_setFreqs] at zero
  have hcount := toNat_ofNat_count s r c
  have hpos : 0 < (s.buf r).count c := List.count_pos_iff.2 hc
  rw [List.count, zero] at hcount
  exact hpos.ne hcount

/-- Settles O39: a counted byte has a code, so HUF_ENC can only fail for room, and the walk inverts it; HUF_COUNT
counts every byte of its source. -/
theorem huffmanRoundTrip : Obligations.HuffmanRoundTrip := by
  refine ⟨fun s t₁ t₂ t₃ r k e nonempty hcount => ?_, fun s t₂ t₃ r k e => huffmanRoundTrip_of_freq e⟩
  obtain ⟨hbuf, hcap, counted⟩ := counted_of_exec_hufCount hcount
  rw [← hbuf] at nonempty counted ⊢
  rw [← hcap]
  exact huffmanRoundTrip_of_freq e nonempty counted

end Sys2Proof.Machine

/-! ## Proofs about the record commands (R245 to R251) -/

namespace Sys2Proof.Machine

/-! ### REC_WRITE (R245, R247) -/

theorem flatMap_entryBytes_length (es : List (Byte × Word)) :
    (es.flatMap fun e => entryBytes e.1 e.2).length = 5 * es.length := by
  simp [List.length_flatMap, entryBytes, Nat.mul_comm]

/-- The table of FREQ: its nonzero counts, by symbol (R246). -/
def State.freqEntries (s : State) : List (Byte × Word) := s.symbols.map fun v => (v, s.freq v)

@[simp] theorem freqEntries_length (s : State) : s.freqEntries.length = s.symbols.length := List.length_map _

/-- REC_WRITE's record is R245's layout filled with PRIMARY, the table of FREQ and the packed payload. -/
theorem record_eq_recordOf (s : State) (x : List Bool) :
    s.record x = recordOf s.primary s.freqEntries x.length (pack x) := by
  rw [State.record, recordOf, freqEntries_length, State.freqEntries, List.flatMap_map, ser,
    List.append_assoc _ _ (pack x)]
  rfl

theorem recordOf_length (prim : Word) (es : List (Byte × Word)) (n : Nat) (data : List Byte) :
    (recordOf prim es n data).length = 10 + 5 * es.length + data.length := by
  have htable : (es.flatMap fun e => e.1 :: be32 e.2).length = 5 * es.length := flatMap_entryBytes_length es
  simp only [recordOf, List.length_append, be32_length, be16_length, htable]
  omega

theorem exec_recWrite_of_full {s : State} {d r : Fin 4}
    (full : (s.len d).toNat + (s.record (s.seq r)).length > s.bufBytes.toNat) :
    exec (.recWrite (idx d) (idx r)) s =
      .next ((s.scratch d).complete Opcode.recWrite (some .bufFull) false 0) :=
  runToBuf_error (refuseIf_raise (decide_eq_true full))

/-- Settles O40: when the record fits BUF_BYTES, the success rule appends it to the buffer. -/
theorem recWriteAppendsRecord : Obligations.RecWriteAppendsRecord := by
  refine fun s d r => ⟨rfl, ?_⟩
  rintro syms y rfl hy
  obtain rfl : y = s.record (s.seq r) := hy
  refine ⟨?_, fun full => ?_, fun fits => ?_⟩
  · rw [record_eq_recordOf, recordOf_length, freqEntries_length, pack_length]; rfl
  · exact ⟨_, exec_recWrite_of_full full, complete_fails _ _ _ _ _, keepsOnFailure_scratch s d _ _ _ _⟩
  · have hlt := lt_of_le_of_lt fits s.bufBytes.isLt
    exact ⟨_, exec_of_succeeds (.recWrite d r fits), complete_completes _ _ _ _, buf_appendBuf_self hlt,
      toNat_len_appendBuf_self hlt, keepsBut_setBuf s d _ _ _ _ _⟩

/-! ### The table of a record (R249) -/

/-- The bound that R249's check has reached after the entries `es`: the last symbol, or the bound before the table. -/
def lastSymbol : Int → List (Byte × Word) → Int
  | last, [] => last
  | _, e :: es => lastSymbol e.1.toNat es

section
variable {es : List (Byte × Word)} {last : Int} (ascending : es.Pairwise fun a b => a.1 < b.1)
include ascending

theorem le_lastSymbol (above : ∀ e ∈ es, last < e.1.toNat) :
    last ≤ lastSymbol last es ∧ ∀ e ∈ es, (e.1.toNat : Int) ≤ lastSymbol last es := by
  induction es generalizing last with
  | nil => exact ⟨le_refl _, by simp⟩
  | cons e es ih =>
    obtain ⟨hhead, htail⟩ := List.pairwise_cons.1 ascending
    obtain ⟨hle, hall⟩ := ih (last := e.1.toNat) htail fun e' he' => Int.ofNat_lt.2 (hhead e' he')
    exact ⟨(above e List.mem_cons_self).le.trans hle, List.forall_mem_cons.2 ⟨hle, hall⟩⟩

/-- Entries in order and nonzero are passed, and the parse goes on behind them. -/
theorem parseTable_append (nonzero : ∀ e ∈ es, e.2 ≠ 0) (above : ∀ e ∈ es, last < e.1.toNat) (k : Nat)
    (m : List Byte) : parseTable (es.length + k) last ((es.flatMap fun e => entryBytes e.1 e.2) ++ m) =
      (parseTable k (lastSymbol last es) m).map fun p => (es ++ p.1, p.2) := by
  induction es generalizing last with
  | nil =>
    rw [List.length_nil, Nat.zero_add]
    exact (id_map (parseTable k last m)).symm
  | cons e es ih =>
    obtain ⟨hhead, htail⟩ := List.pairwise_cons.1 ascending
    obtain ⟨hf, hfs⟩ := List.forall_mem_cons.1 nonzero
    have accepted : ¬ (decide ((e.1.toNat : Int) ≤ last) || e.2 == 0) = true := by
      simpa using ⟨above e List.mem_cons_self, hf⟩
    rw [List.length_cons, Nat.add_right_comm, List.flatMap_cons, List.append_assoc, parseTable_entry,
      if_neg accepted, ih htail hfs fun e' he' => Int.ofNat_lt.2 (hhead e' he'), lastSymbol]
    cases parseTable k (lastSymbol e.1.toNat es) m <;> rfl

/-- Strictly ascending symbols are distinct bytes, at most 256 (R245). -/
theorem length_le_of_ascending : es.length ≤ 256 := by
  have hnodup : (es.map fun e => e.1.toFin).Nodup :=
    (List.pairwise_map.2 (ascending.imp fun h => ne_of_lt h))
  simpa using hnodup.length_le_card

end

/-! ### The parse of a record (R249) -/

/-- The part of R249's parse behind the table: NBITS and DATA, for a record of K entries. -/
def parsePayload (cap : Nat) (prim : Word) (K size : Nat) (es : List (Byte × Word)) (m : List Byte) :
    Except CmdError ParsedRecord := do
  let (hn, m₁) ← takeBytes 4 m
  let n := fromBe hn
  refuseIf (n > cap) .malformed
  refuseIf (K == 0 && n != 0) .malformed
  let (data, m₂) ← takeBytes (ceil8 n) m₁
  return ⟨prim, es, unpack data n, size - m₂.length⟩

section
variable (cap : Nat)

theorem parseRecord_short {m : List Byte} (short : m.length < 6) : parseRecord cap m = .error .truncated := by
  by_cases h4 : m.length < 4
  · rw [parseRecord, takeBytes_short h4]; rfl
  · have hK : (m.drop 4).length < 2 := by rw [List.length_drop]; omega
    rw [parseRecord, ← List.take_append_drop 4 m, takeBytes_append _ _ (List.length_take_of_le (not_lt.1 h4))]
    simp only [bind, Except.bind, takeBytes_short hK]

theorem parseRecord_head (prim : Word) (K : BitVec 16) (rest : List Byte) :
    parseRecord cap (be32 prim ++ be16 K ++ rest) =
      if K.toNat > 256 then .error .malformed
      else parseTable K.toNat (-1) rest >>= fun p =>
        parsePayload cap prim K.toNat (be32 prim ++ be16 K ++ rest).length p.1 p.2 := by
  have hprim : BitVec.ofNat 32 (fromBe (be32 prim)) = prim := by simp
  rw [parseRecord, List.append_assoc, takeBytes_append _ _ (be32_length prim)]
  simp only [bind, Except.bind, takeBytes_append _ _ (be16_length K), hprim, fromBe_be16]
  by_cases hK : K.toNat > 256
  · rw [if_pos hK, decide_eq_true hK]; rfl
  · rw [if_neg hK, decide_eq_false hK]; rfl

theorem parsePayload_short {prim : Word} {K size : Nat} {es : List (Byte × Word)} {m : List Byte}
    (short : m.length < 4) : parsePayload cap prim K size es m = .error .truncated := by
  rw [parsePayload, takeBytes_short short]; rfl

theorem parsePayload_be32 (prim : Word) (K size : Nat) (es : List (Byte × Word)) (nb : Word) (m : List Byte) :
    parsePayload cap prim K size es (be32 nb ++ m) =
      if nb.toNat > cap ∨ K = 0 ∧ nb ≠ 0 then .error .malformed
      else (takeBytes (ceil8 nb.toNat) m).map fun p => ⟨prim, es, unpack p.1 nb.toNat, size - p.2.length⟩ := by
  have hnb : nb.toNat = 0 ↔ nb = 0 := by rw [← BitVec.toNat_inj]; rfl
  rw [parsePayload, takeBytes_append _ _ (be32_length nb)]
  simp only [bind, Except.bind, fromBe_be32]
  by_cases hcap : nb.toNat > cap
  · rw [if_pos (.inl hcap), decide_eq_true hcap]; rfl
  · by_cases hK : K = 0 ∧ nb ≠ 0
    · have hbad : (K == 0 && nb.toNat != 0) = true := by simpa [hnb] using hK
      rw [if_pos (.inr hK), decide_eq_false hcap, hbad]; rfl
    · have hgood : (K == 0 && nb.toNat != 0) = false := by simpa [hnb] using hK
      rw [if_neg (not_or.2 ⟨hcap, hK⟩), decide_eq_false hcap, hgood]
      cases takeBytes (ceil8 nb.toNat) m <;> rfl

variable {cap} {m rest : List Byte} {prim : Word} {K : Nat} {es : List (Byte × Word)}
  (begins : recordBegins m prim K es rest)
include begins

/-- Behind a record's first fields, the parse goes on with the entries still to come, then NBITS and DATA. -/
theorem parseRecord_of_begins : parseRecord cap m =
    parseTable (K - es.length) (lastSymbol (-1) es) rest >>= fun p =>
      parsePayload cap prim K m.length (es ++ p.1) p.2 := by
  obtain ⟨hK, hlen, ascending, nonzero, rfl⟩ := begins
  have hKnat : (BitVec.ofNat 16 K).toNat = K := Nat.mod_eq_of_lt (by omega)
  have htable := parseTable_append (last := -1) ascending nonzero (fun _ _ => by omega) (K - es.length) rest
  rw [Nat.add_sub_cancel' hlen] at htable
  simp only [entryBytes] at htable
  rw [List.append_assoc _ _ rest, parseRecord_head, hKnat, if_neg (not_lt.2 hK), htable]
  cases parseTable (K - es.length) (lastSymbol (-1) es) rest <;> rfl

theorem parseRecord_cutEntry (more : es.length < K) (short : rest.length < 5) :
    parseRecord cap m = .error .truncated := by
  obtain ⟨k, hk⟩ := Nat.exists_eq_succ_of_ne_zero (Nat.sub_ne_zero_of_lt more)
  rw [parseRecord_of_begins begins, hk, parseTable_short short]; rfl

theorem parseRecord_badEntry {v : Byte} {f : Word} {rest' : List Byte} (more : es.length < K)
    (hrest : rest = v :: be32 f ++ rest') (bad : f = 0 ∨ ∃ e ∈ es, v ≤ e.1) :
    parseRecord cap m = .error .malformed := by
  have ⟨_, _, ascending, _, _⟩ := begins
  obtain ⟨k, hk⟩ := Nat.exists_eq_succ_of_ne_zero (Nat.sub_ne_zero_of_lt more)
  have refused : (decide ((v.toNat : Int) ≤ lastSymbol (-1) es) || f == 0) = true := by
    rcases bad with rfl | ⟨e, he, hle⟩
    · simp
    · have hlast := (le_lastSymbol (last := -1) ascending fun _ _ => by omega).2 e he
      rw [decide_eq_true ((Int.ofNat_le.2 hle).trans hlast), Bool.true_or]
  obtain rfl : rest = entryBytes v f ++ rest' := hrest
  rw [parseRecord_of_begins begins, hk, parseTable_entry, if_pos refused]; rfl

theorem parseRecord_of_table (complete : es.length = K) : parseRecord cap m =
    parsePayload cap prim K m.length es rest := by
  rw [parseRecord_of_begins begins, complete, Nat.sub_self]
  exact congrArg (parsePayload cap prim K m.length · rest) (List.append_nil es)

theorem parseRecord_cutLength (complete : es.length = K) (short : rest.length < 4) :
    parseRecord cap m = .error .truncated := by
  rw [parseRecord_of_table begins complete, parsePayload_short cap short]

section
variable {nb : Word} {data : List Byte} (complete : es.length = K) (hrest : rest = be32 nb ++ data)
include complete hrest

theorem parseRecord_badLength (bad : nb.toNat > cap ∨ es = [] ∧ nb ≠ 0) :
    parseRecord cap m = .error .malformed := by
  subst complete hrest
  rw [parseRecord_of_table begins rfl, parsePayload_be32, if_pos (by rwa [List.length_eq_zero_iff])]

theorem parseRecord_of_length (hcap : nb.toNat ≤ cap) (table : es = [] → nb = 0) :
    parseRecord cap m =
      (takeBytes (ceil8 nb.toNat) data).map fun p => ⟨prim, es, unpack p.1 nb.toNat, m.length - p.2.length⟩ := by
  subst complete hrest
  have accepted : ¬ (nb.toNat > cap ∨ es.length = 0 ∧ nb ≠ 0) := by
    rw [List.length_eq_zero_iff]
    exact not_or.2 ⟨not_lt.2 hcap, fun ⟨hes, hnb⟩ => hnb (table hes)⟩
  rw [parseRecord_of_table begins rfl, parsePayload_be32, if_neg accepted]

theorem parseRecord_cutData (hcap : nb.toNat ≤ cap) (table : es = [] → nb = 0)
    (short : data.length < (nb.toNat + 7) / 8) : parseRecord cap m = .error .truncated := by
  rw [parseRecord_of_length begins complete hrest hcap table, takeBytes_short (k := ceil8 nb.toNat) short]; rfl

end
end

/-- A record that can be read is parsed to its fields, whatever follows it (R249). -/
theorem parseRecord_recordOf {es : List (Byte × Word)} {n : Nat} {data : List Byte} {cap : Word}
    (fits : recordFits es n data cap.toNat) (prim : Word) (rest : List Byte) :
    parseRecord cap.toNat (recordOf prim es n data ++ rest) =
      .ok ⟨prim, es, unpack data n, (recordOf prim es n data).length⟩ := by
  obtain ⟨ascending, nonzero, hcap, hdata, table⟩ := fits
  have hn : (BitVec.ofNat 32 n).toNat = n := Nat.mod_eq_of_lt (lt_of_le_of_lt hcap cap.isLt)
  have begins : recordBegins (recordOf prim es n data ++ rest) prim es.length es
      (be32 (BitVec.ofNat 32 n) ++ (data ++ rest)) :=
    ⟨length_le_of_ascending ascending, le_refl _, ascending, nonzero, by simp only [recordOf, List.append_assoc]⟩
  rw [parseRecord_of_length begins rfl rfl (by rwa [hn]) (fun hes => by rw [table hes]; rfl), hn,
    takeBytes_append (k := ceil8 n) data rest hdata, Except.map, List.length_append, Nat.add_sub_cancel]

/-! ### REC_READ (R248, R249) -/

theorem exec_recRead_of_beyond {s : State} (d : Fin 4) {r : Fin 4} (beyond : s.rpos.toNat > (s.len r).toNat) :
    exec (.recRead (idx d) (idx r)) s = .next (s.complete Opcode.recRead (some .operand) false 0) :=
  runTwo_error (refuseIf_raise (decide_eq_true beyond))

theorem exec_recRead_of_error {s : State} (d : Fin 4) {r : Fin 4} {c : CmdError}
    (before : s.rpos.toNat < (s.len r).toNat)
    (failed : parseRecord s.bsCapBits.toNat ((s.buf r).drop s.rpos.toNat) = .error c) :
    exec (.recRead (idx d) (idx r)) s = .next (s.complete Opcode.recRead (some c) false 0) := by
  refine runTwo_error ((refuseIf_pass (decide_eq_false (not_lt.2 before.le))).trans ((if_neg before.ne).trans ?_))
  rw [failed]; rfl

/-- What REC_READ keeps when it writes PRIMARY, FREQ, a stream and RPOS. -/
theorem keepsRest_recRead (s : State) (d : Fin 4) (F : Byte → Word) (x : List Bool) (prim p : Word) (op : Byte)
    (res : Word) :
    KeepsRest [] [d] s
      (State.complete { (s.setFreqs F).setSeq d x with primary := prim, rpos := p } op none false res) where
  host := ⟨rfl, rfl, rfl, rfl, rfl, rfl, rfl⟩
  buffers _ _ := ⟨rfl, fun _ => rfl⟩
  streams k hk := keepsStream_of_streamAt (streamAt_putSeq_ne (s.setFreqs F) 0 x fun h => hk (by simp [h]))

/-- A record at RPOS that can be read is read: what REC_READ writes, and what it keeps. -/
theorem exec_recRead_of_record {s : State} (d : Fin 4) {r : Fin 4} {prim : Word} {es : List (Byte × Word)} {n : Nat}
    {data rest : List Byte} (fits : recordFits es n data s.bsCapBits.toNat)
    (record : (s.buf r).drop s.rpos.toNat = recordOf prim es n data ++ rest) :
    ∃ t, exec (.recRead (idx d) (idx r)) s = .next t ∧
    Completes 0x41 (BitVec.ofNat 32 (recordOf prim es n data).length) false t ∧ t.primary = prim ∧
    (∀ v, t.freq v = (es.lookup v).getD 0) ∧ t.hufValid = false ∧ t.tree = s.tree ∧
    t.seq d = unpack data n ∧ t.startPos d = 0 ∧ t.endPos d = n ∧
    t.rpos.toNat = s.rpos.toNat + (recordOf prim es n data).length ∧ KeepsRest [] [d] s t := by
  have hlen := congrArg List.length record
  have hpos := recordOf_length prim es n data
  have hbuf := (s.len r).isLt
  rw [List.length_drop, buf_length, List.length_append] at hlen
  have before : s.rpos.toNat < (s.len r).toNat := by omega
  have hend : s.rpos.toNat + (recordOf prim es n data).length < 2 ^ 32 := by omega
  have parsed := parseRecord_recordOf fits prim rest
  rw [← record] at parsed
  refine ⟨_, exec_of_succeeds (.recRead d r _ before parsed), complete_completes _ _ _ _, rfl, ?_, rfl, rfl,
    seq_setSeq_self (s.setFreqs _) d _, startPos_setSeq_self (s.setFreqs _) d _, ?_, ?_,
    keepsRest_recRead s d _ _ _ _ _ _⟩
  · exact freq_setFreqs s (entryFreq es)
  · exact (endPos_setSeq_self (s.setFreqs _) d _).trans (unpack_length _ _)
  · exact Nat.mod_eq_of_lt hend

/-- Settles O41: the checks of RPOS, then those of `parseRecord` on the bytes that remain, field by
field. -/
theorem recReadParsesRecord : Obligations.RecReadParsesRecord := by
  intro s d r
  refine ⟨rfl, fun prim es n data rest fits record => exec_recRead_of_record d fits record,
    fun beyond => exists_fails (exec_recRead_of_beyond d beyond),
    fun atEnd => exists_completes (exec_of_succeeds (.recReadEnd d r atEnd)), ?_⟩
  rintro m hm before
  have fails {c : CmdError} (failed : parseRecord s.bsCapBits.toNat m = .error c) :
      ∃ t, exec (.recRead (idx d) (idx r)) s = .next t ∧ FailsWith 0x41 c t ∧ KeepsAll s t :=
    exists_fails (exec_recRead_of_error d before (hm ▸ failed))
  refine ⟨fun short => fails (parseRecord_short _ short), fun prim K rest hhead many => ?_,
    fun prim K es rest begins => ⟨?_, ?_, ?_, fun nb data complete hrest => ⟨?_, ?_⟩⟩⟩
  · exact fails (by rw [hhead, parseRecord_head, if_pos many])
  · exact fun more short => fails (parseRecord_cutEntry begins more short)
  · exact fun v f rest' more hrest bad => fails (parseRecord_badEntry begins more hrest bad)
  · exact fun complete short => fails (parseRecord_cutLength begins complete short)
  · exact fun bad => fails (parseRecord_badLength begins complete hrest bad)
  · exact fun hcap table short => fails (parseRecord_cutData begins complete hrest hcap table short)

/-! ### REC_WRITE, then REC_READ (R251) -/

theorem mem_symbols {s : State} {v : Byte} : v ∈ s.symbols ↔ s.freq v ≠ 0 := mem_countedSymbols

/-- Looking a symbol up in the table of FREQ gives its count back, 0 for an unlisted one. -/
theorem lookup_freqEntries (s : State) (v : Byte) : (s.freqEntries.lookup v).getD 0 = s.freq v := by
  by_cases hv : v ∈ s.symbols
  · rw [State.freqEntries, List.lookup_graph _ hv]; rfl
  · have unlisted : s.freqEntries.lookup v = none := by
      simp only [State.freqEntries, List.lookup_eq_none_iff, List.forall_mem_map]
      exact fun u hu => bne_iff_ne.2 fun h : v = u => hv (h ▸ hu)
    rw [unlisted, not_not.1 (mt mem_symbols.2 hv)]; rfl

/-- What REC_WRITE writes can be read: the symbols ascend and their counts are not 0 (R249). -/
theorem recordFits_freqEntries {s : State} {x : List Bool} {cap : Nat} (hcap : x.length ≤ cap)
    (table : (∃ v, s.freq v ≠ 0) ∨ x = []) : recordFits s.freqEntries x.length (pack x) cap := by
  refine ⟨?_, ?_, hcap, pack_length x, fun empty => ?_⟩
  · exact List.pairwise_map.2 (allBytes_sorted.sublist List.filter_sublist)
  · exact List.forall_mem_map.2 fun v hv => mem_symbols.1 hv
  · rcases table with ⟨v, hv⟩ | rfl
    · exact absurd (mem_symbols.2 hv) (by rw [List.map_eq_nil_iff.1 empty]; exact List.not_mem_nil)
    · rfl

/-- Settles O42: the bytes from the old LEN on are a record that can be read, whose fields are PRIMARY, the table of
FREQ and the packed payload. -/
theorem recordRoundTrip : Obligations.RecordRoundTrip := by
  intro s t d r e p₁ h table hwrite hok
  by_cases fits : (s.len d).toNat + (s.record (s.seq r)).length ≤ s.bufBytes.toNat
  · obtain ⟨t', ht', hcompl, hbuf, hlen, hkeep⟩ :=
      ((recWriteAppendsRecord s d r).2 s.symbols (s.record (s.seq r)) rfl rfl).2.2 fits
    cases ht'.symm.trans hwrite
    have hcap : (s.seq r).length ≤ t.bsCapBits.toNat := by
      rw [hkeep.rest.host.bsCapBits]; exact h.seq_length_le r
    have hbytes : (t.buf d).drop (s.len d).toNat = recordOf s.primary s.freqEntries (s.seq r).length
        (pack (s.seq r)) ++ [] := by
      rw [hbuf, List.drop_left' (buf_length s d), record_eq_recordOf, List.append_nil]
    obtain ⟨u, hu, hcompl', hprim, hfreq, -, -, hseq, -, -, hrpos, -⟩ :=
      exec_recRead_of_record (s := { t with rpos := s.len d, primary := p₁, freqs := [] }) e
        (recordFits_freqEntries hcap table) hbytes
    rw [← record_eq_recordOf] at hcompl' hrpos
    refine ⟨u, hu, hcompl'.err, hcompl'.eof, hprim, fun v => (hfreq v).trans (lookup_freqEntries s v), ?_,
      hcompl'.result.trans hcompl.result.symm, BitVec.eq_of_toNat_eq (hrpos.trans hlen.symm)⟩
    rw [hseq, unpack_pack]
  · cases (exec_recWrite_of_full (not_le.1 fits)).symm.trans hwrite
    cases hok

end Sys2Proof.Machine

/-! ## Proof about NOP (R265) -/

namespace Sys2Proof.Machine

/-- NOP's row of the opcode table masks no bit: every nonzero word with OP 0 misses it (R116, R265). -/
theorem decode_error_of_nop_op {w : Word} (hop : opField w = 0) (hne : w ≠ 0) : ∃ e, decode w = .error e := by
  obtain ⟨-, -, misses, -⟩ := illegalWordRefused
  have hrow : (0x00, 0x00000000, 0xFFFFFFFF) ∈ tableRows := by simp [tableRows]
  have hmask : w &&& 0xFFFFFFFF = w := BitVec.and_allOnes
  exact misses _ hrow w hop (hmask.symm ▸ hne)

/-- Settles O7: a nonzero word with OP 0 misses NOP's row, and NOP completes from the state as it was. -/
theorem nopCompletes : Obligations.NopCompletes :=
  ⟨by decide, fun _ => decode_error_of_nop_op, fun _ => exists_completes (exec_of_succeeds .nop)⟩

end Sys2Proof.Machine

/-! ## Proofs about the step, the completion of every word, and the status registers (R35, R277, R279) -/

namespace Sys2Proof.Machine

/-! ### Whose turn it is (R30, R277) -/

section
variable {s : State} {w : Word} {rest : List Input}

theorem step_of_decode_ok {i : Instr} (hlatch : s.latch = some w) (hinputs : s.inputs = [])
    (hdecode : decode w = .ok i) : step s = exec i s :=
  (step_engine hinputs).trans (engineStep_ok hlatch hdecode)

theorem step_of_decode_error {e : DecodeError} (hlatch : s.latch = some w) (hinputs : s.inputs = [])
    (hdecode : decode w = .error e) : step s = .next (illegalCommand w s) :=
  (step_engine hinputs).trans (engineStep_error hlatch hdecode)

theorem step_of_engine_turn (h : s.inputs = .engine :: rest) : step s = engineStep { s with inputs := rest } := by
  simp [step, takeTurn, h]

theorem step_of_read_turn {addr : Addr} {n : Nat} (h : s.inputs = .read addr n :: rest) :
    step s = .next (respond (State.memRead { s with inputs := rest } addr n)) := by
  simp [step, takeTurn, h]

theorem step_of_write_turn {addr : Addr} {n : Nat} {v : Word} (h : s.inputs = .write addr n v :: rest) :
    step s = .next (respond (State.memWrite { s with inputs := rest } addr n v)) := by
  simp [step, takeTurn, h]

theorem step_of_reset_turn (h : s.inputs = .reset :: rest) :
    step s = .next (State.hardReset { s with inputs := rest }) := by
  simp [step, takeTurn, h]

end

theorem latch_withFetchWord (s : State) (w : Word) : (s.withFetchWord 32 w.toNat).latch = some w := by
  have hword : BitVec.ofNat 32 (w.toNat % 2 ^ 32) = w := by
    rw [Nat.mod_eq_of_lt w.isLt, BitVec.ofNat_toNat, BitVec.setWidth_eq]
  exact congrArg some hword

/-- Settles O6: a turn that is not the host's or the reset pin's is the engine's, which runs the latched command. -/
theorem stepRunsLatchedCommand : Obligations.StepRunsLatchedCommand := by
  refine ⟨fun s w i hdecode => ⟨fun hlatch hinputs => step_of_decode_ok hlatch hinputs hdecode,
      fun rest hlatch hinputs => ?_, latch_withFetchWord s w,
      step_of_decode_ok (latch_withFetchWord s w) rfl hdecode⟩,
    fun s hidle hinputs => (step_engine hinputs).trans (engineStep_idle hidle),
    fun s rest addr n v => ⟨fun h => ⟨_, _, rfl, step_of_read_turn h⟩, fun h => ⟨_, _, rfl, step_of_write_turn h⟩,
      step_of_reset_turn⟩⟩
  exact (step_of_engine_turn hinputs).trans (engineStep_ok (s := { s with inputs := rest }) hlatch hdecode)

/-! ### Every word completes (R277, R284) -/

/-- What the completion of a word with the low byte `op` shows, whether it failed or not (R277). -/
structure HasCompleted (op : Byte) (t : State) : Prop where
  busy    : t.busy = false
  irqPend : t.irqPend = true
  errOp   : t.errOp = op
  err_iff : t.err = true ↔ t.errCode ≠ none
  onError : t.err = true → t.result = 0 ∧ t.eof = false

theorem complete_hasCompleted (u : State) (op : Byte) (c : Option CmdError) (eof : Bool) (res : Word) :
    HasCompleted op (u.complete op c eof res) where
  busy := rfl
  irqPend := rfl
  errOp := rfl
  err_iff := Option.isSome_iff_ne_none
  onError h := by
    cases c with
    | none => cases h
    | some c => exact ⟨rfl, rfl⟩

section
variable {i : Instr} {s t : State}

theorem ends_hasCompleted (ends : Ends i s t) : HasCompleted i.opcode t := by
  cases ends with
  | failed c u => exact complete_hasCompleted u _ _ _ _
  | succeeded e => exact complete_hasCompleted e.state _ _ _ _

/-- Only a read at the end of its input ends with EOF = 1 (R35). -/
theorem opcode_of_succeeds_eof {e : Effect} (rule : Succeeds s i e) (h : e.eof = true) :
    i.opcode = 0x18 ∨ i.opcode = 0x41 := by
  cases rule with
  | bsReadEnd => exact .inl rfl
  | recReadEnd => exact .inr rfl
  | _ => cases h

theorem opcode_of_ends_eof (ends : Ends i s t) (h : t.eof = true) : i.opcode = 0x18 ∨ i.opcode = 0x41 := by
  cases ends with
  | failed => cases h
  | succeeded e rule => exact opcode_of_succeeds_eof rule h

end

/-- Settles O43: a word that is no command is completed with ERR_ILLEGAL, and a command is completed by `finish`. -/
theorem everyCommandCompletes : Obligations.EveryCommandCompletes := by
  intro s w hlatch hinputs
  cases hdecode : decode w with
  | error e =>
    obtain ⟨hbusy, hirq, hop, herr, hfail⟩ := complete_hasCompleted s (opField w) (some .illegal) false 0
    exact ⟨_, step_of_decode_error hlatch hinputs hdecode, hbusy, hirq, hop, herr, hfail, rfl, nofun⟩
  | ok i =>
    obtain ⟨t, hexec, ends⟩ := exec_ends i s
    obtain ⟨hbusy, hirq, hop, herr, hfail⟩ := ends_hasCompleted ends
    obtain ⟨host, -⟩ := writersOfSharedRegisters i s t hexec
    rw [← opcode_of_decode hdecode]
    exact ⟨t, (step_of_decode_ok hlatch hinputs hdecode).trans hexec, hbusy, hirq, hop, herr, hfail, host.overrun,
      opcode_of_ends_eof ends⟩

/-! ### What a failed word leaves unchanged (R279) -/

/-- What a failed command with the destination buffer `dest`, if any, leaves as it was: everything but the completion's
registers and that buffer's bytes at LEN and above. -/
structure KeepsOnError (dest : Option (Fin 4)) (s t : State) : Prop where
  but   : KeepsBut dest.toList [] s t
  below : ∀ b, KeepsBelowLen b s t

theorem keepsOnError_complete (dest : Option (Fin 4)) (s : State) (op : Byte) (c : Option CmdError) (eof : Bool)
    (res : Word) : KeepsOnError dest s (s.complete op c eof res) :=
  have all := keepsAll_complete s op c eof res
  { but := ⟨⟨all.rest.host, fun b _ => all.rest.buffers b List.not_mem_nil, all.rest.streams⟩, all.primary, all.rpos,
      all.huffman⟩
    below := fun _ => ⟨rfl, fun _ _ => rfl⟩ }

theorem keepsOnError_scratch (s : State) (d : Fin 4) (op : Byte) (c : Option CmdError) (eof : Bool) (res : Word) :
    KeepsOnError (some d) s ((s.scratch d).complete op c eof res) where
  but := (keepsOnFailure_scratch s d op c eof res).but
  below b := ⟨(scratch_keepsBelowLen s d b).len, (scratch_keepsBelowLen s d b).byte⟩

theorem ends_keepsOnError {i : Instr} {s t : State} (ends : Ends i s t) (herr : t.err = true) :
    KeepsOnError (bufDest i) s t := by
  cases ends with
  | failed c u before =>
    rcases before with rfl | ⟨d, hd, rfl⟩
    · exact keepsOnError_complete _ u _ _ _ _
    · rw [hd]; exact keepsOnError_scratch s d _ _ _ _
  | succeeded => cases herr

/-- The codes are a view of TREE and HUF_VALID (R50). -/
theorem codeOf_of_keepsHuffman {s t : State} (h : KeepsHuffman s t) (v : Byte) : t.codeOf v = s.codeOf v := by
  simp [State.codeOf, State.validTree, h.tree, h.hufValid]

/-- The destination buffer of a word's command; a word that does not decode has none (R117). -/
def wordDest (w : Word) : Option (Fin 4) := (decode w).toOption.bind bufDest

theorem wordDest_of_decode_error {w : Word} {e : DecodeError} (h : decode w = .error e) : wordDest w = none := by
  rw [wordDest, h]; rfl

theorem wordDest_of_decode_ok {w : Word} {i : Instr} (h : decode w = .ok i) : wordDest w = bufDest i := by
  rw [wordDest, h]; rfl

theorem failed_step_keepsOnError {s t : State} {w : Word} (hlatch : s.latch = some w) (hinputs : s.inputs = [])
    (hstep : step s = .next t) (herr : t.err = true) : KeepsOnError (wordDest w) s t := by
  cases hdecode : decode w with
  | error e =>
    cases (step_of_decode_error hlatch hinputs hdecode).symm.trans hstep
    exact keepsOnError_complete _ s _ _ _ _
  | ok i =>
    have hexec := (step_of_decode_ok hlatch hinputs hdecode).symm.trans hstep
    rw [wordDest_of_decode_ok hdecode]
    exact ends_keepsOnError (ends_of_exec hexec) herr

/-- Settles O44: the completion is that of every word (O43), from the state before the word or, when its command names a
destination buffer, from that state with the buffer used as scratch. -/
theorem failureIsAtomic : Obligations.FailureIsAtomic := by
  intro s t w hlatch hinputs hstep herr
  obtain ⟨t', ht', hbusy, hirq, hop, herr_iff, hfail, -⟩ := everyCommandCompletes s w hlatch hinputs
  cases ht'.symm.trans hstep
  obtain ⟨hresult, heof⟩ := hfail herr
  obtain ⟨but, below⟩ := failed_step_keepsOnError hlatch hinputs hstep herr
  refine ⟨hbusy, heof, hop, herr_iff.1 herr, hresult, hirq, codeOf_of_keepsHuffman but.huffman,
    fun b => buf_ext (below b).len (below b).byte, below, fun e hdecode => ?_, fun i hdecode => ?_⟩
  · rw [wordDest_of_decode_error hdecode] at but
    exact but
  · rwa [wordDest_of_decode_ok hdecode] at but

/-! ### The status registers as words (R35, R36, R44, R47) -/

/-- The bits of STATUS from bit 0 up (R35). -/
def State.statusBits (s : State) : List Bool := [s.busy, s.err, s.eof, s.hufValid, s.overrun]

theorem statusWord_eq_wordOfBits (s : State) : s.statusWord = wordOfBits fun b => s.statusBits.getD b false := by
  have hsum : s.busy.toNat + 2 * s.err.toNat + 4 * s.eof.toNat + 8 * s.hufValid.toNat + 16 * s.overrun.toNat =
      s.busy.toNat + 2 * (s.err.toNat + 2 * (s.eof.toNat + 2 * (s.hufValid.toNat + 2 * s.overrun.toNat))) := by
    omega
  rw [State.statusWord, hsum, wordOfBits]
  simp [State.statusBits, List.range_succ]

theorem statusWord_getLsbD (s : State) (b : Nat) : s.statusWord.getLsbD b = s.statusBits.getD b false := by
  rw [statusWord_eq_wordOfBits]
  rcases Nat.lt_or_ge b 32 with hb | hb
  · exact getLsbD_wordOfBits _ hb
  · rw [BitVec.getLsbD_of_ge _ _ hb, List.getD_eq_default _ _ (le_trans (by decide : 5 ≤ 32) hb)]

theorem toNat_errcodeWord (s : State) :
    s.errcodeWord.toNat = s.errOp.toNat * 2 ^ 8 + (codeByte s.errCode).toNat := by
  have hop := s.errOp.isLt
  have hcode := (codeByte s.errCode).isLt
  rw [← Nat.shiftLeft_eq, Nat.shiftLeft_add_eq_or_of_lt hcode]
  simp only [State.errcodeWord, BitVec.toNat_or, BitVec.toNat_shiftLeft, BitVec.toNat_setWidth, Nat.shiftLeft_eq]
  rw [Nat.mod_eq_of_lt (by omega), Nat.mod_eq_of_lt (by omega), Nat.mod_eq_of_lt (by omega)]

theorem toNat_extractLsb'_errcodeWord (s : State) (k n : Nat) : (s.errcodeWord.extractLsb' k n).toNat =
    (s.errOp.toNat * 2 ^ 8 + (codeByte s.errCode).toNat) / 2 ^ k % 2 ^ n := by
  rw [BitVec.extractLsb'_toNat, toNat_errcodeWord, Nat.shiftRight_eq_div_pow]

/-- ERRCODE has OP in bits 15:8, CODE in bits 7:0 and 0 above (R36). -/
theorem errcodeWord_fields (s : State) : s.errcodeWord.extractLsb' 8 8 = s.errOp ∧
    s.errcodeWord.extractLsb' 0 8 = codeByte s.errCode ∧ s.errcodeWord.extractLsb' 16 16 = 0 := by
  have hop := s.errOp.isLt
  have hcode := (codeByte s.errCode).isLt
  refine ⟨?_, ?_, ?_⟩ <;> apply BitVec.eq_of_toNat_eq <;> rw [toNat_extractLsb'_errcodeWord]
  · omega
  · omega
  · show _ = 0
    omega

theorem codeByte_le (c : Option CmdError) : (codeByte c).toNat ≤ 10 := by
  cases c with
  | none => decide
  | some c => cases c <;> decide

theorem writeStatus_eq (s : State) (v : Word) :
    s.writeStatus v = { s with overrun := if v.getLsbD 4 then false else s.overrun } := by
  simp only [State.writeStatus]
  cases v.getLsbD 4 <;> simp

theorem writeIrq_eq (s : State) (v : Word) :
    s.writeIrq v = { s with irqPend := if v.getLsbD 0 then false else s.irqPend } := by
  simp only [State.writeIrq]
  cases v.getLsbD 0 <;> simp

theorem ofNat_toNat_eq_one (b : Bool) : BitVec.ofNat 32 b.toNat = 1 ↔ b = true := by
  cases b <;> decide

theorem irqOut_iff (s : State) : s.irqOut = true ↔ s.readReg .ctrl = 1 ∧ s.readReg .irq = 1 := by
  rw [State.irqOut, Bool.and_eq_true]
  exact and_congr (ofNat_toNat_eq_one _).symm (ofNat_toNat_eq_one _).symm

/-- Settles O58: each register's word gives back the bits it was made of, and the two write effects are masks. -/
theorem statusAndInterrupt : Obligations.StatusAndInterrupt := by
  refine ⟨by decide, fun s v => ?_⟩
  obtain ⟨hop, hcode, hhigh⟩ := errcodeWord_fields s
  refine ⟨rfl, rfl, rfl, rfl, statusWord_getLsbD s 0, statusWord_getLsbD s 1, statusWord_getLsbD s 2,
    statusWord_getLsbD s 3, statusWord_getLsbD s 4, fun b hb => ?_, hop, hcode, hhigh,
    codeByte_le _, ?_, ?_, irqOut_iff s⟩
  · exact (statusWord_getLsbD s b).trans (List.getD_eq_default _ _ hb)
  · exact writeStatus_eq s v ▸ memWrite_reg (r := .status) v (by decide) rfl rfl (.inr rfl)
  · exact writeIrq_eq s v ▸ memWrite_reg (r := .irq) v (by decide) rfl rfl (.inr rfl)

end Sys2Proof.Machine

/-! ## Proof about the soft reset (R44, R302, R303) -/

namespace Sys2Proof.Machine

section
variable (s : State) {v : Word}

/-- CTRL is in the ALWAYS set, so its write takes effect while a command is in flight too (R90, R302). -/
theorem memWrite_ctrl (v : Word) : s.memWrite 0x030 4 v = (s.writeCtrl v, .done) :=
  memWrite_reg (r := .ctrl) v (by decide) rfl rfl (.inr rfl)

theorem writeCtrl_of_reset (h : v.getLsbD 1 = true) : s.writeCtrl v = s.softReset := if_pos h

theorem writeCtrl_of_plain (h : v.getLsbD 1 = false) : s.writeCtrl v = { s with irqEn := v.getLsbD 0 } :=
  if_neg (Bool.eq_false_iff.1 h)

theorem readReg_softReset {r : Reg} (hr : r ∉ [Reg.id, .version, .paramBuf, .paramBs]) :
    s.softReset.readReg r = 0 :=
  readReg_afterReset s.bufBytes s.bsCapBits s.draws s.inputs hr

theorem startPos_softReset (k : Fin 4) : s.softReset.startPos k = 0 :=
  congrArg (fun b : Bitstream => b.start.toNat) (streamAt_resetWith s.bufBytes s.bsCapBits s.draws k)

theorem seq_softReset (k : Fin 4) : s.softReset.seq k = [] :=
  congrArg Bitstream.bits (streamAt_resetWith s.bufBytes s.bsCapBits s.draws k)

theorem endPos_softReset (k : Fin 4) : s.softReset.endPos k = 0 := by
  rw [State.endPos, startPos_softReset, seq_softReset, List.length_nil]

end

/-- Settles O56: a CTRL write reaches `writeCtrl` busy or not, and a soft reset leaves every register at 0. -/
theorem resetsClearState : Obligations.ResetsClearState := by
  intro s v
  rw [memWrite_ctrl]
  refine ⟨fun hplain => by rw [writeCtrl_of_plain s hplain], fun hreset => ?_⟩
  rw [writeCtrl_of_reset s hreset]
  refine ⟨s.softReset, rfl, rfl, engineStep_idle rfl, ?_⟩
  have hzero {r : Reg} := readReg_softReset s (r := r)
  refine ⟨hzero (r := .status) (by decide), hzero (r := .errcode) (by decide), rfl, rfl, rfl, rfl, rfl,
    hzero (r := .ctrl) (by decide), hzero (r := .irq) (by decide), rfl, hzero (r := .nsym) (by decide),
    fun i => ⟨?_, startPos_softReset s i, endPos_softReset s i⟩, fun u => ⟨?_, ?_, fun k => ?_⟩, rfl, rfl⟩
  · exact hzero (r := .len i) (by simp)
  · exact hzero (r := .freq u) (by simp)
  · exact hzero (r := .codeLen u) (by simp)
  · exact hzero (r := .codeBits u k) (by simp)

end Sys2Proof.Machine
